-- ==== Sys2Proof/Word.lean ====
section
/-! DEFINITION. Words, bytes and host access widths (spec/00_scope.md R8, R9; spec/20_memory.md R63). -/

namespace Sys2Proof

/-- A host-visible register's value: REG_WIDTH = 32 bits (00_scope.md R8). -/
abbrev Word := BitVec 32

/-- One byte of LMEM. -/
abbrev Byte := BitVec 8

/-- The data lines of one host access, as wide as the widest access (20_memory.md R63). A narrower access
uses the low bytes. -/
abbrev BusData := BitVec 64

/-- The width of a host access, in bytes. Any number can come: 20_memory.md R61 says what an access of "any other
width" does on the register page. -/
structure Width where
  bytes : Nat
  deriving DecidableEq, Repr

/-! The four widths that 20_memory.md R61 to R63 name. -/

abbrev Width.w1 : Width := { bytes := 1 }
abbrev Width.w2 : Width := { bytes := 2 }
abbrev Width.w4 : Width := { bytes := 4 }
abbrev Width.w8 : Width := { bytes := 8 }

/-- A width of 1, 2, 4 or 8 bytes: the widths of the reserved region and the LMEM window (20_memory.md R62, R63). -/
def Width.standard (w : Width) : Bool := [1, 2, 4, 8].contains w.bytes

end Sys2Proof
end

