-- ==== Sys2Proof/Config.lean ====
section
/-! DEFINITION. The configuration of the block: the shape of a parameter set, and the values the spec leaves open
(opaque constants: nothing in Lean can evaluate one or prove a value of it). The five parameter sets themselves
stand in Sys2Proof/Machine/Params.lean. -/

namespace Sys2Proof.Config

/-- A field GF(2^m) as a configuration value (40_field.md R110, 92_eei_decisions.md D43): its degree m and the bit
pattern of its modulus Pm. -/
structure FieldSpec where
  m : Nat
  modulus : Nat
  deriving DecidableEq, Repr

/-- The variant names of 00_scope.md R6. -/
inductive Variant where
  | mceliece348864
  | mceliece460896
  | mceliece6688128
  | mceliece6960119
  | mceliece8192128
  deriving DecidableEq, Repr

/-- A parameter set (00_scope.md R2, R6): the field, the Goppa degree sysT, the code length sysN, and the low terms
(exponent, coefficient) of the defining polynomial F, which is y^sysT plus these (42_minpoly.md R150). -/
structure ParamSet where
  variant : Variant
  field : FieldSpec
  sysT : Nat
  sysN : Nat
  ringLow : List (Nat × Nat)
  deriving DecidableEq, Repr

/-- FREE VALUE (10_state.md R41, 93_implementation_defined.md U1). `lmemAfterReset g a` is the arbitrary byte that
LMEM offset `a` holds after reset number `g`, until something writes it. Log 4. -/
opaque lmemAfterReset : Nat → Nat → Byte

/-- FREE VALUE (44_gauss.md R193, 93_implementation_defined.md U2). `geFailByte k a` is the unspecified byte that a
GE_REDUCE ending with FAIL leaves at LMEM offset `a` of its matrix, for the `k`-th such command. Log 6. -/
opaque geFailByte : Nat → Nat → Byte

/-- OPEN parameter BASE (00_scope.md R8, 93_implementation_defined.md U5): the aperture's platform address, counted
in apertures, since BASE is aligned to the aperture's size. Log 10. -/
opaque baseIndex : Nat

end Sys2Proof.Config
end

