-- ==== Sys2Proof/Syntax.lean ====
section
/-! DEFINITION. The commands of the block, one constructor per row of spec/opcode_table.json (30_encoding.md R91),
and the events of the host interface: host accesses, the sequencer's turn, the reset input. -/

namespace Sys2Proof

/-- The commands (30_encoding.md R91). A command has no register-number and no immediate fields (R90): its operands
are always OPA, OPB, ADDR0, ADDR1, LEN and the latched PSET. -/
inductive Instr where
  | nop
  | gfAdd
  | gfMul
  | gfSq
  | gfSq4
  | gfInv
  | gfDiv
  | sort32
  | sort64
  | minpoly
  | benes
  | transpose64
  | geReduce
  | geExtract
  | zero
  deriving DecidableEq, Repr

/-- The host-visible registers (10_state.md R21). -/
inductive Reg where
  | id
  | version
  | cfg
  | irqen
  | status
  | cmd
  | opa
  | opb
  | res
  | addr0
  | addr1
  | len
  deriving DecidableEq, Repr

/-- One host access of the aperture (20_memory.md R60 to R63), at an aperture offset, of any width. A write carries its
data lines; an access of width n uses their n low bytes. An access wider than the lines is refused everywhere, so what
it would carry above them is of no account. -/
inductive HostAccess where
  | read (offset : Nat) (width : Width)
  | write (offset : Nat) (width : Width) (value : BusData)
  deriving DecidableEq, Repr

/-- What happens next at the block: a host access, a turn of the sequencer, or the platform's reset input RST
(10_state.md R20, 70_reset_and_hazards.md R250). A list of these is one interleaving of the agents. -/
inductive Event where
  | access (a : HostAccess)
  | sequencer
  | rst
  deriving DecidableEq, Repr

end Sys2Proof
end

