-- ==== Sys2Proof/WellFormed.lean ====
section
/-! DEFINITION. Well-formedness of the syntax: commands, command words and host accesses. -/

namespace Sys2Proof

/-- A command has no operand fields (30_encoding.md R90), so every term of `Instr` is well-formed. What can be ill
formed is the WORD that should stand for one: see `commandWordLegal`. -/
def Instr.wellFormed (_ : Instr) : Bool := true

/-- The opcodes of the opcode map, in its order (30_encoding.md R91). -/
def assignedOpcodes : List Nat :=
  [0x00, 0x01, 0x02, 0x03, 0x04, 0x05, 0x06, 0x10, 0x11, 0x20, 0x30, 0x31, 0x40, 0x41, 0x50]

/-- "A command is legal exactly when RSV = 0 and OPC is one of these values" (30_encoding.md R91): RSV is the word's
value divided by 2^8, OPC the remainder. -/
def commandWordLegal (v : Word) : Bool :=
  decide (v.toNat / 256 = 0) && assignedOpcodes.contains (v.toNat % 256)

/-- The aperture offset of an access. -/
def HostAccess.offset : HostAccess → Nat
  | .read o _ => o
  | .write o _ _ => o

/-- The width of an access. -/
def HostAccess.width : HostAccess → Width
  | .read _ w => w
  | .write _ w _ => w

/-- An event is inside the aperture when the access it carries, if any, is at an offset of the 8 MiB aperture
(20_memory.md R60). -/
def Event.insideAperture : Event → Bool
  | .access a => decide (a.offset < 0x800000)
  | .sequencer => true
  | .rst => true

/-- An access is well-formed when its offset lies in the 8 MiB aperture (20_memory.md R60) and, for a write, its data
fit its width (R63). -/
def HostAccess.wellFormed : HostAccess → Bool
  | .read o _ => decide (o < 0x800000)
  | .write o w v => decide (o < 0x800000) && decide (v.toNat < 2 ^ (8 * w.bytes))

/-- An event is well-formed when the access it carries is. -/
def Event.wellFormed : Event → Bool
  | .access a => a.wellFormed
  | .sequencer => true
  | .rst => true

end Sys2Proof
end

