-- ==== Sys2Proof/Decode.lean ====
section
/-! DEFINITION. The decoder of command words (30_encoding.md R90 to R95) and, after it, the encoder. -/

namespace Sys2Proof

/-- Why a word is ILLEGAL (30_encoding.md R92, R94). The block does not tell the two apart: both end with EILL. -/
inductive Illegal where
  /-- RSV, bits [31:8], is not 0. Safe: the spec says so. -/
  | reservedBitsSet
  /-- OPC, bits [7:0], is not in the opcode map. Safe: the spec says so. -/
  | opcodeNotAssigned
  deriving DecidableEq, Repr

/-- Field OPC of a command word (30_encoding.md R90). -/
def opcField (v : Word) : BitVec 8 := v.extractLsb' 0 8

/-- Field RSV of a command word (30_encoding.md R90). -/
def rsvField (v : Word) : BitVec 24 := v.extractLsb' 8 24

/-- The opcode map (30_encoding.md R91). -/
def opcodeMap : List (BitVec 8 × Instr) :=
  [(0x00, .nop), (0x01, .gfAdd), (0x02, .gfMul), (0x03, .gfSq), (0x04, .gfSq4), (0x05, .gfInv), (0x06, .gfDiv),
   (0x10, .sort32), (0x11, .sort64), (0x20, .minpoly), (0x30, .benes), (0x31, .transpose64),
   (0x40, .geReduce), (0x41, .geExtract), (0x50, .zero)]

/-- Decoding (30_encoding.md R92), total on every 32-bit word. -/
def decode (v : Word) : Except Illegal Instr :=
  if rsvField v ≠ 0 then .error .reservedBitsSet
  else match opcodeMap.lookup (opcField v) with
    | some i => .ok i
    | none => .error .opcodeNotAssigned

/-- The opcode of a command, read from the column OPC of 30_encoding.md R91 (not from `opcodeMap`). -/
def Instr.opcode : Instr → BitVec 8
  | .nop => 0x00
  | .gfAdd => 0x01
  | .gfMul => 0x02
  | .gfSq => 0x03
  | .gfSq4 => 0x04
  | .gfInv => 0x05
  | .gfDiv => 0x06
  | .sort32 => 0x10
  | .sort64 => 0x11
  | .minpoly => 0x20
  | .benes => 0x30
  | .transpose64 => 0x31
  | .geReduce => 0x40
  | .geExtract => 0x41
  | .zero => 0x50

/-- The word of a command: RSV = 0 above OPC (30_encoding.md R90, R96 `cmd MNEMONIC`). -/
def encode (i : Instr) : Word := (0 : BitVec 24) ++ i.opcode

/-- The command this decoder reads from a table row's bits. A command is one whole 32-bit word (30_encoding.md R90),
so there is no byte order to choose. -/
def decodeTableWord (nbits w : Nat) : Option Instr :=
  match decode (BitVec.ofNat 32 (w % 2 ^ nbits)) with
  | .ok i => some i
  | .error _ => none

end Sys2Proof
end

