-- ==== Sys2Proof/Machine/State.lean ====
section
/-! DEFINITION. The state of the block (spec/10_state.md), the reasons a step can stop, and the state after reset. -/

namespace Sys2Proof.Machine

/-- Why a step faults. -/
inductive Fault where
  /-- Raised by the host port for an access at an offset outside the 8 MiB aperture (20_memory.md R60): no address of
  the block. Safe: the machine stops where the spec gives no behaviour. Log 8. -/
  | outsideAperture (offset : Nat)
  deriving DecidableEq, Repr

/-- Why a step is refused. -/
inductive Refusal where
  /-- Raised by an arm of exec whose command has no meaning in the model. No arm does. Safe: nothing is claimed. -/
  | notModelled (mnemonic : String)
  deriving DecidableEq, Repr

/-- The stored fields of STATUS (10_state.md R26). BUSY is not stored here: it is `State.busy`. -/
structure Status where
  done : Bool
  failed : Bool
  err : Bool
  ovf : Bool
  haz : Bool
  errcode : BitVec 8
  deriving DecidableEq, Repr

/-- The latched state of the command in flight (10_state.md R38): the command word LCMD and the parameter-set index
LPSET sampled at launch. -/
structure InFlight where
  word : Word
  pset : BitVec 3
  deriving DecidableEq, Repr

/-- LMEM as a list of (offset, byte) pairs, offsets strictly rising: the bytes written since the last reset. An
unlisted offset holds no written byte; see `State.byteAt` for what it reads as. -/
abbrev Memory := List Host.Cell

/-- What the block answered on the bus at the last host access (20_memory.md R61 to R65). The model's own field. -/
inductive BusResponse where
  /-- No access has been answered since reset. -/
  | idle
  /-- A read's data, zero-extended. -/
  | data (v : BusData)
  /-- A write was accepted, ignored, dropped or blocked: the bus does not tell these apart. -/
  | written
  /-- The access was refused: the platform's response BUSERR (20_memory.md R61). -/
  | busErr
  deriving DecidableEq, Repr

/-- The machine's state. The fields down to `lmem` are the spec's; the last four are the model's own. -/
structure State where
  /-- CFG.PSET (10_state.md R24). -/
  pset : BitVec 3
  /-- IRQEN.DONEIE (10_state.md R25). -/
  doneie : Bool
  /-- STATUS but for BUSY (10_state.md R26). -/
  status : Status
  /-- OPA (10_state.md R29). -/
  opa : Word
  /-- OPB (10_state.md R29). -/
  opb : Word
  /-- RES (10_state.md R30). -/
  res : Word
  /-- ADDR0 (10_state.md R31). -/
  addr0 : Word
  /-- ADDR1 (10_state.md R31). -/
  addr1 : Word
  /-- LEN (10_state.md R32). -/
  len : Word
  /-- The command in flight, LCMD and LPSET (10_state.md R38), or none. -/
  inflight : Option InFlight
  /-- LMEM (10_state.md R37), the written bytes. -/
  lmem : Memory
  /-- How many resets have happened: selects the arbitrary bytes of unwritten LMEM. Log 4. -/
  lmemGen : Nat
  /-- How many GE_REDUCE commands have failed: selects the unspecified matrix bytes. Log 6. -/
  draws : Nat
  /-- The received stream of events that have not happened yet. Log 1. -/
  agenda : List Event
  /-- The answer of the last host access. Log 7. -/
  bus : BusResponse
  deriving DecidableEq, Repr

/-- The reset value of STATUS (10_state.md R41). -/
def Status.reset : Status :=
  { done := false, failed := false, err := false, ovf := false, haz := false, errcode := 0 }

/-- The machine right after reset (10_state.md R41, 70_reset_and_hazards.md R253): every register 0, no command in
flight, no LMEM byte written. -/
def State.reset : State :=
  { pset := 0, doneie := false, status := Status.reset, opa := 0, opb := 0, res := 0, addr0 := 0, addr1 := 0, len := 0,
    inflight := none, lmem := [], lmemGen := 0, draws := 0, agenda := [], bus := .idle }

/-- STATUS.BUSY: "1 while a command is in flight" (10_state.md R26). -/
def State.busy (s : State) : Bool := s.inflight.isSome

/-! One update per field. -/

def State.withPset (s : State) (v : BitVec 3) : State := { s with pset := v }
def State.withDoneie (s : State) (v : Bool) : State := { s with doneie := v }
def State.withStatus (s : State) (v : Status) : State := { s with status := v }
def State.withOpa (s : State) (v : Word) : State := { s with opa := v }
def State.withOpb (s : State) (v : Word) : State := { s with opb := v }
def State.withRes (s : State) (v : Word) : State := { s with res := v }
def State.withAddr0 (s : State) (v : Word) : State := { s with addr0 := v }
def State.withAddr1 (s : State) (v : Word) : State := { s with addr1 := v }
def State.withLen (s : State) (v : Word) : State := { s with len := v }
def State.withInflight (s : State) (v : Option InFlight) : State := { s with inflight := v }
def State.withLmem (s : State) (v : Memory) : State := { s with lmem := v }
def State.withDraws (s : State) (v : Nat) : State := { s with draws := v }
def State.withAgenda (s : State) (v : List Event) : State := { s with agenda := v }
def State.withBus (s : State) (v : BusResponse) : State := { s with bus := v }

end Sys2Proof.Machine
end

