-- ==== Sys2Proof/Machine/Flags.lean ====
section
/-! DEFINITION. Every flag computation: the STATUS word, its write-1-to-clear bits, the flags at launch and at each
kind of completion, the sticky flags, the interrupt output (spec/10_state.md R26, R27, R42; spec/60_exceptions.md
R221 to R229). -/

namespace Sys2Proof.Machine

/-- The error codes (60_exceptions.md R221), in the order of their priority (R223). -/
inductive ErrorCode where
  | eill
  | ecfg
  | ealign
  | eaddr
  | eoverlap
  | edomain
  deriving DecidableEq, Repr

/-- The value STATUS.ERRCODE records (60_exceptions.md R221). -/
def errorValue : ErrorCode → BitVec 8
  | .eill => 1
  | .ecfg => 2
  | .ealign => 3
  | .eaddr => 4
  | .eoverlap => 5
  | .edomain => 6

/-- The STATUS word (10_state.md R26), most significant field first: [31:16] 0, ERRCODE, [7:6] 0, HAZ, OVF, ERR, FAIL,
DONE, BUSY. -/
def statusWord (busy : Bool) (t : Status) : Word :=
  (0 : BitVec 16) ++ t.errcode ++ (0 : BitVec 2) ++ BitVec.ofBool t.haz ++ BitVec.ofBool t.ovf ++ BitVec.ofBool t.err
    ++ BitVec.ofBool t.failed ++ BitVec.ofBool t.done ++ BitVec.ofBool busy

/-- A host write of v to STATUS (10_state.md R27): 1 clears DONE, OVF, HAZ; every other bit of v is ignored. -/
def statusClear (v : Word) (t : Status) : Status :=
  { t with
    done := t.done && !v.getLsbD 1
    ovf := t.ovf && !v.getLsbD 4
    haz := t.haz && !v.getLsbD 5 }

/-- The flags at launch (60_exceptions.md R226): OVF and HAZ keep their values. -/
def statusLaunched (t : Status) : Status :=
  { t with done := false, failed := false, err := false, errcode := 0 }

/-- The flags at a normal end (60_exceptions.md R227). -/
def statusNormal (t : Status) : Status :=
  { t with done := true, failed := false, err := false, errcode := 0 }

/-- The flags of an expected-retry failure (60_exceptions.md R225). -/
def statusFailed (t : Status) : Status :=
  { t with done := true, failed := true, err := false, errcode := 0 }

/-- The flags of an error (60_exceptions.md R224). -/
def statusError (c : ErrorCode) (t : Status) : Status :=
  { t with done := true, failed := false, err := true, errcode := errorValue c }

/-- HAZ <- 1 (10_state.md R40, 20_memory.md R65). -/
def statusHazard (t : Status) : Status := { t with haz := true }

/-- OVF <- 1 (60_exceptions.md R229). -/
def statusOverflow (t : Status) : Status := { t with ovf := true }

/-- The interrupt output IRQ = DONEIE & DONE, a level (10_state.md R42, 60_exceptions.md R232). -/
def State.irq (s : State) : Bool := s.doneie && s.status.done

end Sys2Proof.Machine
end

