-- ==== Sys2Proof/Machine/Params.lean ====
section
/-! DEFINITION. The parameter sets and the fixed sizes of the block (spec/00_scope.md R6 to R8, spec/40_field.md R110,
spec/42_minpoly.md R150). The moduli, the sets and the polynomials F are configuration values with the spec's defaults
(92_eei_decisions.md D43, log 13): the operations take them as arguments. -/

namespace Sys2Proof.Machine

open Sys2Proof.Config

/-- LMEM_BYTES (00_scope.md R8). -/
def lmemBytes : Nat := 0x400000

/-- APERTURE, 8 MiB (00_scope.md R8). -/
def apertureBytes : Nat := 0x800000

/-- BASE, aligned to the aperture (00_scope.md R8). -/
def apertureBase : Nat := baseIndex * apertureBytes

/-- GF(2^12), modulus x^12 + x^3 + 1 (40_field.md R110). -/
def gf12 : FieldSpec := { m := 12, modulus := 0x1009 }

/-- GF(2^13), modulus x^13 + x^4 + x^3 + x + 1 (40_field.md R110). -/
def gf13 : FieldSpec := { m := 13, modulus := 0x201B }

/-- PSET 0 (00_scope.md R6); F = y^64 + y^3 + y + z with z = 2 (42_minpoly.md R150). -/
def params348864 : ParamSet :=
  { variant := .mceliece348864, field := gf12, sysT := 64, sysN := 3488, ringLow := [(3, 1), (1, 1), (0, 2)] }

/-- PSET 1 (00_scope.md R6); F = y^96 + y^10 + y^9 + y^6 + 1 (42_minpoly.md R150). -/
def params460896 : ParamSet :=
  { variant := .mceliece460896, field := gf13, sysT := 96, sysN := 4608, ringLow := [(10, 1), (9, 1), (6, 1), (0, 1)] }

/-- PSET 2 (00_scope.md R6); F = y^128 + y^7 + y^2 + y + 1 (42_minpoly.md R150). -/
def params6688128 : ParamSet :=
  { variant := .mceliece6688128, field := gf13, sysT := 128, sysN := 6688, ringLow := [(7, 1), (2, 1), (1, 1), (0, 1)] }

/-- PSET 3 (00_scope.md R6); F = y^119 + y^8 + 1 (42_minpoly.md R150). -/
def params6960119 : ParamSet :=
  { variant := .mceliece6960119, field := gf13, sysT := 119, sysN := 6960, ringLow := [(8, 1), (0, 1)] }

/-- PSET 4 (00_scope.md R6); F as for PSET 2 (42_minpoly.md R150). -/
def params8192128 : ParamSet :=
  { variant := .mceliece8192128, field := gf13, sysT := 128, sysN := 8192, ringLow := [(7, 1), (2, 1), (1, 1), (0, 1)] }

/-- `row(PSET)` (10_state.md R43): the parameter set PSET selects; none for the reserved 5, 6 and 7. -/
def paramRow (p : BitVec 3) : Option ParamSet :=
  match p.toNat with
  | 0 => some params348864
  | 1 => some params460896
  | 2 => some params6688128
  | 3 => some params6960119
  | 4 => some params8192128
  | _ => none

/-! The derived sizes of 00_scope.md R7. -/

def nRows (P : ParamSet) : Nat := P.sysT * P.field.m
def rowBytes (P : ParamSet) : Nat := P.sysN / 8
def tCols (P : ParamSet) : Nat := P.sysN - nRows P
def pkRowBytes (P : ParamSet) : Nat := (tCols P + 7) / 8
def benesWires (P : ParamSet) : Nat := 2 ^ P.field.m
def controlBytes (P : ParamSet) : Nat := (2 * P.field.m - 1) * benesWires P / 16

end Sys2Proof.Machine
end

