-- ==== Sys2Proof/Machine/Ops.lean ====
section
/-! DEFINITION. The named operations: LMEM reads and writes (spec/00_scope.md R10, R13; spec/20_memory.md R64), launch,
and the ONE shared operation that ends a command (spec/60_exceptions.md R224 to R228). GF2M-CORE takes no exception and
returns from none: every outcome is recorded in STATUS (60_exceptions.md R220, R230), so ending a command with an error
is what taking an exception is elsewhere. -/

namespace Sys2Proof.Machine

/-! ### Little-endian bytes (00_scope.md R10, 20_memory.md R64) -/

/-- The unsigned integer whose little-endian bytes are these: the first byte is bits [7:0]. -/
def bytesToNat : List Byte → Nat
  | [] => 0
  | b :: bs => b.toNat + 256 * bytesToNat bs

/-- The n low bytes of v, little-endian. -/
def natToBytes : Nat → Nat → List Byte
  | 0, _ => []
  | n + 1, v => BitVec.ofNat 8 v :: natToBytes n (v / 256)

/-! ### LMEM as a list of written bytes -/

/-- The cells below an offset (of a list in canonical form). -/
def cellsBelow (mem : Memory) (a : Nat) : Memory := mem.takeWhile (fun c => decide (c.1 < a))

/-- The cells from an offset on (of a list in canonical form). -/
def cellsFrom (mem : Memory) (a : Nat) : Memory := mem.dropWhile (fun c => decide (c.1 < a))

/-- The written byte at an offset, or none. What an unlisted offset reads as is `none` here, no value; the free value
that stands for it is supplied by `byteOr`. -/
def writtenByte (mem : Memory) (a : Nat) : Option Byte :=
  match cellsFrom mem a with
  | [] => none
  | (k, b) :: _ => if k = a then some b else none

/-- The byte at an offset, with `fill` for the offsets nothing has written. -/
def byteOr (fill : Nat → Byte) (mem : Memory) (a : Nat) : Byte := (writtenByte mem a).getD (fill a)

/-- The n bytes at a, a+1, …, in one pass over the list. It is `byteOr` at each offset (`readBytes_eq_map`). -/
def readBytes (fill : Nat → Byte) : Memory → Nat → Nat → List Byte
  | _, _, 0 => []
  | mem, a, n + 1 =>
    match cellsFrom mem a with
    | [] => fill a :: readBytes fill [] (a + 1) n
    | (k, b) :: rest =>
      if k = a then b :: readBytes fill rest (a + 1) n else fill a :: readBytes fill ((k, b) :: rest) (a + 1) n

/-- The cells of consecutive bytes from an offset on. -/
def cellsAt : Nat → List Byte → Memory
  | _, [] => []
  | a, b :: bs => (a, b) :: cellsAt (a + 1) bs

/-- Store consecutive bytes: the cells below the range, the new cells, the cells above the range. -/
def writeBytes (mem : Memory) (a : Nat) (bs : List Byte) : Memory :=
  cellsBelow mem a ++ cellsAt a bs ++ cellsFrom mem (a + bs.length)

/-- Offsets strictly rising from `lo` on. -/
def risingFrom : Nat → Memory → Bool
  | _, [] => true
  | lo, (k, _) :: rest => decide (lo ≤ k) && risingFrom (k + 1) rest

/-- The canonical form: offsets strictly rising, every offset inside LMEM (10_state.md R37). No listed entry equals
what an unlisted offset reads as, since that is no value. Log 5. -/
def Memory.wf (mem : Memory) : Bool :=
  risingFrom 0 mem && mem.all (fun c => decide (c.1 < lmemBytes))

/-! ### LMEM of a state -/

/-- What LMEM reads as where nothing has been written since the last reset: an arbitrary byte (10_state.md R41). -/
def State.fill (s : State) : Nat → Byte := Config.lmemAfterReset s.lmemGen

/-- The LMEM byte at an offset. -/
def State.byteAt (s : State) (a : Nat) : Byte := byteOr s.fill s.lmem a

/-- `MemRead(addr, n)` (00_scope.md R10). -/
def State.memRead (s : State) (a n : Nat) : Nat := bytesToNat (readBytes s.fill s.lmem a n)

/-- `MemBit(base, k)` (00_scope.md R10, R13): the least significant bit comes first. -/
def State.memBit (s : State) (base k : Nat) : Bool := (s.byteAt (base + k / 8)).getLsbD (k % 8)

/-- Store bytes at LMEM offsets a, a+1, …: `MemWrite` of the little-endian bytes of a value (00_scope.md R10). -/
def State.storeBytes (s : State) (a : Nat) (bs : List Byte) : State := s.withLmem (writeBytes s.lmem a bs)

/-- The effect of the unspecified values of 44_gauss.md R193: every byte of [a, a + n) becomes a fresh free value. -/
def State.drawRegion (s : State) (a n : Nat) : State :=
  (s.storeBytes a ((List.range n).map (fun i => Config.geFailByte s.draws (a + i)))).withDraws (s.draws + 1)

/-! ### Launch and the command in flight -/

/-- Launch of a command word (60_exceptions.md R226): LCMD and LPSET are latched, BUSY <- 1, the outcome flags clear. -/
def State.launch (s : State) (v : Word) : State :=
  (s.withInflight (some { word := v, pset := s.pset })).withStatus (statusLaunched s.status)

/-- LPSET (10_state.md R38). With no command in flight it is the value a launch would sample now (60_exceptions.md
R226), so that a command's meaning is total. Log 11. -/
def State.lpset (s : State) : BitVec 3 :=
  match s.inflight with
  | some l => l.pset
  | none => s.pset

/-! ### The end of a command -/

/-- How a command's rule ends (60_exceptions.md R220), with the one thing it writes besides STATUS. -/
inductive CommandEnd where
  /-- `raise Error(code)` (60_exceptions.md R224). -/
  | error (c : ErrorCode)
  /-- `fail()` with nothing written (60_exceptions.md R225): MINPOLY. -/
  | fail
  /-- `fail()` that leaves [a, a + n) unspecified (44_gauss.md R193): GE_REDUCE. -/
  | failUnspecified (a n : Nat)
  /-- A normal end that writes nothing: NOP. -/
  | normal
  /-- A normal end with RES <- v: the field commands (10_state.md R30). -/
  | result (v : Word)
  /-- A normal end that writes these bytes to LMEM at a. -/
  | store (a : Nat) (bs : List Byte)
  deriving DecidableEq, Repr

/-- The command in flight ends: BUSY <- 0 and the STATUS fields change to `t` (60_exceptions.md R224, R225, R227). -/
def State.endWith (s : State) (t : Status) : State := (s.withInflight none).withStatus t

/-- Completion (60_exceptions.md R224, R225, R227): every command ends here, whatever its outcome, and its whole effect
is applied at once (20_memory.md R69). Nothing else of the state changes. -/
def State.finish (s : State) : CommandEnd → State
  | .error c => s.endWith (statusError c s.status)
  | .fail => s.endWith (statusFailed s.status)
  | .failUnspecified a n => (s.drawRegion a n).endWith (statusFailed s.status)
  | .normal => s.endWith (statusNormal s.status)
  | .result v => (s.withRes v).endWith (statusNormal s.status)
  | .store a bs => (s.storeBytes a bs).endWith (statusNormal s.status)

/-! ### Reset -/

/-- The reset input RST (70_reset_and_hazards.md R250, R251; 10_state.md R41): every register to its reset value, the
command in flight abandoned, every LMEM byte arbitrary again. The events received after it stay to come (R252). -/
def State.resetInput (s : State) : State :=
  { State.reset with lmemGen := s.lmemGen + 1, draws := s.draws, agenda := s.agenda }

end Sys2Proof.Machine
end

