-- ==== Sys2Proof/Machine/Operands.lean ====
section
/-! DEFINITION. Every operand form: the register map and the register reads and writes (spec/10_state.md R21 to R33,
R40), the memory regions and their checks (spec/20_memory.md R66), the element arrays (R67, R68), the parameter set
(spec/10_state.md R43). -/

namespace Sys2Proof.Machine

open Sys2Proof.Config

/-! ### The register page (10_state.md R21) -/

/-- The offset of a register. -/
def regOffset : Reg → Nat
  | .id => 0x000
  | .version => 0x004
  | .cfg => 0x008
  | .irqen => 0x00C
  | .status => 0x010
  | .cmd => 0x014
  | .opa => 0x018
  | .opb => 0x01C
  | .res => 0x020
  | .addr0 => 0x024
  | .addr1 => 0x028
  | .len => 0x02C

/-- The register at an offset of the register page; none at a reserved offset (10_state.md R33). -/
def regAt (offset : Nat) : Option Reg :=
  match offset / 4 with
  | 0 => some .id
  | 1 => some .version
  | 2 => some .cfg
  | 3 => some .irqen
  | 4 => some .status
  | 5 => some .cmd
  | 6 => some .opa
  | 7 => some .opb
  | 8 => some .res
  | 9 => some .addr0
  | 10 => some .addr1
  | 11 => some .len
  | _ => none

/-- A host read of a register (10_state.md R22 to R32). It never changes anything (20_memory.md R71), and gives the
current value while BUSY = 1 too (R40). CMD reads 0 (R28). -/
def State.readReg (s : State) : Reg → Word
  | .id => 0x47463245
  | .version => 0x00000001
  | .cfg => s.pset.setWidth 32
  | .irqen => (BitVec.ofBool s.doneie).setWidth 32
  | .status => statusWord s.busy s.status
  | .cmd => 0
  | .opa => s.opa
  | .opb => s.opb
  | .res => s.res
  | .addr0 => s.addr0
  | .addr1 => s.addr1
  | .len => s.len

/-- A write to an operand register or CFG: dropped with HAZ <- 1 while BUSY = 1 (10_state.md R40), else `t`. -/
def State.unlessBusy (s t : State) : State :=
  if s.busy then s.withStatus (statusHazard s.status) else t

/-- A host write of v to a register (10_state.md R22 to R32, R40). -/
def State.writeReg (s : State) (r : Reg) (v : Word) : State :=
  match r with
  | .id => s
  | .version => s
  | .cfg => s.unlessBusy (s.withPset (v.setWidth 3))
  | .irqen => s.withDoneie (v.getLsbD 0)
  | .status => s.withStatus (statusClear v s.status)
  | .cmd => if s.busy then s.withStatus (statusOverflow s.status) else s.launch v
  | .opa => s.unlessBusy (s.withOpa v)
  | .opb => s.unlessBusy (s.withOpb v)
  | .res => s
  | .addr0 => s.unlessBusy (s.withAddr0 v)
  | .addr1 => s.unlessBusy (s.withAddr1 v)
  | .len => s.unlessBusy (s.withLen v)

/-! ### Memory regions (20_memory.md R66), in unbounded integers -/

/-- `aligned(A, k)`. -/
def aligned (a k : Nat) : Bool := decide (a % k = 0)

/-- `inRange(A, S)`. -/
def inRange (a size : Nat) : Bool := decide (a + size ≤ lmemBytes)

/-- `overlap(A, S, B, T)`. -/
def overlap (a size b size' : Nat) : Bool :=
  decide (0 < size) && decide (0 < size') && decide (a < b + size') && decide (b < a + size)

/-! ### Element arrays (20_memory.md R67, R68) -/

/-- Cut n elements of `size` bytes, each an unsigned integer, off a list of bytes. -/
def toElems (size : Nat) : Nat → List Byte → List Nat
  | 0, _ => []
  | n + 1, bs => bytesToNat (bs.take size) :: toElems size n (bs.drop size)

/-- The n elements of `size` bytes at a, a + size, …, read in one pass. Element i is `MemRead(a + size * i, size)`
(`readElems_eq_map`). -/
def State.readElems (s : State) (a size n : Nat) : List Nat := toElems size n (readBytes s.fill s.lmem a (size * n))

/-- The bytes of an array of `size`-byte elements. -/
def elemBytes (size : Nat) (vs : List Nat) : List Byte := vs.flatMap (natToBytes size)

/-- `toSigned32(v)` (00_scope.md R9). -/
def toSigned32 (v : Nat) : Int := (BitVec.ofNat 32 v).toInt

/-- A value is a canonical field element (20_memory.md R68). -/
def canonical (F : FieldSpec) (v : Nat) : Bool := decide (v < 2 ^ F.m)

/-! ### The parameter set of a command (10_state.md R43) -/

/-- Run the rest of a command's rule with `row(LPSET)`, or end with ECFG before reading anything else. -/
def State.withParams (s : State) (k : ParamSet → CommandEnd) : CommandEnd :=
  match paramRow s.lpset with
  | none => .error .ecfg
  | some P => k P

/-! ### The aperture at its platform address (00_scope.md R8 BASE) -/

/-- The aperture offset a platform address falls on, if it lies in the aperture. Log 10. -/
def apertureOffset (addr : Nat) : Option Nat :=
  if apertureBase ≤ addr ∧ addr < apertureBase + apertureBytes then some (addr - apertureBase) else none

end Sys2Proof.Machine
end

