-- ==== Sys2Proof/Machine/HostPort.lean ====
section
/-! DEFINITION. The host port: what one host access does (spec/20_memory.md R60 to R65, R70, R71), and the host
assembly of spec/30_encoding.md R96, R97 as lists of events. -/

namespace Sys2Proof.Machine

/-- The three regions of the aperture (20_memory.md R60). -/
inductive Region where
  | registerPage
  | reserved
  | lmemWindow (lmemOffset : Nat)
  deriving DecidableEq, Repr

/-- The region an aperture offset lies in; none outside the aperture. -/
def regionOf (offset : Nat) : Option Region :=
  if offset < 0x1000 then some .registerPage
  else if offset < 0x400000 then some .reserved
  else if offset < apertureBytes then some (.lmemWindow (offset - 0x400000))
  else none

/-- An access the register page takes: 32 bits at a 4-byte-aligned offset; "any other width or alignment there is
refused" (20_memory.md R61). -/
def regAccessOk (offset : Nat) (w : Width) : Bool := decide (w = .w4) && aligned offset 4

/-- An access the reserved region and the LMEM window take: a width of 1, 2, 4 or 8 bytes at a naturally aligned offset
(20_memory.md R62, R63). DESIGN CHOICE: an access of another width is refused there like a misaligned one; R61 says so
for the register page only. Unsafe. Log 24. -/
def naturalAccess (offset : Nat) (w : Width) : Bool := w.standard && aligned offset w.bytes

/-- A refused access: no read, no write, no state change; the answer is BUSERR (20_memory.md R61). -/
def State.refuse (s : State) : State := s.withBus .busErr

/-- An LMEM access while BUSY = 1 (20_memory.md R65): HAZ <- 1, and the answer `r`. -/
def State.blocked (s : State) (r : BusResponse) : State := (s.withStatus (statusHazard s.status)).withBus r

/-- A host read (20_memory.md R61 to R65). -/
def State.hostRead (s : State) (offset : Nat) (w : Width) : Host.Outcome State Fault Refusal :=
  match regionOf offset with
  | none => .fault (.outsideAperture offset)
  | some .registerPage =>
    .next (if regAccessOk offset w then
      s.withBus (.data (match regAt offset with
        | some r => (s.readReg r).setWidth 64
        | none => 0))
      else s.refuse)
  | some .reserved => .next (if naturalAccess offset w then s.withBus (.data 0) else s.refuse)
  | some (.lmemWindow a) =>
    .next (if naturalAccess a w then
      (if s.busy then s.blocked (.data 0) else s.withBus (.data (BitVec.ofNat 64 (s.memRead a w.bytes))))
      else s.refuse)

/-- A host write of v (20_memory.md R61 to R65). -/
def State.hostWrite (s : State) (offset : Nat) (w : Width) (v : BusData) : Host.Outcome State Fault Refusal :=
  match regionOf offset with
  | none => .fault (.outsideAperture offset)
  | some .registerPage =>
    .next (if regAccessOk offset w then
      (match regAt offset with
        | some r => s.writeReg r (v.setWidth 32)
        | none => s).withBus .written
      else s.refuse)
  | some .reserved => .next (if naturalAccess offset w then s.withBus .written else s.refuse)
  | some (.lmemWindow a) =>
    .next (if naturalAccess a w then
      (if s.busy then s.blocked .written
        else (s.storeBytes a (natToBytes w.bytes v.toNat)).withBus .written)
      else s.refuse)

/-- One host access: one step, performed whole or not at all (10_state.md R20, 20_memory.md R70). -/
def State.hostAccess (s : State) : HostAccess → Host.Outcome State Fault Refusal
  | .read o w => s.hostRead o w
  | .write o w v => s.hostWrite o w v

/-! ### Host assembly (30_encoding.md R96, R97) -/

/-- `wr REG, imm32`. -/
def asmWr (r : Reg) (v : Word) : Event := .access (.write (regOffset r) .w4 (v.setWidth 64))

/-- `rd REG`. -/
def asmRd (r : Reg) : Event := .access (.read (regOffset r) .w4)

/-- `wr.lmN off, imm`. -/
def asmWrLm (w : Width) (off : Nat) (v : BusData) : Event := .access (.write (0x400000 + off) w v)

/-- `rd.lmN off`. -/
def asmRdLm (w : Width) (off : Nat) : Event := .access (.read (0x400000 + off) w)

/-- `cmd MNEMONIC`: the command word written to CMD. -/
def asmCmd (i : Instr) : Event := asmWr .cmd (encode i)

/-- `wait`, for a run in which STATUS is read k times before the completion and once after it. The host's `andi` and
`bne` are not accesses of the block. -/
def asmWait (k : Nat) : List Event := List.replicate k (asmRd .status) ++ [.sequencer, asmRd .status]

/-- `gf.OP a, b -> r` for a binary field command. -/
def asmField2 (i : Instr) (a b : Word) (k : Nat) : List Event :=
  [asmWr .opa a, asmWr .opb b, asmCmd i] ++ asmWait k ++ [asmRd .res]

/-- `gf.OP a -> r` for a unary field command. -/
def asmField1 (i : Instr) (a : Word) (k : Nat) : List Event := [asmWr .opa a, asmCmd i] ++ asmWait k ++ [asmRd .res]

/-- `clr`: clears DONE, OVF and HAZ. -/
def asmClr : Event := asmWr .status 0x32

end Sys2Proof.Machine
end

