-- ==== Sys2Proof/Machine/Benes.lean ====
section
/-! DEFINITION. The Benes applier BENES and the transpose TRANSPOSE64 (spec/43_benes.md R170 to R174). A bit vector is a
natural number whose bit k is the vector's bit k (spec/00_scope.md R13). -/

namespace Sys2Proof.Machine

open Sys2Proof.Config

/-- The gap of stage i (43_benes.md R170). -/
def benesGap (w i : Nat) : Nat := 2 ^ min i (2 * w - 2 - i)

/-- The lower wire of swap j of stage i (43_benes.md R170). -/
def benesLo (w i j : Nat) : Nat := j % benesGap w i + 2 * benesGap w i * (j / benesGap w i)

/-- The upper wire of swap j of stage i (43_benes.md R170). -/
def benesHi (w i j : Nat) : Nat := benesLo w i j + benesGap w i

/-- The number of the control bit of swap j of stage i (43_benes.md R171). -/
def benesControl (w i j : Nat) : Nat := i * (2 ^ w / 2) + j

/-- Swap bits p and q of a bit vector. -/
def swapBits (d p q : Nat) : Nat := if d.testBit p = d.testBit q then d else d ^^^ 2 ^ p ^^^ 2 ^ q

/-- Conditional swap j of stage i (43_benes.md R172). -/
def benesSwap (w ctrl i d j : Nat) : Nat :=
  if ctrl.testBit (benesControl w i j) then swapBits d (benesLo w i j) (benesHi w i j) else d

/-- Stage i: its 2^w/2 conditional swaps (43_benes.md R172). -/
def benesStage (w ctrl d i : Nat) : Nat := (List.range (2 ^ w / 2)).foldl (benesSwap w ctrl i) d

/-- The stages 0 to 2w-2 in increasing order (43_benes.md R172). -/
def benesApply (w ctrl d : Nat) : Nat := (List.range (2 * w - 1)).foldl (benesStage w ctrl) d

/-- The rule of BENES (43_benes.md R172): D = ADDR0, C = ADDR1. -/
def State.benesCommand (s : State) : CommandEnd :=
  s.withParams fun P =>
    let dataBytes := benesWires P / 8
    if aligned s.addr0.toNat 8 && aligned s.addr1.toNat 8 then
      if inRange s.addr0.toNat dataBytes && inRange s.addr1.toNat (controlBytes P) then
        if overlap s.addr0.toNat dataBytes s.addr1.toNat (controlBytes P) then .error .eoverlap
        else .store s.addr0.toNat (natToBytes dataBytes
          (benesApply P.field.m (s.memRead s.addr1.toNat (controlBytes P)) (s.memRead s.addr0.toNat dataBytes)))
      else .error .eaddr
    else .error .ealign

/-- BENES (43_benes.md R172). -/
def execBenes (s : State) : Host.Outcome State Fault Refusal :=
  .next (s.finish s.benesCommand)

/-- The sum over j of ((L[j] >> i) & 1) << j, the lanes from number j on (43_benes.md R174). -/
def transposeLane (i : Nat) : Nat → List Nat → Nat
  | _, [] => 0
  | j, lane :: lanes => (((lane >>> i) &&& 1) <<< j) ^^^ transposeLane i (j + 1) lanes

/-- The 64 output lanes of the transpose (43_benes.md R174). -/
def transpose64 (lanes : List Nat) : List Nat := (List.range 64).map (fun i => transposeLane i 0 lanes)

/-- The rule of TRANSPOSE64 (43_benes.md R174). -/
def State.transposeCommand (s : State) : CommandEnd :=
  if aligned s.addr0.toNat 8 then
    if inRange s.addr0.toNat 512 then
      .store s.addr0.toNat (elemBytes 8 (transpose64 (s.readElems s.addr0.toNat 8 64)))
    else .error .eaddr
  else .error .ealign

/-- TRANSPOSE64 (43_benes.md R174). -/
def execTranspose64 (s : State) : Host.Outcome State Fault Refusal :=
  .next (s.finish s.transposeCommand)

end Sys2Proof.Machine
end

