-- ==== Sys2Proof/Machine/Field.lean ====
section
/-! DEFINITION. Arithmetic over GF(2^m) (spec/40_field.md R111 to R113). A field element is an integer below 2^m whose
bit i is the coefficient of x^i (spec/00_scope.md R11), so the elements are natural numbers and the bit operations are
those of `Nat`. The field is an argument: its modulus is a configuration value (92_eei_decisions.md D43). -/

namespace Sys2Proof.Machine

open Sys2Proof.Config

/-- Field addition, exclusive-or (40_field.md R111). -/
def gfAdd (a b : Nat) : Nat := a ^^^ b

/-- The carry-less product of a and the m low bits of b (40_field.md R112). -/
def clmul (m a b : Nat) : Nat :=
  (List.range m).foldl (fun p i => if b.testBit i then p ^^^ (a <<< i) else p) 0

/-- Reduction by the modulus, for k from 2m-2 down to m (40_field.md R112). -/
def reduceField (F : FieldSpec) (p : Nat) : Nat :=
  ((List.range (F.m - 1)).reverse.map (fun j => F.m + j)).foldl
    (fun p k => if p.testBit k then p ^^^ (F.modulus <<< (k - F.m)) else p) p

/-- Field multiplication (40_field.md R112). -/
def gfMul (F : FieldSpec) (a b : Nat) : Nat := reduceField F (clmul F.m a b)

/-- The square (40_field.md R112). -/
def gfSq (F : FieldSpec) (a : Nat) : Nat := gfMul F a a

/-- The fourth power (40_field.md R112). -/
def gfSq4 (F : FieldSpec) (a : Nat) : Nat := gfSq F (gfSq F a)

/-- a^e for an exponent e below 2^m, by repeated gf_mul: one squaring for each of the m exponent bits, from the most
significant, and a multiplication by a where the bit is 1. -/
def gfPow (F : FieldSpec) (a e : Nat) : Nat :=
  (List.range F.m).reverse.foldl (fun acc i => if e.testBit i then gfMul F (gfSq F acc) a else gfSq F acc) 1

/-- Inversion, a^(2^m - 2) (40_field.md R113). Log 16. -/
def gfInv (F : FieldSpec) (a : Nat) : Nat := gfPow F a (2 ^ F.m - 2)

/-- Division (40_field.md R113). -/
def gfDiv (F : FieldSpec) (a b : Nat) : Nat := gfMul F a (gfInv F b)

end Sys2Proof.Machine
end

