-- ==== Sys2Proof/Machine/FieldCommands.lean ====
section
/-! DEFINITION. The field commands GF_ADD, GF_MUL, GF_SQ, GF_SQ4, GF_INV, GF_DIV (spec/40_field.md R114 to R120). -/

namespace Sys2Proof.Machine

open Sys2Proof.Config

/-- The template of a unary field command (40_field.md R114). OPB is not read. -/
def State.fieldUnary (s : State) (body : FieldSpec → Nat → Nat) : CommandEnd :=
  s.withParams fun P =>
    if canonical P.field s.opa.toNat then .result (BitVec.ofNat 32 (body P.field s.opa.toNat))
    else .error .edomain

/-- The template of a binary field command (40_field.md R114). -/
def State.fieldBinary (s : State) (body : FieldSpec → Nat → Nat → Nat) : CommandEnd :=
  s.withParams fun P =>
    if canonical P.field s.opa.toNat && canonical P.field s.opb.toNat then
      .result (BitVec.ofNat 32 (body P.field s.opa.toNat s.opb.toNat))
    else .error .edomain

/-- GF_ADD (40_field.md R115). -/
def execGfAdd (s : State) : Host.Outcome State Fault Refusal :=
  .next (s.finish (s.fieldBinary (fun _ => gfAdd)))

/-- GF_MUL (40_field.md R116). -/
def execGfMul (s : State) : Host.Outcome State Fault Refusal :=
  .next (s.finish (s.fieldBinary gfMul))

/-- GF_SQ (40_field.md R117). -/
def execGfSq (s : State) : Host.Outcome State Fault Refusal :=
  .next (s.finish (s.fieldUnary gfSq))

/-- GF_SQ4 (40_field.md R118). -/
def execGfSq4 (s : State) : Host.Outcome State Fault Refusal :=
  .next (s.finish (s.fieldUnary gfSq4))

/-- GF_INV (40_field.md R119). -/
def execGfInv (s : State) : Host.Outcome State Fault Refusal :=
  .next (s.finish (s.fieldUnary gfInv))

/-- GF_DIV (40_field.md R120). -/
def execGfDiv (s : State) : Host.Outcome State Fault Refusal :=
  .next (s.finish (s.fieldBinary gfDiv))

end Sys2Proof.Machine
end

