-- ==== Sys2Proof/Machine/Gauss.lean ====
section
/-! DEFINITION. The Gaussian-elimination engine GE_REDUCE and GE_EXTRACT (spec/44_gauss.md R190 to R194). A matrix row
is a natural number whose bit c is the entry of column c (spec/00_scope.md R13). -/

namespace Sys2Proof.Machine

open Sys2Proof.Config

/-- The pivot row r: a later row is added wherever its bit r differs from the pivot's (44_gauss.md R192). -/
def rowPivot (r row : Nat) (later : List Nat) : Nat :=
  later.foldl (fun p k => if p.testBit r != k.testBit r then p ^^^ k else p) row

/-- Clear bit r of a row with the pivot row (44_gauss.md R192). -/
def rowClear (r pivot k : Nat) : Nat := if k.testBit r then k ^^^ pivot else k

/-- Pivot step r over the rows; none if the pivot bit is 0 (44_gauss.md R192). -/
def rowStep (rows : List Nat) (r : Nat) : Option (List Nat) :=
  match rows.drop r with
  | [] => none
  | row :: later =>
    let p := rowPivot r row later
    if p.testBit r then some ((rows.take r).map (rowClear r p) ++ p :: later.map (rowClear r p)) else none

/-- The matrix L^(-1) · M of n rows, L its first n columns, or none where L is singular (44_gauss.md R191), by the
elimination of R192. Log 14. -/
def reduceMatrix (n : Nat) (rows : List Nat) : Option (List Nat) := (List.range n).foldlM rowStep rows

/-- The rule of GE_REDUCE (44_gauss.md R191, R193). -/
def State.geReduceCommand (s : State) : CommandEnd :=
  s.withParams fun P =>
    if aligned s.addr0.toNat 8 then
      if inRange s.addr0.toNat (nRows P * rowBytes P) then
        match reduceMatrix (nRows P) (s.readElems s.addr0.toNat (rowBytes P) (nRows P)) with
        | none => .failUnspecified s.addr0.toNat (nRows P * rowBytes P)
        | some rows => .store s.addr0.toNat (elemBytes (rowBytes P) rows)
      else .error .eaddr
    else .error .ealign

/-- GE_REDUCE (44_gauss.md R191). -/
def execGeReduce (s : State) : Host.Outcome State Fault Refusal :=
  .next (s.finish s.geReduceCommand)

/-- Public-key row of a matrix row: columns nR to N-1 from bit 0 on, zeros above (44_gauss.md R194). -/
def publicRow (P : ParamSet) (row : Nat) : Nat := (row % 2 ^ P.sysN) >>> nRows P

/-- The rule of GE_EXTRACT (44_gauss.md R194): A = ADDR0, K = ADDR1. -/
def State.geExtractCommand (s : State) : CommandEnd :=
  s.withParams fun P =>
    let matBytes := nRows P * rowBytes P
    let keyBytes := nRows P * pkRowBytes P
    if aligned s.addr0.toNat 8 && aligned s.addr1.toNat 8 then
      if inRange s.addr0.toNat matBytes && inRange s.addr1.toNat keyBytes then
        if overlap s.addr0.toNat matBytes s.addr1.toNat keyBytes then .error .eoverlap
        else .store s.addr1.toNat (elemBytes (pkRowBytes P)
          ((s.readElems s.addr0.toNat (rowBytes P) (nRows P)).map (publicRow P)))
      else .error .eaddr
    else .error .ealign

/-- GE_EXTRACT (44_gauss.md R194). -/
def execGeExtract (s : State) : Host.Outcome State Fault Refusal :=
  .next (s.finish s.geExtractCommand)

end Sys2Proof.Machine
end

