-- ==== Sys2Proof/Machine/Ring.lean ====
section
/-! DEFINITION. Arithmetic in K = GF(2^m)[y]/(F) and the elimination of MINPOLY (spec/42_minpoly.md R151 to R153). A
ring element is the list of its t coefficients, the constant term first (spec/00_scope.md R12). -/

namespace Sys2Proof.Machine

open Sys2Proof.Config

/-- Coefficient-wise addition. The longer list keeps its tail. -/
def polyAdd : List Nat → List Nat → List Nat
  | [], v => v
  | u, [] => u
  | a :: u, b :: v => gfAdd a b :: polyAdd u v

/-- The scalar product c · u. -/
def polyScale (Fd : FieldSpec) (c : Nat) (u : List Nat) : List Nat := u.map (gfMul Fd c)

/-- The product before reduction: p[i+j] collects gf_mul(u[i], v[j]) (42_minpoly.md R151). -/
def polyMul (Fd : FieldSpec) : List Nat → List Nat → List Nat
  | [], _ => []
  | a :: u, v => polyAdd (polyScale Fd a v) (0 :: polyMul Fd u v)

/-- Add gf_mul(p[i], c) to the coefficient i - t + e, for a low term (e, c) of F (42_minpoly.md R151). -/
def foldTerm (P : ParamSet) (i top : Nat) (q : List Nat) (term : Nat × Nat) : List Nat :=
  q.modify (i - P.sysT + term.1) (gfAdd (gfMul P.field top term.2))

/-- One step of the reduction by F: fold p[i] onto the low terms of F and clear it (42_minpoly.md R151). -/
def reduceTop (P : ParamSet) (p : List Nat) (i : Nat) : List Nat :=
  (P.ringLow.foldl (foldTerm P i (p.getD i 0)) p).set i 0

/-- The reduction by F, for i from 2t-2 down to t (42_minpoly.md R151). -/
def reducePoly (P : ParamSet) (p : List Nat) : List Nat :=
  (((List.range (P.sysT - 1)).reverse.map (fun j => P.sysT + j)).foldl (reduceTop P) p).take P.sysT

/-- `polymulmod(u, v)` (42_minpoly.md R151). -/
def polyMulMod (P : ParamSet) (u v : List Nat) : List Nat := reducePoly P (polyMul P.field u v)

/-- The unit vector (1, 0, ..., 0) of K. -/
def ringOne (P : ParamSet) : List Nat := 1 :: List.replicate (P.sysT - 1) 0

/-- `pow(f, k)` (42_minpoly.md R151). -/
def ringPow (P : ParamSet) (f : List Nat) : Nat → List Nat
  | 0 => ringOne P
  | k + 1 => polyMulMod P (ringPow P f k) f

/-- The rows pow(f, 0), ..., pow(f, n), each from the one before (42_minpoly.md R152, M). -/
def powersFrom (P : ParamSet) (f : List Nat) : List Nat → Nat → List (List Nat)
  | row, 0 => [row]
  | row, n + 1 => row :: powersFrom P f (polyMulMod P row f) n

/-- The (t+1) x t matrix M, row k = pow(f, k) (42_minpoly.md R152). -/
def generatorMatrix (P : ParamSet) (f : List Nat) : List (List Nat) := powersFrom P f (ringOne P) P.sysT

/-- The t columns of M, each with its t+1 entries: column j is (M[0][j], ..., M[t][j]). -/
def matrixColumns (P : ParamSet) (M : List (List Nat)) : List (List Nat) :=
  (List.range P.sysT).map (fun j => M.map (fun row => row.getD j 0))

/-- The pivot of column j: while its entry j is 0, the later columns are added to it (42_minpoly.md R153). -/
def columnPivot (j : Nat) (col : List Nat) (later : List (List Nat)) : List Nat :=
  later.foldl (fun p q => if p.getD j 0 = 0 then polyAdd p q else p) col

/-- Clear entry j of a column with the scaled pivot column (42_minpoly.md R153). -/
def columnClear (Fd : FieldSpec) (j : Nat) (pivot q : List Nat) : List Nat :=
  polyAdd q (polyScale Fd (q.getD j 0) pivot)

/-- Step j of the elimination over the columns; none if the pivot is zero (42_minpoly.md R153). -/
def columnStep (Fd : FieldSpec) (cols : List (List Nat)) (j : Nat) : Option (List (List Nat)) :=
  match cols.drop j with
  | [] => none
  | col :: later =>
    let p := columnPivot j col later
    if p.getD j 0 = 0 then none
    else
      let pivot := polyScale Fd (gfInv Fd (p.getD j 0)) p
      some ((cols.take j).map (columnClear Fd j pivot) ++ pivot :: later.map (columnClear Fd j pivot))

/-- The coefficients c of the minimal polynomial of f, or none where the rows pow(f, 0), ..., pow(f, t-1) are
dependent: row t after the elimination (42_minpoly.md R152, R153). Log 15. -/
def minimalPolynomial (P : ParamSet) (f : List Nat) : Option (List Nat) :=
  ((List.range P.sysT).foldlM (columnStep P.field) (matrixColumns P (generatorMatrix P f))).map
    (fun cols => cols.map (fun col => col.getD P.sysT 0))

end Sys2Proof.Machine
end

