-- ==== Sys2Proof/Machine/Minpoly.lean ====
section
/-! DEFINITION. The minimal-polynomial solver command MINPOLY (spec/42_minpoly.md R152). -/

namespace Sys2Proof.Machine

open Sys2Proof.Config

/-- The computation of MINPOLY on its input elements, written to b on success (42_minpoly.md R152). -/
def minpolyOn (P : ParamSet) (f : List Nat) (b : Nat) : CommandEnd :=
  if f.all (canonical P.field) then
    match minimalPolynomial P f with
    | none => .fail
    | some c => .store b (elemBytes 2 c)
  else .error .edomain

/-- The rule of MINPOLY (42_minpoly.md R152): checks in the order of 60_exceptions.md R223. -/
def State.minpolyCommand (s : State) : CommandEnd :=
  s.withParams fun P =>
    if aligned s.addr0.toNat 2 && aligned s.addr1.toNat 2 then
      if inRange s.addr0.toNat (2 * P.sysT) && inRange s.addr1.toNat (2 * P.sysT) then
        minpolyOn P (s.readElems s.addr0.toNat 2 P.sysT) s.addr1.toNat
      else .error .eaddr
    else .error .ealign

/-- MINPOLY (42_minpoly.md R152). -/
def execMinpoly (s : State) : Host.Outcome State Fault Refusal :=
  .next (s.finish s.minpolyCommand)

end Sys2Proof.Machine
end

