-- ==== Sys2Proof/Machine/Misc.lean ====
section
/-! DEFINITION. The housekeeping commands NOP and ZERO (spec/45_misc.md R210, R211). -/

namespace Sys2Proof.Machine

/-- NOP (45_misc.md R210): the completion flags and nothing else. -/
def execNop (s : State) : Host.Outcome State Fault Refusal :=
  .next (s.finish .normal)

/-- The rule of ZERO (45_misc.md R211): LEN bytes at ADDR0, no alignment requirement. -/
def State.zeroCommand (s : State) : CommandEnd :=
  if inRange s.addr0.toNat s.len.toNat then .store s.addr0.toNat (List.replicate s.len.toNat 0) else .error .eaddr

/-- ZERO (45_misc.md R211). -/
def execZero (s : State) : Host.Outcome State Fault Refusal :=
  .next (s.finish s.zeroCommand)

end Sys2Proof.Machine
end

