-- ==== Sys2Proof/Machine/Sort.lean ====
section
/-! DEFINITION. The sorter commands SORT32 and SORT64 (spec/41_sort.md R130 to R132). The result is the ascending
array, whatever network the hardware uses (R130, log 17). -/

namespace Sys2Proof.Machine

/-- The words of an array in ascending signed order (41_sort.md R131). -/
def sortSigned32 (vs : List Nat) : List Nat := vs.insertionSort (fun x y => toSigned32 x ≤ toSigned32 y)

/-- The words of an array in ascending unsigned order (41_sort.md R132). -/
def sortUnsigned (vs : List Nat) : List Nat := vs.insertionSort (fun x y => x ≤ y)

/-- The template of a sort command: LEN elements of `size` bytes at ADDR0, aligned to their size. -/
def State.sortCommand (s : State) (size : Nat) (sort : List Nat → List Nat) : CommandEnd :=
  if aligned s.addr0.toNat size then
    if inRange s.addr0.toNat (size * s.len.toNat) then
      .store s.addr0.toNat (elemBytes size (sort (s.readElems s.addr0.toNat size s.len.toNat)))
    else .error .eaddr
  else .error .ealign

/-- SORT32 (41_sort.md R131). -/
def execSort32 (s : State) : Host.Outcome State Fault Refusal :=
  .next (s.finish (s.sortCommand 4 sortSigned32))

/-- SORT64 (41_sort.md R132). -/
def execSort64 (s : State) : Host.Outcome State Fault Refusal :=
  .next (s.finish (s.sortCommand 8 sortUnsigned))

end Sys2Proof.Machine
end

