-- ==== Sys2Proof/Machine/Dispatch.lean ====
section
/-! DEFINITION. One arm per command: the completion step runs the command's rule (spec/60_exceptions.md R227). -/

namespace Sys2Proof.Machine

def exec (i : Instr) (s : State) : Host.Outcome State Fault Refusal :=
  match i with
  | .nop => Sys2Proof.Machine.execNop s
  | .gfAdd => Sys2Proof.Machine.execGfAdd s
  | .gfMul => Sys2Proof.Machine.execGfMul s
  | .gfSq => Sys2Proof.Machine.execGfSq s
  | .gfSq4 => Sys2Proof.Machine.execGfSq4 s
  | .gfInv => Sys2Proof.Machine.execGfInv s
  | .gfDiv => Sys2Proof.Machine.execGfDiv s
  | .sort32 => Sys2Proof.Machine.execSort32 s
  | .sort64 => Sys2Proof.Machine.execSort64 s
  | .minpoly => Sys2Proof.Machine.execMinpoly s
  | .benes => Sys2Proof.Machine.execBenes s
  | .transpose64 => Sys2Proof.Machine.execTranspose64 s
  | .geReduce => Sys2Proof.Machine.execGeReduce s
  | .geExtract => Sys2Proof.Machine.execGeExtract s
  | .zero => Sys2Proof.Machine.execZero s

end Sys2Proof.Machine
end

