-- ==== Sys2Proof/Machine/Sequencer.lean ====
section
/-! DEFINITION. The sequencer's turn (spec/10_state.md R20, spec/60_exceptions.md R227) and the placing of a command
word where the sequencer takes it. -/

namespace Sys2Proof.Machine

/-- The completion of a command word (60_exceptions.md R227): an ILLEGAL word ends with EILL (30_encoding.md R92). -/
def State.complete (s : State) (v : Word) : Host.Outcome State Fault Refusal :=
  match decode v with
  | .ok i => exec i s
  | .error _ => .next (s.finish (.error .eill))

/-- The sequencer "has a step only while BUSY = 1" (10_state.md R20); else its turn passes. -/
def State.sequencerTurn (s : State) : Host.Outcome State Fault Refusal :=
  match s.inflight with
  | some l => s.complete l.word
  | none => .next s

/-- The stream with the sequencer's turn next. An empty stream already means the sequencer's turn. -/
def turnFirst : List Event → List Event
  | [] => []
  | e :: es => .sequencer :: e :: es

/-- The state with a command word launched and the sequencer's turn next. Log 3. -/
def State.placeCommand (s : State) (v : Word) : State :=
  ((s.withInflight none).launch v).withAgenda (turnFirst s.agenda)

end Sys2Proof.Machine
end

