-- ==== Sys2Proof/Machine/Step.lean ====
section
/-! DEFINITION. One step of the machine: the next event of the received stream (spec/10_state.md R20,
spec/20_memory.md R72, spec/60_exceptions.md R233, spec/70_reset_and_hazards.md R252, R257). -/

namespace Sys2Proof.Machine

/-- One step. The head of the agenda says who moves. With the agenda empty the sequencer moves, so that a launched
command always completes (70_reset_and_hazards.md R257); an idle block with nothing received stays as it is. -/
def step (s : State) : Host.Outcome State Fault Refusal :=
  match s.agenda with
  | [] => s.sequencerTurn
  | .sequencer :: rest => (s.withAgenda rest).sequencerTurn
  | .access a :: rest => (s.withAgenda rest).hostAccess a
  | .rst :: rest => .next (s.withAgenda rest).resetInput

/-- The state in which the very next step runs the command whose word is w (of nbits bits): that word in flight, as
right after its launch (60_exceptions.md R226), and the sequencer's turn next. Log 3. -/
def State.withFetchWord (s : State) (nbits w : Nat) : State :=
  s.placeCommand (BitVec.ofNat 32 (w % 2 ^ nbits))

end Sys2Proof.Machine
end

