-- ==== Sys2Proof/Machine/BenesSliced.lean ====
section
/-! DEFINITION. The source's bit-sliced Benes procedure for w = 12 (spec/43_benes.md R173), over 64 lanes of 64 bits. It is
one realisation of `benesApply 12`, not what BENES calls: the model applies R172 directly (spec/93_implementation_defined.md
U8). -/

namespace Sys2Proof.Machine

/-- The lanes a whose bit s is 0, in increasing order (43_benes.md R173). -/
def layerLanes (s : Nat) : List Nat := (List.range 64).filter (fun a => !a.testBit s)

/-- The pair (a, a + 2^s) of lanes under the condition word cond[k] (43_benes.md R173). -/
def layerPair (cond : List Nat) (s : Nat) (X : List Nat) (ak : Nat × Nat) : List Nat :=
  let d := (X.getD ak.1 0 ^^^ X.getD (ak.1 + 2 ^ s) 0) &&& cond.getD ak.2 0
  (X.modify ak.1 (· ^^^ d)).modify (ak.1 + 2 ^ s) (· ^^^ d)

/-- `layer(X, cond, s)` (43_benes.md R173). -/
def slicedLayer (X cond : List Nat) (s : Nat) : List Nat := (layerLanes s).zipIdx.foldl (layerPair cond s) X

/-- c32: a stage's 256 control bytes as 64 words of 32 bits (43_benes.md R173). -/
def control32 (ctrl stage : Nat) : List Nat := (List.range 64).map (fun l => (ctrl >>> (2048 * stage + 32 * l)) % 2 ^ 32)

/-- c64: a stage's 256 control bytes as 32 words of 64 bits (43_benes.md R173). -/
def control64 (ctrl stage : Nat) : List Nat := (List.range 32).map (fun l => (ctrl >>> (2048 * stage + 64 * l)) % 2 ^ 64)

/-- A layer whose conditions are transposed: stages 0 to 5 and 17 to 22. -/
def outerLayer (ctrl : Nat) (X : List Nat) (stageShift : Nat × Nat) : List Nat :=
  slicedLayer X (transpose64 (control32 ctrl stageShift.1)) stageShift.2

/-- A layer of the mirrored pyramid: stages 6 to 16. -/
def innerLayer (ctrl : Nat) (X : List Nat) (stageShift : Nat × Nat) : List Nat :=
  slicedLayer X (control64 ctrl stageShift.1) stageShift.2

/-- The procedure: 6 layers, transpose, 11 layers, transpose, 6 layers, between two transposes (43_benes.md R173). -/
def benesSliced (ctrl : Nat) (lanes : List Nat) : List Nat :=
  let first := [(0, 0), (1, 1), (2, 2), (3, 3), (4, 4), (5, 5)].foldl (outerLayer ctrl) (transpose64 lanes)
  let middle := [(6, 0), (7, 1), (8, 2), (9, 3), (10, 4), (11, 5), (12, 4), (13, 3), (14, 2), (15, 1), (16, 0)].foldl
    (innerLayer ctrl) (transpose64 first)
  let last := [(17, 5), (18, 4), (19, 3), (20, 2), (21, 1), (22, 0)].foldl (outerLayer ctrl) (transpose64 middle)
  transpose64 last

end Sys2Proof.Machine
end

