-- ==== Sys2Proof/Safety.lean ====
section
/-! DEFINITION. What counts as a safe run, and the words the statements use: the invariant of the machine, how a
command ended, what it kept. -/

namespace Sys2Proof.Machine

/-- The invariants of STATUS (spec/10_state.md R26), and ERRCODE at most 6 (spec/60_exceptions.md R221). -/
def statusOk (busy : Bool) (t : Status) : Bool :=
  (t.err == decide (t.errcode ≠ 0)) && !(t.failed && t.err) && decide (t.errcode.toNat ≤ 6)
    && (!busy || (!t.done && !t.failed && !t.err && decide (t.errcode = 0)))

/-- The machine's invariant: LMEM in canonical form, STATUS consistent, RES a field element of the larger field. -/
def State.inv (s : State) : Bool :=
  Memory.wf s.lmem && statusOk s.busy s.status && decide (s.res.toNat < 2 ^ 13)

/-- Every access still to come lies in the aperture, so no step of the run faults. -/
def State.safeToRun (s : State) : Bool := s.agenda.all Event.insideAperture

/-- It is the sequencer's turn, and `rest` is what comes after it. -/
def State.sequencerMoves (s : State) (rest : List Event) : Prop :=
  (s.agenda = [] ∧ rest = []) ∨ s.agenda = Event.sequencer :: rest

/-- The command in flight in `s` ended, leaving `t`: BUSY = 0, DONE = 1, the outcome flags as given, OVF and HAZ kept
(spec/60_exceptions.md R224, R225, R227). -/
structure EndedAs (s t : State) (failed err : Bool) (code : BitVec 8) : Prop where
  busy : t.busy = false
  done : t.status.done = true
  failed : t.status.failed = failed
  err : t.status.err = err
  errcode : t.status.errcode = code
  ovf : t.status.ovf = s.status.ovf
  haz : t.status.haz = s.status.haz

/-- CFG, IRQEN, OPA, OPB, ADDR0, ADDR1 and LEN are as before, and so are the events still to come, the last bus answer
and the draw unwritten LMEM reads as. -/
structure OperandsKept (s t : State) : Prop where
  pset : t.pset = s.pset
  doneie : t.doneie = s.doneie
  opa : t.opa = s.opa
  opb : t.opb = s.opb
  addr0 : t.addr0 = s.addr0
  addr1 : t.addr1 = s.addr1
  len : t.len = s.len
  agenda : t.agenda = s.agenda
  bus : t.bus = s.bus
  lmemGen : t.lmemGen = s.lmemGen

/-- Every byte of LMEM reads as before. -/
def LmemKept (s t : State) : Prop := ∀ x, t.byteAt x = s.byteAt x

/-- Every byte of LMEM outside [a, a + n) reads as before. -/
def LmemKeptOutside (s t : State) (a n : Nat) : Prop := ∀ x, x < a ∨ a + n ≤ x → t.byteAt x = s.byteAt x

/-- Nothing but STATUS and the command in flight differs. -/
structure OnlyStatusChanged (s t : State) : Prop extends OperandsKept s t where
  res : t.res = s.res
  lmem : t.lmem = s.lmem
  draws : t.draws = s.draws

end Sys2Proof.Machine
end

