-- ==== Sys2Proof/Certificates/Slice0/Vocabulary.lean ====
section
/-! DEFINITION. The words of the statements: the checks of spec/60_exceptions.md R222, R223 as one table, GF(2)
polynomials and matrices of Mathlib, ring combinations, the wire a Benes network takes a bit from. -/

namespace Sys2Proof.Spec

open Sys2Proof.Machine
open Sys2Proof.Config

/-! ### Completion -/

/-- A command ended normally, with every operand register, RES and LMEM outside [a, a + n) kept. -/
structure StoredOnly (s t : State) (a n : Nat) : Prop where
  ended : EndedAs s t false false 0
  operands : OperandsKept s t
  res : t.res = s.res
  outside : LmemKeptOutside s t a n

/-- A field command ended normally with value v in RES, and nothing else but STATUS changed (40_field.md R114). -/
structure FieldDone (s t : State) (v : Nat) : Prop where
  ended : EndedAs s t false false 0
  operands : OperandsKept s t
  lmem : t.lmem = s.lmem
  res : t.res.toNat = v

/-! ### The checks (60_exceptions.md R222, R223) -/

/-- The commands with an entry in the column ECFG (60_exceptions.md R222). -/
def usesPset : Instr → Bool
  | .nop | .sort32 | .sort64 | .transpose64 | .zero => false
  | _ => true

/-- The memory operands of a command: base, size in bytes, alignment (the rule of each command). -/
def regions (i : Instr) (P : ParamSet) (s : State) : List (Nat × Nat × Nat) :=
  match i with
  | .sort32 => [(s.addr0.toNat, 4 * s.len.toNat, 4)]
  | .sort64 => [(s.addr0.toNat, 8 * s.len.toNat, 8)]
  | .minpoly => [(s.addr0.toNat, 2 * P.sysT, 2), (s.addr1.toNat, 2 * P.sysT, 2)]
  | .benes => [(s.addr0.toNat, 2 ^ P.field.m / 8, 8),
      (s.addr1.toNat, (2 * P.field.m - 1) * 2 ^ P.field.m / 16, 8)]
  | .transpose64 => [(s.addr0.toNat, 512, 8)]
  | .geReduce => [(s.addr0.toNat, P.sysT * P.field.m * (P.sysN / 8), 8)]
  | .geExtract => [(s.addr0.toNat, P.sysT * P.field.m * (P.sysN / 8), 8),
      (s.addr1.toNat, P.sysT * P.field.m * ((P.sysN - P.sysT * P.field.m + 7) / 8), 8)]
  | .zero => [(s.addr0.toNat, s.len.toNat, 1)]
  | _ => []

/-- Two of the regions share a byte (20_memory.md R66); asked of BENES and GE_EXTRACT only. -/
def regionsMeet : List (Nat × Nat × Nat) → Bool
  | [(a, n, _), (b, k, _)] => decide (0 < n ∧ 0 < k ∧ a < b + k ∧ b < a + n)
  | _ => false

/-- A field operand is not below 2^m (60_exceptions.md R222, column EDOMAIN). -/
def domainError (i : Instr) (P : ParamSet) (s : State) : Bool :=
  match i with
  | .gfAdd | .gfMul | .gfDiv => decide (2 ^ P.field.m ≤ s.opa.toNat ∨ 2 ^ P.field.m ≤ s.opb.toNat)
  | .gfSq | .gfSq4 | .gfInv => decide (2 ^ P.field.m ≤ s.opa.toNat)
  | .minpoly => (List.range P.sysT).any (fun k => decide (2 ^ P.field.m ≤ s.memRead (s.addr0.toNat + 2 * k) 2))
  | _ => false

/-- The checks after ECFG, in the fixed order EALIGN, EADDR, EOVERLAP, EDOMAIN (60_exceptions.md R223). -/
def firstErrorWith (i : Instr) (P : ParamSet) (s : State) : Option (BitVec 8) :=
  if (regions i P s).any (fun r => decide (r.1 % r.2.2 ≠ 0)) then some 3
  else if (regions i P s).any (fun r => decide (0x400000 < r.1 + r.2.1)) then some 4
  else if (i = .benes ∨ i = .geExtract) ∧ regionsMeet (regions i P s) = true then some 5
  else if domainError i P s then some 6
  else none

/-- The error code a command reports, if any (60_exceptions.md R221 to R223). A command that uses no parameter set has
the same regions for every P. -/
def firstError (i : Instr) (s : State) : Option (BitVec 8) :=
  match usesPset i, paramRow s.lpset with
  | true, none => some 2
  | true, some P => firstErrorWith i P s
  | false, _ => firstErrorWith i params348864 s

/-! ### GF(2^m) as polynomials over GF(2) (00_scope.md R11) -/

/-- The polynomial over GF(2) whose coefficient of x^i is bit i. -/
noncomputable def toPoly (v : Nat) : Polynomial (ZMod 2) :=
  ∑ i ∈ Finset.range 32, if v.testBit i then Polynomial.X ^ i else 0

/-- a^n by n multiplications (40_field.md R113, "computed by repeated gf_mul"). -/
def power (F : FieldSpec) (a n : Nat) : Nat := (fun x => gfMul F x a)^[n] 1

/-! ### The ring K (42_minpoly.md R151, R152) -/

/-- Coefficient j of the sum of d[k] · row k. -/
def combination (F : FieldSpec) (d : List Nat) (rows : List (List Nat)) (j : Nat) : Nat :=
  (List.zipWith (fun c row => gfMul F c (row.getD j 0)) d rows).foldr (fun x y => x ^^^ y) 0

/-- The rows pow(f, 0), ..., pow(f, t-1). -/
def powers (P : ParamSet) (f : List Nat) : List (List Nat) := (List.range P.sysT).map (ringPow P f)

/-- A list of t canonical field elements. -/
def isVector (P : ParamSet) (d : List Nat) : Prop := d.length = P.sysT ∧ ∀ x ∈ d, x < 2 ^ P.field.m

/-- A_t is singular: its rows pow(f, 0), ..., pow(f, t-1) are dependent over GF(2^m). -/
def singular (P : ParamSet) (f : List Nat) : Prop :=
  ∃ d, isVector P d ∧ (∃ x ∈ d, x ≠ 0) ∧ ∀ j < P.sysT, combination P.field d (powers P f) j = 0

/-- c solves M[t] = the sum of c[k] · M[k] (42_minpoly.md R152, R155). -/
def solves (P : ParamSet) (f c : List Nat) : Prop :=
  isVector P c ∧ ∀ j < P.sysT, combination P.field c (powers P f) j = (ringPow P f P.sysT).getD j 0

/-- GF(2^m) as Mathlib's quotient of the polynomials over GF(2) by the modulus (40_field.md R110). -/
noncomputable abbrev QuotientField (F : FieldSpec) : Type := AdjoinRoot (toPoly F.modulus)

/-- The element of GF(2^m) that an integer stands for (00_scope.md R11). -/
noncomputable def toField (F : FieldSpec) (a : Nat) : QuotientField F := AdjoinRoot.mk (toPoly F.modulus) (toPoly a)

/-- The polynomial over GF(2^m) with these coefficients, the constant term first (00_scope.md R12). -/
noncomputable def toRingPoly (F : FieldSpec) : List Nat → Polynomial (QuotientField F)
  | [] => 0
  | a :: u => Polynomial.C (toField F a) + Polynomial.X * toRingPoly F u

/-- F(y): y^t plus its low terms (42_minpoly.md R150). -/
noncomputable def definingPoly (P : ParamSet) : Polynomial (QuotientField P.field) :=
  Polynomial.X ^ P.sysT +
    (P.ringLow.map fun term => Polynomial.C (toField P.field term.2) * Polynomial.X ^ term.1).sum

/-! ### The Benes network (43_benes.md R170 to R172) -/

/-- The wire stage i takes the bit at p from: p's partner in its swap where the control bit is 1, else p. -/
def wireBefore (w : Nat) (ctl : Nat → Bool) (i p : Nat) : Nat :=
  let g := 2 ^ min i (2 * w - 2 - i)
  let lo := if p / g % 2 = 0 then p else p - g
  let j := lo % g + g * (lo / (2 * g))
  if ctl (i * 2 ^ (w - 1) + j) then (if p / g % 2 = 0 then p + g else p - g) else p

/-- The wire the whole network takes the bit at p from. -/
def networkSource (w : Nat) (ctl : Nat → Bool) (p : Nat) : Nat := (List.range (2 * w - 1)).foldr (wireBefore w ctl) p

/-! ### GF(2) matrices in LMEM (44_gauss.md R190) -/

/-- Entry (r, c) of the matrix at A. -/
def entry (P : ParamSet) (s : State) (A r c : Nat) : ZMod 2 := if s.memBit (A + r * rowBytes P) c then 1 else 0

/-- The left block L. -/
def leftBlock (P : ParamSet) (s : State) (A : Nat) : Matrix (Fin (nRows P)) (Fin (nRows P)) (ZMod 2) :=
  Matrix.of fun r c => entry P s A r c

/-- The whole matrix M. -/
def wholeMatrix (P : ParamSet) (s : State) (A : Nat) : Matrix (Fin (nRows P)) (Fin P.sysN) (ZMod 2) :=
  Matrix.of fun r c => entry P s A r c

end Sys2Proof.Spec
end

