-- ==== Sys2Proof/Certificates/Slice0/Obligations.lean ====
section
/-! DEFINITION. The statements for the provers. Each docstring names the rules of spec/ it formalises. -/

open Sys2Proof
open Sys2Proof.Machine
open Sys2Proof.Config
open Sys2Proof.Spec

/-! ### Encoding -/

/-- Words written out from the opcode map (30_encoding.md R91, R92, R94). -/
def Obligations.DecodeReadsSpecWords : Prop :=
  decode 0x00000000#32 = .ok .nop ∧ decode 0x00000001#32 = .ok .gfAdd ∧ decode 0x00000006#32 = .ok .gfDiv ∧
  decode 0x00000010#32 = .ok .sort32 ∧ decode 0x00000011#32 = .ok .sort64 ∧ decode 0x00000020#32 = .ok .minpoly ∧
  decode 0x00000031#32 = .ok .transpose64 ∧ decode 0x00000041#32 = .ok .geExtract ∧ decode 0x00000050#32 = .ok .zero ∧
  decode 0x00000100#32 = .error .reservedBitsSet ∧ decode 0x00000007#32 = .error .opcodeNotAssigned ∧
  decode 0x000000FF#32 = .error .opcodeNotAssigned

/-- The word of every command decodes to it (30_encoding.md R90 to R92). -/
def Obligations.EncodeThenDecodeGivesCommand : Prop := ∀ i : Instr, decode (encode i) = .ok i

/-- Over all 2^32 words: a word decodes to a command exactly when it is that command's word, and it decodes to some
command exactly when it is legal (30_encoding.md R91, R92, R95). -/
def Obligations.DecodeAcceptsExactlyLegalWords : Prop :=
  (∀ (v : Word) (i : Instr), decode v = .ok i ↔ v = encode i) ∧
  ∀ v : Word, (∃ i, decode v = .ok i) ↔ commandWordLegal v = true

/-! ### The step -/

/-- On the sequencer's turn, a command in flight whose word decodes to i runs as exec of i, after the turn is taken off
the agenda (60_exceptions.md R227). -/
def Obligations.StepRunsDecodedCommand : Prop :=
  ∀ (s : State) (l : InFlight) (i : Instr) (rest : List Event),
    s.inflight = some l → decode l.word = .ok i → i.wellFormed = true → s.sequencerMoves rest →
    step s = exec i (s.withAgenda rest)

/-- An ILLEGAL word completes with EILL and no other effect (30_encoding.md R92, R94; 60_exceptions.md R224). -/
def Obligations.IllegalWordEndsWithEill : Prop :=
  ∀ (s : State) (l : InFlight) (rest : List Event),
    s.inflight = some l → commandWordLegal l.word = false → s.sequencerMoves rest →
    ∃ t, step s = .next t ∧ EndedAs s t false true 1 ∧ OnlyStatusChanged (s.withAgenda rest) t

/-- The sequencer has a step only while BUSY = 1: else its turn passes (10_state.md R20, 70_reset_and_hazards.md R253). -/
def Obligations.IdleSequencerTurnPasses : Prop :=
  ∀ (s : State) (rest : List Event), s.busy = false → s.sequencerMoves rest → step s = .next (s.withAgenda rest)

/-- The step faults exactly on an access outside the aperture (20_memory.md R60; the fault is the model's, log 8), and
nothing is ever refused. -/
def Obligations.FaultsOnlyOutsideAperture : Prop :=
  (∀ (s : State) (f : Fault), step s = .fault f ↔
    ∃ a rest, s.agenda = .access a :: rest ∧ 0x800000 ≤ a.offset ∧ f = .outsideAperture a.offset) ∧
  ∀ (s : State) (r : Refusal), step s ≠ .refused r

/-- A launched command always completes (70_reset_and_hazards.md R257): whatever accesses of the aperture are still to
come, if no reset is among them the command is still in flight when the sequencer's turn comes, and that step
completes it. That an empty agenda gives the sequencer its turn is the model's choice (log 2). -/
def Obligations.LaunchedCommandAlwaysCompletes : Prop :=
  ∀ (s : State) (l : InFlight), s.inflight = some l → s.safeToRun = true → Event.rst ∉ s.agenda →
    ∃ k t u rest, k ≤ s.agenda.length ∧ Host.Core.run core k s = .next t ∧ t.inflight = some l ∧
      t.sequencerMoves rest ∧ step t = .next u ∧ u.busy = false ∧ u.status.done = true

/-- The invariant holds at reset (10_state.md R41). -/
def Obligations.ResetMeetsInvariant : Prop := State.reset.inv = true

/-- Every step keeps the invariant: LMEM in canonical form inside LMEM_BYTES, STATUS consistent (10_state.md R26), ERRCODE
at most 6 (60_exceptions.md R221), RES below 2^13. -/
def Obligations.StepKeepsInvariant : Prop :=
  ∀ s t : State, s.inv = true → step s = .next t → t.inv = true

/-! ### What may change a piece of state, over all steps -/

/-- OVF and HAZ are sticky (10_state.md R26, 60_exceptions.md R229): only a STATUS write with their bit set, or a reset,
clears them. -/
def Obligations.StickyFlagsClearOnlyByHostOrReset : Prop :=
  ∀ s t : State, step s = .next t →
    (s.status.ovf = true → t.status.ovf = false →
      (∃ v rest, s.agenda = .access (.write 0x010 .w4 v) :: rest ∧ v.getLsbD 4 = true) ∨
      ∃ rest, s.agenda = .rst :: rest) ∧
    (s.status.haz = true → t.status.haz = false →
      (∃ v rest, s.agenda = .access (.write 0x010 .w4 v) :: rest ∧ v.getLsbD 5 = true) ∨
      ∃ rest, s.agenda = .rst :: rest)

/-- "Only the completion of a field command writes" RES (10_state.md R30), besides a reset. -/
def Obligations.ResChangesOnlyByFieldCompletion : Prop :=
  ∀ s t : State, step s = .next t → t.res ≠ s.res →
    (∃ rest, s.agenda = .rst :: rest) ∨
    ∃ l i rest, s.inflight = some l ∧ s.sequencerMoves rest ∧ decode l.word = .ok i ∧
      i ∈ [Instr.gfAdd, .gfMul, .gfSq, .gfSq4, .gfInv, .gfDiv] ∧ t.status.err = false

/-- "Nothing but a host write or a command completion changes a byte of LMEM" (10_state.md R37), besides a reset, and a
host write does so only while BUSY = 0 (20_memory.md R65). That a write of a width other than 1, 2, 4 or 8 bytes changes
no byte is the model's choice (log 24). -/
def Obligations.LmemChangesOnlyByIdleWriteOrCompletion : Prop :=
  ∀ (s t : State) (x : Nat), step s = .next t → t.byteAt x ≠ s.byteAt x →
    (∃ rest, s.agenda = .rst :: rest) ∨
    (∃ rest, s.busy = true ∧ s.sequencerMoves rest) ∨
    ∃ a w v rest, s.agenda = .access (.write (0x400000 + a) w v) :: rest ∧ s.busy = false ∧
      w.standard = true ∧ a % w.bytes = 0 ∧ a ≤ x ∧ x < a + w.bytes ∧ x < 0x400000

/-- OPA, OPB, ADDR0, ADDR1, LEN and CFG change only by a host write to them while BUSY = 0, or a reset (10_state.md R29,
R31, R32, R24, R40). -/
def Obligations.OperandRegistersChangeOnlyByIdleWrite : Prop :=
  ∀ (s t : State) (r : Reg), r ∈ [Reg.cfg, .opa, .opb, .addr0, .addr1, .len] → step s = .next t →
    t.readReg r ≠ s.readReg r →
    (∃ rest, s.agenda = .rst :: rest) ∨
    ∃ v rest, s.agenda = .access (.write (regOffset r) .w4 v) :: rest ∧ s.busy = false

/-! ### The host port -/

/-- The register map (10_state.md R21, R33): the twelve offsets, and no register from 0x030 up. -/
def Obligations.RegisterMapIsAsSpecified : Prop :=
  [Reg.id, .version, .cfg, .irqen, .status, .cmd, .opa, .opb, .res, .addr0, .addr1, .len].map regOffset =
    [0x000, 0x004, 0x008, 0x00C, 0x010, 0x014, 0x018, 0x01C, 0x020, 0x024, 0x028, 0x02C] ∧
  (∀ r : Reg, regAt (regOffset r) = some r) ∧ ∀ o : Nat, regAt o = none ↔ 0x030 ≤ o

/-- A register read gives the register's current value, busy or not, and changes nothing; ID and VERSION are constants,
CMD reads 0 (10_state.md R22, R23, R28, R40; 20_memory.md R71). -/
def Obligations.RegisterReadsGiveCurrentValues : Prop :=
  ∀ (s : State) (r : Reg) (rest : List Event), s.agenda = asmRd r :: rest →
    step s = .next ((s.withAgenda rest).withBus (.data ((s.readReg r).setWidth 64))) ∧
    s.readReg .id = 0x47463245#32 ∧ s.readReg .version = 0x00000001#32 ∧ s.readReg .cmd = 0 ∧
    (s.readReg .cfg).toNat = s.pset.toNat ∧ (s.readReg .irqen).toNat = s.doneie.toNat ∧
    s.readReg .opa = s.opa ∧ s.readReg .opb = s.opb ∧ s.readReg .res = s.res ∧
    s.readReg .addr0 = s.addr0 ∧ s.readReg .addr1 = s.addr1 ∧ s.readReg .len = s.len

/-- The fields of the STATUS word, and its reserved bits read 0 (10_state.md R26). -/
def Obligations.StatusWordHasTheSpecifiedFields : Prop :=
  ∀ (s : State) (k : Nat), (s.readReg .status).getLsbD k =
    if k = 0 then s.busy else if k = 1 then s.status.done else if k = 2 then s.status.failed
    else if k = 3 then s.status.err else if k = 4 then s.status.ovf else if k = 5 then s.status.haz
    else if 8 ≤ k ∧ k < 16 then s.status.errcode.getLsbD (k - 8) else false

/-- A write of v to STATUS clears DONE, OVF and HAZ where v has a 1, busy or not, and changes no other bit of STATUS and
nothing else (10_state.md R27). -/
def Obligations.StatusWriteClearsOnes : Prop :=
  ∀ (s : State) (v : Word) (rest : List Event), s.agenda = asmWr .status v :: rest →
    ∃ t, step s = .next t ∧ t.readReg .status = s.readReg .status &&& ~~~(v &&& 0x32#32) ∧
      t = ((s.withAgenda rest).withBus .written).withStatus t.status

/-- A write to IRQEN takes effect whether or not BUSY = 1; bits [31:1] are ignored (10_state.md R25, R40). -/
def Obligations.IrqenWriteAlwaysTakesEffect : Prop :=
  ∀ (s : State) (v : Word) (rest : List Event), s.agenda = asmWr .irqen v :: rest →
    step s = .next (((s.withAgenda rest).withDoneie (v.getLsbD 0)).withBus .written)

/-- While BUSY = 0 a write to CFG stores v[2:0], and a write to OPA, OPB, ADDR0, ADDR1 or LEN stores all 32 bits; nothing
else changes (10_state.md R24, R29, R31, R32). -/
def Obligations.IdleOperandWriteStoresValue : Prop :=
  ∀ (s : State) (r : Reg) (v : Word) (rest : List Event),
    s.busy = false → r ∈ [Reg.cfg, .opa, .opb, .addr0, .addr1, .len] → s.agenda = asmWr r v :: rest →
    ∃ t, step s = .next t ∧ t.readReg r = (if r = .cfg then v &&& 7#32 else v) ∧
      (∀ r', r' ≠ r → t.readReg r' = s.readReg r') ∧ t.status = s.status ∧ t.inflight = s.inflight ∧
      t.lmem = s.lmem ∧ t.lmemGen = s.lmemGen ∧ t.agenda = rest ∧ t.bus = .written

/-- While BUSY = 1 a write to CFG, OPA, OPB, ADDR0, ADDR1 or LEN is dropped and sets HAZ (10_state.md R40). That
the dropped write is answered as written is the model's choice (log 23). -/
def Obligations.BusyOperandWriteIsDropped : Prop :=
  ∀ (s : State) (r : Reg) (v : Word) (rest : List Event),
    s.busy = true → r ∈ [Reg.cfg, .opa, .opb, .addr0, .addr1, .len] → s.agenda = asmWr r v :: rest →
    step s = .next (((s.withAgenda rest).withBus .written).withStatus { s.status with haz := true })

/-- Writes to ID, VERSION, RES and the reserved offsets are ignored, and never set HAZ (10_state.md R22, R23, R30, R33,
R40); a read of a reserved offset gives 0. That an ignored write is answered as written is the model's choice (log 23). -/
def Obligations.ReadOnlyAndReservedOffsetsIgnoreWrites : Prop :=
  ∀ (s : State) (o : Nat) (v : BusData) (rest : List Event),
    o % 4 = 0 → o < 0x1000 →
    (o ∈ [0x000, 0x004, 0x020] ∨ 0x030 ≤ o → s.agenda = .access (.write o .w4 v) :: rest →
      step s = .next ((s.withAgenda rest).withBus .written)) ∧
    (0x030 ≤ o → s.agenda = .access (.read o .w4) :: rest → step s = .next ((s.withAgenda rest).withBus (.data 0)))

/-- Launch (60_exceptions.md R226): a CMD write while BUSY = 0 latches the word and PSET, sets BUSY, clears DONE, FAIL, ERR
and ERRCODE, keeps OVF and HAZ, and writes nothing else. -/
def Obligations.LaunchLatchesCommandAndPset : Prop :=
  ∀ (s : State) (v : Word) (rest : List Event), s.busy = false → s.agenda = asmWr .cmd v :: rest →
    ∃ t, step s = .next t ∧ t.inflight = some { word := v, pset := s.pset } ∧ t.busy = true ∧
      t.status = { s.status with done := false, failed := false, err := false, errcode := 0 } ∧
      t = (((s.withAgenda rest).withBus .written).withInflight t.inflight).withStatus t.status

/-- A CMD write while BUSY = 1 is dropped: the command in flight is not affected, and OVF is set (60_exceptions.md R229).
That the dropped write is answered as written is the model's choice (log 23). -/
def Obligations.BusyCommandWriteIsDropped : Prop :=
  ∀ (s : State) (v : Word) (rest : List Event), s.busy = true → s.agenda = asmWr .cmd v :: rest →
    step s = .next (((s.withAgenda rest).withBus .written).withStatus { s.status with ovf := true })

/-- A register-page access of any width that is not a 32-bit access at a 4-byte-aligned offset is refused: no state
changes, the answer is BUSERR (20_memory.md R61). -/
def Obligations.RegisterPageRefusesOtherAccesses : Prop :=
  ∀ (s : State) (a : HostAccess) (rest : List Event), s.agenda = .access a :: rest → a.offset < 0x1000 →
    ¬ (a.width = .w4 ∧ a.offset % 4 = 0) → step s = .next ((s.withAgenda rest).withBus .busErr)

/-- The reserved region, accessed with 1, 2, 4 or 8 bytes, reads 0 and ignores writes at naturally aligned offsets, and
refuses a misaligned access
(20_memory.md R62). That an ignored write is answered as written is the model's choice (log 23). -/
def Obligations.ReservedRegionReadsZero : Prop :=
  ∀ (s : State) (a : HostAccess) (rest : List Event), s.agenda = .access a :: rest →
    a.width.standard = true → 0x1000 ≤ a.offset → a.offset < 0x400000 →
    step s = .next ((s.withAgenda rest).withBus
      (if a.offset % a.width.bytes = 0 then (match a with | .read _ _ => .data 0 | .write _ _ _ => .written) else .busErr))

/-- A naturally aligned LMEM read of 1, 2, 4 or 8 bytes while BUSY = 0 gives the bytes at a, a+1, ... little-endian,
zero-extended, and changes nothing (20_memory.md R63, R64, R71). -/
def Obligations.IdleLmemReadIsLittleEndian : Prop :=
  ∀ (s : State) (a : Nat) (w : Width) (rest : List Event),
    s.busy = false → w.standard = true → a % w.bytes = 0 → a < 0x400000 → s.agenda = asmRdLm w a :: rest →
    ∃ v : BusData, step s = .next ((s.withAgenda rest).withBus (.data v)) ∧ v.toNat < 256 ^ w.bytes ∧
      ∀ k < w.bytes, v.toNat / 256 ^ k % 256 = (s.byteAt (a + k)).toNat

/-- A naturally aligned LMEM write of 1, 2, 4 or 8 bytes while BUSY = 0 stores the bytes of v little-endian at a, a+1, ...,
and changes no other byte and nothing else (20_memory.md R63, R64). -/
def Obligations.IdleLmemWriteStoresLittleEndian : Prop :=
  ∀ (s : State) (a : Nat) (w : Width) (v : BusData) (rest : List Event),
    s.busy = false → w.standard = true → a % w.bytes = 0 → a < 0x400000 → s.agenda = asmWrLm w a v :: rest →
    ∃ t, step s = .next t ∧ (∀ k < w.bytes, (t.byteAt (a + k)).toNat = v.toNat / 256 ^ k % 256) ∧
      LmemKeptOutside s t a w.bytes ∧ t = ((s.withAgenda rest).withBus .written).withLmem t.lmem

/-- A misaligned LMEM access of 1, 2, 4 or 8 bytes is refused, busy or not: no byte changes, HAZ is not set (20_memory.md
R63, R65). -/
def Obligations.MisalignedLmemAccessIsRefused : Prop :=
  ∀ (s : State) (a : HostAccess) (rest : List Event), s.agenda = .access a :: rest →
    a.width.standard = true → 0x400000 ≤ a.offset → a.offset < 0x800000 → (a.offset - 0x400000) % a.width.bytes ≠ 0 →
    step s = .next ((s.withAgenda rest).withBus .busErr)

/-- While BUSY = 1 an aligned LMEM access of 1, 2, 4 or 8 bytes is blocked: a read returns 0, a write changes no byte,
either sets HAZ (20_memory.md R65). That a blocked write is answered as written is the model's choice (log 23). -/
def Obligations.BusyLmemAccessIsBlocked : Prop :=
  ∀ (s : State) (a : HostAccess) (rest : List Event), s.busy = true → s.agenda = .access a :: rest →
    a.width.standard = true → 0x400000 ≤ a.offset → a.offset < 0x800000 → (a.offset - 0x400000) % a.width.bytes = 0 →
    step s = .next (((s.withAgenda rest).withStatus { s.status with haz := true }).withBus
      (match a with | .read _ _ => .data 0 | .write _ _ _ => .written))

/-- While BUSY = 1 no host access can observe LMEM (20_memory.md R65): two states that differ in LMEM only answer every
access alike and still differ in LMEM only. -/
def Obligations.BusyHostCannotObserveLmem : Prop :=
  ∀ (s t : State) (m : Memory) (a : HostAccess) (rest : List Event),
    s.busy = true → s.agenda = .access a :: rest → step s = .next t →
    t.lmem = s.lmem ∧ step (s.withLmem m) = .next (t.withLmem m)

/-- The reset input puts every register at its reset value, abandons the command in flight without a completion, and
leaves LMEM unwritten, each byte a fresh arbitrary value (10_state.md R41; 70_reset_and_hazards.md R250, R251; logs 4
and 7). -/
def Obligations.ResetInputRestoresResetState : Prop :=
  ∀ (s : State) (rest : List Event), s.agenda = .rst :: rest →
    ∃ t, step s = .next t ∧ t.busy = false ∧ t.irq = false ∧ t.status.done = false ∧
      (∀ r : Reg, t.readReg r = State.reset.readReg r) ∧ t.lmem = [] ∧ t.lmemGen = s.lmemGen + 1 ∧ t.agenda = rest

/-- What a host reads right after reset, and that no command is in flight (10_state.md R41, 70_reset_and_hazards.md
R253). -/
def Obligations.ResetStateReadsAsSpecified : Prop :=
  [Reg.id, .version, .cfg, .irqen, .status, .opa, .opb, .res, .addr0, .addr1, .len].map State.reset.readReg =
    [0x47463245#32, 0x00000001#32, 0, 0, 0, 0, 0, 0, 0, 0, 0] ∧
  State.reset.busy = false ∧ State.reset.irq = false ∧ State.reset.inflight = none ∧ State.reset.lmem = []

/-- The interrupt output is DONEIE & DONE (10_state.md R42): after a completion it equals DONEIE, and it falls when the
host clears DONE, clears DONEIE, or launches a command. -/
def Obligations.InterruptFollowsDoneAndEnable : Prop :=
  (∀ s : State, s.irq = (s.doneie && s.status.done)) ∧
  (∀ (i : Instr) (s t : State), exec i s = .next t → t.irq = s.doneie) ∧
  ∀ (s t : State) (v : Word) (rest : List Event), step s = .next t →
    (s.agenda = asmWr .status v :: rest → v.getLsbD 1 = true → t.irq = false) ∧
    (s.agenda = asmWr .irqen v :: rest → v.getLsbD 0 = false → t.irq = false) ∧
    (s.agenda = asmWr .cmd v :: rest → s.busy = false → t.irq = false)

/-! ### Every command -/

/-- Every command ends, in exactly one of the three outcomes of 60_exceptions.md R220: success, an expected-retry failure
(MINPOLY and GE_REDUCE only), or an error with its code, which changes nothing but STATUS (R224, R228). The operand
registers are kept in every case. -/
def Obligations.EveryCommandEndsInOneOutcome : Prop :=
  ∀ (i : Instr) (s : State), ∃ t, exec i s = .next t ∧ OperandsKept s t ∧
    (EndedAs s t false false 0 ∨ (EndedAs s t true false 0 ∧ (i = .minpoly ∨ i = .geReduce) ∧ t.res = s.res) ∨
      ∃ c : BitVec 8, 1 ≤ c.toNat ∧ c.toNat ≤ 6 ∧ EndedAs s t false true c ∧ OnlyStatusChanged s t)

/-- The first error in the order ECFG, EALIGN (all regions), EADDR, EOVERLAP, EDOMAIN is the one reported, and it changes
nothing but STATUS; with none of them, no error is reported (60_exceptions.md R222 to R224). -/
def Obligations.FirstErrorInPriorityIsReported : Prop :=
  ∀ (i : Instr) (s : State), ∃ t, exec i s = .next t ∧
    match firstError i s with
    | some c => EndedAs s t false true c ∧ OnlyStatusChanged s t
    | none => t.status.err = false

/-- ECFG, EALIGN, EADDR and EOVERLAP are computed from non-secret registers (70_reset_and_hazards.md R258): two states
that agree on LPSET, ADDR0, ADDR1 and LEN report the same of these codes, whatever OPA, OPB and LMEM hold. -/
def Obligations.NonSecretErrorCodesIgnoreData : Prop :=
  ∀ (i : Instr) (s s' t t' : State),
    s'.lpset = s.lpset → s'.addr0 = s.addr0 → s'.addr1 = s.addr1 → s'.len = s.len →
    exec i s = .next t → exec i s' = .next t' → t.status.errcode ∈ [2#8, 3#8, 4#8, 5#8] →
    t'.status.errcode = t.status.errcode

/-- NOP changes the completion flags and nothing else (45_misc.md R210). -/
def Obligations.NopOnlyCompletes : Prop :=
  ∀ s : State, ∃ t, exec .nop s = .next t ∧ EndedAs s t false false 0 ∧ OnlyStatusChanged s t

/-! ### The field unit -/

/-- GF_ADD: RES is OPA xor OPB, below 2^m (40_field.md R111, R114, R115). -/
def Obligations.GfAddIsExclusiveOr : Prop :=
  ∀ (s : State) (P : ParamSet), paramRow s.lpset = some P → s.opa.toNat < 2 ^ P.field.m → s.opb.toNat < 2 ^ P.field.m →
    ∃ t, exec .gfAdd s = .next t ∧ t.res = s.opa ^^^ s.opb ∧ t.res.toNat < 2 ^ P.field.m ∧ FieldDone s t t.res.toNat

/-- GF_MUL: RES is gf_mul(OPA, OPB) (40_field.md R112, R114, R116). What gf_mul is, says
GfMulIsPolynomialProductModModulus. -/
def Obligations.GfMulWritesProduct : Prop :=
  ∀ (s : State) (P : ParamSet), paramRow s.lpset = some P → s.opa.toNat < 2 ^ P.field.m → s.opb.toNat < 2 ^ P.field.m →
    ∃ t, exec .gfMul s = .next t ∧ FieldDone s t (gfMul P.field s.opa.toNat s.opb.toNat)

/-- GF_SQ and GF_SQ4: RES is a·a and a·a·a·a, OPB is not read (40_field.md R114, R117, R118). -/
def Obligations.GfSquaresWritePowers : Prop :=
  ∀ (s : State) (P : ParamSet), paramRow s.lpset = some P → s.opa.toNat < 2 ^ P.field.m →
    (∃ t, exec .gfSq s = .next t ∧ FieldDone s t (gfMul P.field s.opa.toNat s.opa.toNat)) ∧
    ∃ t, exec .gfSq4 s = .next t ∧ FieldDone s t (power P.field s.opa.toNat 4)

/-- GF_INV: RES is OPA^(2^m - 2) by repeated gf_mul, 0 for OPA = 0 (40_field.md R113, R114, R119). -/
def Obligations.GfInvWritesInverse : Prop :=
  ∀ (s : State) (P : ParamSet), paramRow s.lpset = some P → s.opa.toNat < 2 ^ P.field.m →
    ∃ t, exec .gfInv s = .next t ∧ FieldDone s t (power P.field s.opa.toNat (2 ^ P.field.m - 2)) ∧
      (s.opa = 0 → t.res = 0)

/-- GF_DIV: RES is gf_mul(OPA, OPB^(2^m - 2)), 0 for OPB = 0 (40_field.md R113, R114, R120). -/
def Obligations.GfDivWritesQuotient : Prop :=
  ∀ (s : State) (P : ParamSet), paramRow s.lpset = some P → s.opa.toNat < 2 ^ P.field.m → s.opb.toNat < 2 ^ P.field.m →
    ∃ t, exec .gfDiv s = .next t ∧
      FieldDone s t (gfMul P.field s.opa.toNat (power P.field s.opb.toNat (2 ^ P.field.m - 2))) ∧
      (s.opb = 0 → t.res = 0)

/-- gf_mul is the product of the polynomials over GF(2) modulo the modulus (00_scope.md R11, 40_field.md R110, R112). -/
def Obligations.GfMulIsPolynomialProductModModulus : Prop :=
  ∀ F ∈ [gf12, gf13], ∀ a b : Nat, a < 2 ^ F.m → b < 2 ^ F.m →
    gfMul F a b < 2 ^ F.m ∧ toPoly (gfMul F a b) = (toPoly a * toPoly b) %ₘ toPoly F.modulus

/-- gf_mul is commutative and associative, has the unit 1, and distributes over gf_add (40_field.md R121). -/
def Obligations.GfMulCommutesAssociatesDistributes : Prop :=
  ∀ F ∈ [gf12, gf13], ∀ a b c : Nat, a < 2 ^ F.m → b < 2 ^ F.m → c < 2 ^ F.m →
    gfMul F a b = gfMul F b a ∧ gfMul F a (gfMul F b c) = gfMul F (gfMul F a b) c ∧ gfMul F a 1 = a ∧
    gfMul F a (b ^^^ c) = gfMul F a b ^^^ gfMul F a c

/-- gf_inv(a) = a^(2^m - 2) by repeated gf_mul, gf_inv(0) = 0, gf_mul(a, gf_inv(a)) = 1 for a ≠ 0, and
gf_div(a, b) = gf_mul(a, gf_inv(b)), so gf_div(a, 0) = 0 (40_field.md R113). -/
def Obligations.GfInvIsInverse : Prop :=
  ∀ F ∈ [gf12, gf13], ∀ a : Nat, a < 2 ^ F.m →
    gfInv F a = power F a (2 ^ F.m - 2) ∧ gfInv F 0 = 0 ∧ (a ≠ 0 → gfMul F a (gfInv F a) = 1) ∧
    (∀ b, gfDiv F a b = gfMul F a (gfInv F b)) ∧ gfDiv F a 0 = 0

/-! ### The sorter -/

/-- SORT32 leaves the same words in ascending signed order (41_sort.md R131), and changes nothing else. -/
def Obligations.Sort32SortsSigned : Prop :=
  ∀ s : State, s.addr0.toNat % 4 = 0 → s.addr0.toNat + 4 * s.len.toNat ≤ 0x400000 →
    ∃ t, exec .sort32 s = .next t ∧ StoredOnly s t s.addr0.toNat (4 * s.len.toNat) ∧
      (t.readElems s.addr0.toNat 4 s.len.toNat).Perm (s.readElems s.addr0.toNat 4 s.len.toNat) ∧
      (t.readElems s.addr0.toNat 4 s.len.toNat).Pairwise
        (fun x y => (BitVec.ofNat 32 x).toInt ≤ (BitVec.ofNat 32 y).toInt)

/-- SORT64 leaves the same words in ascending unsigned order (41_sort.md R132), and changes nothing else. -/
def Obligations.Sort64SortsUnsigned : Prop :=
  ∀ s : State, s.addr0.toNat % 8 = 0 → s.addr0.toNat + 8 * s.len.toNat ≤ 0x400000 →
    ∃ t, exec .sort64 s = .next t ∧ StoredOnly s t s.addr0.toNat (8 * s.len.toNat) ∧
      (t.readElems s.addr0.toNat 8 s.len.toNat).Perm (s.readElems s.addr0.toNat 8 s.len.toNat) ∧
      (t.readElems s.addr0.toNat 8 s.len.toNat).Pairwise (fun x y => x ≤ y)

/-! ### The minimal-polynomial solver -/

/-- MINPOLY (42_minpoly.md R152, R155): where the rows pow(f, 0), ..., pow(f, t-1) are dependent it ends with FAIL and LMEM
kept; else it writes the one c with pow(f, t) = the sum of c[k]·pow(f, k) at ADDR1, and changes no other byte. -/
def Obligations.MinpolySolvesOrFails : Prop :=
  ∀ (s : State) (P : ParamSet), paramRow s.lpset = some P → s.addr0.toNat % 2 = 0 → s.addr1.toNat % 2 = 0 →
    s.addr0.toNat + 2 * P.sysT ≤ 0x400000 → s.addr1.toNat + 2 * P.sysT ≤ 0x400000 →
    (∀ x ∈ s.readElems s.addr0.toNat 2 P.sysT, x < 2 ^ P.field.m) →
    ∃ t, exec .minpoly s = .next t ∧
      (singular P (s.readElems s.addr0.toNat 2 P.sysT) → EndedAs s t true false 0 ∧ OnlyStatusChanged s t) ∧
      (¬ singular P (s.readElems s.addr0.toNat 2 P.sysT) → StoredOnly s t s.addr1.toNat (2 * P.sysT) ∧
        ∀ c, solves P (s.readElems s.addr0.toNat 2 P.sysT) c ↔ c = t.readElems s.addr1.toNat 2 P.sysT)

/-! ### The Benes applier and the transpose -/

/-- BENES moves every data bit to the place the network of 43_benes.md R170 to R172 gives it under the control bits, and
changes nothing else. -/
def Obligations.BenesMovesBitsThroughNetwork : Prop :=
  ∀ (s : State) (P : ParamSet), paramRow s.lpset = some P → s.addr0.toNat % 8 = 0 → s.addr1.toNat % 8 = 0 →
    s.addr0.toNat + benesWires P / 8 ≤ 0x400000 → s.addr1.toNat + controlBytes P ≤ 0x400000 →
    (s.addr0.toNat + benesWires P / 8 ≤ s.addr1.toNat ∨ s.addr1.toNat + controlBytes P ≤ s.addr0.toNat) →
    ∃ t, exec .benes s = .next t ∧ StoredOnly s t s.addr0.toNat (benesWires P / 8) ∧
      ∀ p < 2 ^ P.field.m, t.memBit s.addr0.toNat p =
        s.memBit s.addr0.toNat (networkSource P.field.m (s.memBit s.addr1.toNat) p)

/-- BENES: "Data bits are only moved, so the number of ones is preserved", and all-zero control bits leave the data
unchanged (43_benes.md R172). -/
def Obligations.BenesPreservesNumberOfOnes : Prop :=
  ∀ (s t : State) (P : ParamSet), paramRow s.lpset = some P → exec .benes s = .next t →
    ((List.range (2 ^ P.field.m)).filter (t.memBit s.addr0.toNat)).length =
      ((List.range (2 ^ P.field.m)).filter (s.memBit s.addr0.toNat)).length ∧
    ((∀ k < 8 * controlBytes P, s.memBit s.addr1.toNat k = false) → LmemKept s t)

/-- For w = 12 the source's bit-sliced procedure gives the result of the network, for every data and control buffer
(43_benes.md R173). -/
def Obligations.BitSlicedProcedureAgreesWithNetwork : Prop :=
  ∀ (ctrl : Nat) (lanes : List Nat), lanes.length = 64 → (∀ x ∈ lanes, x < 2 ^ 64) →
    bytesToNat (elemBytes 8 (benesSliced ctrl lanes)) = benesApply 12 ctrl (bytesToNat (elemBytes 8 lanes))

/-- TRANSPOSE64: bit j of output lane i is bit i of input lane j; nothing else changes (43_benes.md R174). -/
def Obligations.TransposeExchangesLaneAndBit : Prop :=
  ∀ s : State, s.addr0.toNat % 8 = 0 → s.addr0.toNat + 512 ≤ 0x400000 →
    ∃ t, exec .transpose64 s = .next t ∧ StoredOnly s t s.addr0.toNat 512 ∧
      ∀ i < 64, ∀ j < 64, t.memBit (s.addr0.toNat + 8 * i) j = s.memBit (s.addr0.toNat + 8 * j) i

/-- "TRANSPOSE64 applied twice is the identity" (43_benes.md R174). -/
def Obligations.TransposeTwiceIsIdentity : Prop :=
  ∀ s t u : State, exec .transpose64 s = .next t → exec .transpose64 t = .next u → LmemKept s u

/-! ### The Gaussian-elimination engine -/

/-- GE_REDUCE (44_gauss.md R191, R193, R195): where L is singular it ends with FAIL and no byte outside the matrix region
changes; else the matrix becomes L^(-1)·M, and nothing else changes. -/
def Obligations.GeReduceMultipliesByInverse : Prop :=
  ∀ (s : State) (P : ParamSet), paramRow s.lpset = some P → s.addr0.toNat % 8 = 0 →
    s.addr0.toNat + nRows P * rowBytes P ≤ 0x400000 →
    ∃ t, exec .geReduce s = .next t ∧
      ((leftBlock P s s.addr0.toNat).det = 0 → EndedAs s t true false 0 ∧ OperandsKept s t ∧ t.res = s.res ∧
        LmemKeptOutside s t s.addr0.toNat (nRows P * rowBytes P)) ∧
      ((leftBlock P s s.addr0.toNat).det ≠ 0 → StoredOnly s t s.addr0.toNat (nRows P * rowBytes P) ∧
        wholeMatrix P t s.addr0.toNat = (leftBlock P s s.addr0.toNat)⁻¹ * wholeMatrix P s s.addr0.toNat)

/-- GE_EXTRACT: public-key row r is the columns from nRows on of matrix row r, zero-padded; the matrix and every other
byte are kept (44_gauss.md R194). -/
def Obligations.GeExtractCopiesRightBlock : Prop :=
  ∀ (s : State) (P : ParamSet), paramRow s.lpset = some P → s.addr0.toNat % 8 = 0 → s.addr1.toNat % 8 = 0 →
    s.addr0.toNat + nRows P * rowBytes P ≤ 0x400000 → s.addr1.toNat + nRows P * pkRowBytes P ≤ 0x400000 →
    (s.addr0.toNat + nRows P * rowBytes P ≤ s.addr1.toNat ∨ s.addr1.toNat + nRows P * pkRowBytes P ≤ s.addr0.toNat) →
    ∃ t, exec .geExtract s = .next t ∧ StoredOnly s t s.addr1.toNat (nRows P * pkRowBytes P) ∧
      ∀ r < nRows P, ∀ k < 8 * pkRowBytes P, t.memBit (s.addr1.toNat + r * pkRowBytes P) k =
        (decide (nRows P + k < P.sysN) && s.memBit (s.addr0.toNat + r * rowBytes P) (nRows P + k))

/-! ### Housekeeping -/

/-- ZERO (45_misc.md R211): where the region ends beyond LMEM it ends with EADDR and no other effect; else the LEN bytes
at ADDR0 become 0, and nothing else changes. CFG.PSET is not read and no alignment is asked. -/
def Obligations.ZeroClearsExactlyItsRegion : Prop :=
  ∀ s : State, ∃ t, exec .zero s = .next t ∧
    if s.addr0.toNat + s.len.toNat ≤ 0x400000 then
      StoredOnly s t s.addr0.toNat s.len.toNat ∧
        ∀ x, s.addr0.toNat ≤ x → x < s.addr0.toNat + s.len.toNat → t.byteAt x = 0
    else EndedAs s t false true 4 ∧ OnlyStatusChanged s t

/-! ### The configuration and the ring K -/

/-- The parameter sets (00_scope.md R6) with their fields (40_field.md R110) and the low terms (exponent, coefficient)
of F (42_minpoly.md R150), none for PSET 5 to 7 (10_state.md R24), and their derived sizes nRows, ROWBYTES, TCOLS,
PKROWBYTES, BN, CBYTES (00_scope.md R7). The values are the spec's defaults (log 13). -/
def Obligations.ParameterSetsAreAsSpecified : Prop :=
  paramRow 0 = some
    { variant := .mceliece348864, field := { m := 12, modulus := 0x1009 },
      sysT := 64, sysN := 3488, ringLow := [(3, 1), (1, 1), (0, 2)] } ∧
  paramRow 1 = some
    { variant := .mceliece460896, field := { m := 13, modulus := 0x201B },
      sysT := 96, sysN := 4608, ringLow := [(10, 1), (9, 1), (6, 1), (0, 1)] } ∧
  paramRow 2 = some
    { variant := .mceliece6688128, field := { m := 13, modulus := 0x201B },
      sysT := 128, sysN := 6688, ringLow := [(7, 1), (2, 1), (1, 1), (0, 1)] } ∧
  paramRow 3 = some
    { variant := .mceliece6960119, field := { m := 13, modulus := 0x201B },
      sysT := 119, sysN := 6960, ringLow := [(8, 1), (0, 1)] } ∧
  paramRow 4 = some
    { variant := .mceliece8192128, field := { m := 13, modulus := 0x201B },
      sysT := 128, sysN := 8192, ringLow := [(7, 1), (2, 1), (1, 1), (0, 1)] } ∧
  paramRow 5 = none ∧ paramRow 6 = none ∧ paramRow 7 = none ∧
  ([0, 1, 2, 3, 4].filterMap paramRow).map
      (fun P => (nRows P, rowBytes P, tCols P, pkRowBytes P, benesWires P, controlBytes P)) =
    [(768, 436, 2720, 340, 4096, 5888), (1248, 576, 3360, 420, 8192, 12800), (1664, 836, 5024, 628, 8192, 12800),
     (1547, 870, 5413, 677, 8192, 12800), (1664, 1024, 6528, 816, 8192, 12800)]

/-- For each parameter set, polymulmod(u, v) is the product of the polynomials u and v over GF(2^m) modulo F, as t
canonical coefficients; pow(f, 0) is 1 and pow(f, k+1) is polymulmod(pow(f, k), f) (00_scope.md R12, 42_minpoly.md
R151). It pins the ring that MinpolySolvesOrFails speaks of. -/
def Obligations.PolyMulModIsProductModDefiningPoly : Prop :=
  ∀ (p : BitVec 3) (P : ParamSet) (u v : List Nat), paramRow p = some P → isVector P u → isVector P v →
    isVector P (polyMulMod P u v) ∧
    toRingPoly P.field (polyMulMod P u v) = (toRingPoly P.field u * toRingPoly P.field v) %ₘ definingPoly P ∧
    ringPow P u 0 = 1 :: List.replicate (P.sysT - 1) 0 ∧
    ∀ k, ringPow P u (k + 1) = polyMulMod P (ringPow P u k) u

/-! ### The other widths -/

/-- An access of a width other than 1, 2, 4 or 8 bytes is refused in the reserved region and in the LMEM window, busy or
not, as 20_memory.md R61 refuses it on the register page. That it is refused there too is the model's choice (log 24). -/
def Obligations.OtherWidthsAreRefusedOutsideRegisterPage : Prop :=
  ∀ (s : State) (a : HostAccess) (rest : List Event), s.agenda = .access a :: rest →
    a.width.standard = false → 0x1000 ≤ a.offset → a.offset < 0x800000 →
    step s = .next ((s.withAgenda rest).withBus .busErr)
end

