-- ==== Sys2Proof/Laws/State.lean ====
section
/-! SUPPORT. One lemma per field per update of State, and per derived view of State: later proofs unfold no record
update. -/

namespace Sys2Proof.Machine

/-! `State.withPset` -/

@[simp] theorem State.withPset_pset (s : State) (v : BitVec 3) : (s.withPset v).pset = v := rfl
@[simp] theorem State.withPset_doneie (s : State) (v : BitVec 3) : (s.withPset v).doneie = s.doneie := rfl
@[simp] theorem State.withPset_status (s : State) (v : BitVec 3) : (s.withPset v).status = s.status := rfl
@[simp] theorem State.withPset_opa (s : State) (v : BitVec 3) : (s.withPset v).opa = s.opa := rfl
@[simp] theorem State.withPset_opb (s : State) (v : BitVec 3) : (s.withPset v).opb = s.opb := rfl
@[simp] theorem State.withPset_res (s : State) (v : BitVec 3) : (s.withPset v).res = s.res := rfl
@[simp] theorem State.withPset_addr0 (s : State) (v : BitVec 3) : (s.withPset v).addr0 = s.addr0 := rfl
@[simp] theorem State.withPset_addr1 (s : State) (v : BitVec 3) : (s.withPset v).addr1 = s.addr1 := rfl
@[simp] theorem State.withPset_len (s : State) (v : BitVec 3) : (s.withPset v).len = s.len := rfl
@[simp] theorem State.withPset_inflight (s : State) (v : BitVec 3) : (s.withPset v).inflight = s.inflight := rfl
@[simp] theorem State.withPset_lmem (s : State) (v : BitVec 3) : (s.withPset v).lmem = s.lmem := rfl
@[simp] theorem State.withPset_lmemGen (s : State) (v : BitVec 3) : (s.withPset v).lmemGen = s.lmemGen := rfl
@[simp] theorem State.withPset_draws (s : State) (v : BitVec 3) : (s.withPset v).draws = s.draws := rfl
@[simp] theorem State.withPset_agenda (s : State) (v : BitVec 3) : (s.withPset v).agenda = s.agenda := rfl
@[simp] theorem State.withPset_bus (s : State) (v : BitVec 3) : (s.withPset v).bus = s.bus := rfl
@[simp] theorem State.withPset_busy (s : State) (v : BitVec 3) : (s.withPset v).busy = s.busy := rfl
@[simp] theorem State.withPset_fill (s : State) (v : BitVec 3) : (s.withPset v).fill = s.fill := rfl
@[simp] theorem State.withPset_byteAt (s : State) (v : BitVec 3) (a : Nat) : (s.withPset v).byteAt a = s.byteAt a := rfl
@[simp] theorem State.withPset_memRead (s : State) (v : BitVec 3) (a n : Nat) : (s.withPset v).memRead a n = s.memRead a n := rfl
@[simp] theorem State.withPset_memBit (s : State) (v : BitVec 3) (b k : Nat) : (s.withPset v).memBit b k = s.memBit b k := rfl

/-! `State.withDoneie` -/

@[simp] theorem State.withDoneie_pset (s : State) (v : Bool) : (s.withDoneie v).pset = s.pset := rfl
@[simp] theorem State.withDoneie_doneie (s : State) (v : Bool) : (s.withDoneie v).doneie = v := rfl
@[simp] theorem State.withDoneie_status (s : State) (v : Bool) : (s.withDoneie v).status = s.status := rfl
@[simp] theorem State.withDoneie_opa (s : State) (v : Bool) : (s.withDoneie v).opa = s.opa := rfl
@[simp] theorem State.withDoneie_opb (s : State) (v : Bool) : (s.withDoneie v).opb = s.opb := rfl
@[simp] theorem State.withDoneie_res (s : State) (v : Bool) : (s.withDoneie v).res = s.res := rfl
@[simp] theorem State.withDoneie_addr0 (s : State) (v : Bool) : (s.withDoneie v).addr0 = s.addr0 := rfl
@[simp] theorem State.withDoneie_addr1 (s : State) (v : Bool) : (s.withDoneie v).addr1 = s.addr1 := rfl
@[simp] theorem State.withDoneie_len (s : State) (v : Bool) : (s.withDoneie v).len = s.len := rfl
@[simp] theorem State.withDoneie_inflight (s : State) (v : Bool) : (s.withDoneie v).inflight = s.inflight := rfl
@[simp] theorem State.withDoneie_lmem (s : State) (v : Bool) : (s.withDoneie v).lmem = s.lmem := rfl
@[simp] theorem State.withDoneie_lmemGen (s : State) (v : Bool) : (s.withDoneie v).lmemGen = s.lmemGen := rfl
@[simp] theorem State.withDoneie_draws (s : State) (v : Bool) : (s.withDoneie v).draws = s.draws := rfl
@[simp] theorem State.withDoneie_agenda (s : State) (v : Bool) : (s.withDoneie v).agenda = s.agenda := rfl
@[simp] theorem State.withDoneie_bus (s : State) (v : Bool) : (s.withDoneie v).bus = s.bus := rfl
@[simp] theorem State.withDoneie_busy (s : State) (v : Bool) : (s.withDoneie v).busy = s.busy := rfl
@[simp] theorem State.withDoneie_lpset (s : State) (v : Bool) : (s.withDoneie v).lpset = s.lpset := rfl
@[simp] theorem State.withDoneie_fill (s : State) (v : Bool) : (s.withDoneie v).fill = s.fill := rfl
@[simp] theorem State.withDoneie_byteAt (s : State) (v : Bool) (a : Nat) : (s.withDoneie v).byteAt a = s.byteAt a := rfl
@[simp] theorem State.withDoneie_memRead (s : State) (v : Bool) (a n : Nat) : (s.withDoneie v).memRead a n = s.memRead a n := rfl
@[simp] theorem State.withDoneie_memBit (s : State) (v : Bool) (b k : Nat) : (s.withDoneie v).memBit b k = s.memBit b k := rfl

/-! `State.withStatus` -/

@[simp] theorem State.withStatus_pset (s : State) (v : Status) : (s.withStatus v).pset = s.pset := rfl
@[simp] theorem State.withStatus_doneie (s : State) (v : Status) : (s.withStatus v).doneie = s.doneie := rfl
@[simp] theorem State.withStatus_status (s : State) (v : Status) : (s.withStatus v).status = v := rfl
@[simp] theorem State.withStatus_opa (s : State) (v : Status) : (s.withStatus v).opa = s.opa := rfl
@[simp] theorem State.withStatus_opb (s : State) (v : Status) : (s.withStatus v).opb = s.opb := rfl
@[simp] theorem State.withStatus_res (s : State) (v : Status) : (s.withStatus v).res = s.res := rfl
@[simp] theorem State.withStatus_addr0 (s : State) (v : Status) : (s.withStatus v).addr0 = s.addr0 := rfl
@[simp] theorem State.withStatus_addr1 (s : State) (v : Status) : (s.withStatus v).addr1 = s.addr1 := rfl
@[simp] theorem State.withStatus_len (s : State) (v : Status) : (s.withStatus v).len = s.len := rfl
@[simp] theorem State.withStatus_inflight (s : State) (v : Status) : (s.withStatus v).inflight = s.inflight := rfl
@[simp] theorem State.withStatus_lmem (s : State) (v : Status) : (s.withStatus v).lmem = s.lmem := rfl
@[simp] theorem State.withStatus_lmemGen (s : State) (v : Status) : (s.withStatus v).lmemGen = s.lmemGen := rfl
@[simp] theorem State.withStatus_draws (s : State) (v : Status) : (s.withStatus v).draws = s.draws := rfl
@[simp] theorem State.withStatus_agenda (s : State) (v : Status) : (s.withStatus v).agenda = s.agenda := rfl
@[simp] theorem State.withStatus_bus (s : State) (v : Status) : (s.withStatus v).bus = s.bus := rfl
@[simp] theorem State.withStatus_busy (s : State) (v : Status) : (s.withStatus v).busy = s.busy := rfl
@[simp] theorem State.withStatus_lpset (s : State) (v : Status) : (s.withStatus v).lpset = s.lpset := rfl
@[simp] theorem State.withStatus_fill (s : State) (v : Status) : (s.withStatus v).fill = s.fill := rfl
@[simp] theorem State.withStatus_byteAt (s : State) (v : Status) (a : Nat) : (s.withStatus v).byteAt a = s.byteAt a := rfl
@[simp] theorem State.withStatus_memRead (s : State) (v : Status) (a n : Nat) : (s.withStatus v).memRead a n = s.memRead a n := rfl
@[simp] theorem State.withStatus_memBit (s : State) (v : Status) (b k : Nat) : (s.withStatus v).memBit b k = s.memBit b k := rfl

/-! `State.withOpa` -/

@[simp] theorem State.withOpa_pset (s : State) (v : Word) : (s.withOpa v).pset = s.pset := rfl
@[simp] theorem State.withOpa_doneie (s : State) (v : Word) : (s.withOpa v).doneie = s.doneie := rfl
@[simp] theorem State.withOpa_status (s : State) (v : Word) : (s.withOpa v).status = s.status := rfl
@[simp] theorem State.withOpa_opa (s : State) (v : Word) : (s.withOpa v).opa = v := rfl
@[simp] theorem State.withOpa_opb (s : State) (v : Word) : (s.withOpa v).opb = s.opb := rfl
@[simp] theorem State.withOpa_res (s : State) (v : Word) : (s.withOpa v).res = s.res := rfl
@[simp] theorem State.withOpa_addr0 (s : State) (v : Word) : (s.withOpa v).addr0 = s.addr0 := rfl
@[simp] theorem State.withOpa_addr1 (s : State) (v : Word) : (s.withOpa v).addr1 = s.addr1 := rfl
@[simp] theorem State.withOpa_len (s : State) (v : Word) : (s.withOpa v).len = s.len := rfl
@[simp] theorem State.withOpa_inflight (s : State) (v : Word) : (s.withOpa v).inflight = s.inflight := rfl
@[simp] theorem State.withOpa_lmem (s : State) (v : Word) : (s.withOpa v).lmem = s.lmem := rfl
@[simp] theorem State.withOpa_lmemGen (s : State) (v : Word) : (s.withOpa v).lmemGen = s.lmemGen := rfl
@[simp] theorem State.withOpa_draws (s : State) (v : Word) : (s.withOpa v).draws = s.draws := rfl
@[simp] theorem State.withOpa_agenda (s : State) (v : Word) : (s.withOpa v).agenda = s.agenda := rfl
@[simp] theorem State.withOpa_bus (s : State) (v : Word) : (s.withOpa v).bus = s.bus := rfl
@[simp] theorem State.withOpa_busy (s : State) (v : Word) : (s.withOpa v).busy = s.busy := rfl
@[simp] theorem State.withOpa_lpset (s : State) (v : Word) : (s.withOpa v).lpset = s.lpset := rfl
@[simp] theorem State.withOpa_fill (s : State) (v : Word) : (s.withOpa v).fill = s.fill := rfl
@[simp] theorem State.withOpa_byteAt (s : State) (v : Word) (a : Nat) : (s.withOpa v).byteAt a = s.byteAt a := rfl
@[simp] theorem State.withOpa_memRead (s : State) (v : Word) (a n : Nat) : (s.withOpa v).memRead a n = s.memRead a n := rfl
@[simp] theorem State.withOpa_memBit (s : State) (v : Word) (b k : Nat) : (s.withOpa v).memBit b k = s.memBit b k := rfl

/-! `State.withOpb` -/

@[simp] theorem State.withOpb_pset (s : State) (v : Word) : (s.withOpb v).pset = s.pset := rfl
@[simp] theorem State.withOpb_doneie (s : State) (v : Word) : (s.withOpb v).doneie = s.doneie := rfl
@[simp] theorem State.withOpb_status (s : State) (v : Word) : (s.withOpb v).status = s.status := rfl
@[simp] theorem State.withOpb_opa (s : State) (v : Word) : (s.withOpb v).opa = s.opa := rfl
@[simp] theorem State.withOpb_opb (s : State) (v : Word) : (s.withOpb v).opb = v := rfl
@[simp] theorem State.withOpb_res (s : State) (v : Word) : (s.withOpb v).res = s.res := rfl
@[simp] theorem State.withOpb_addr0 (s : State) (v : Word) : (s.withOpb v).addr0 = s.addr0 := rfl
@[simp] theorem State.withOpb_addr1 (s : State) (v : Word) : (s.withOpb v).addr1 = s.addr1 := rfl
@[simp] theorem State.withOpb_len (s : State) (v : Word) : (s.withOpb v).len = s.len := rfl
@[simp] theorem State.withOpb_inflight (s : State) (v : Word) : (s.withOpb v).inflight = s.inflight := rfl
@[simp] theorem State.withOpb_lmem (s : State) (v : Word) : (s.withOpb v).lmem = s.lmem := rfl
@[simp] theorem State.withOpb_lmemGen (s : State) (v : Word) : (s.withOpb v).lmemGen = s.lmemGen := rfl
@[simp] theorem State.withOpb_draws (s : State) (v : Word) : (s.withOpb v).draws = s.draws := rfl
@[simp] theorem State.withOpb_agenda (s : State) (v : Word) : (s.withOpb v).agenda = s.agenda := rfl
@[simp] theorem State.withOpb_bus (s : State) (v : Word) : (s.withOpb v).bus = s.bus := rfl
@[simp] theorem State.withOpb_busy (s : State) (v : Word) : (s.withOpb v).busy = s.busy := rfl
@[simp] theorem State.withOpb_lpset (s : State) (v : Word) : (s.withOpb v).lpset = s.lpset := rfl
@[simp] theorem State.withOpb_fill (s : State) (v : Word) : (s.withOpb v).fill = s.fill := rfl
@[simp] theorem State.withOpb_byteAt (s : State) (v : Word) (a : Nat) : (s.withOpb v).byteAt a = s.byteAt a := rfl
@[simp] theorem State.withOpb_memRead (s : State) (v : Word) (a n : Nat) : (s.withOpb v).memRead a n = s.memRead a n := rfl
@[simp] theorem State.withOpb_memBit (s : State) (v : Word) (b k : Nat) : (s.withOpb v).memBit b k = s.memBit b k := rfl

/-! `State.withRes` -/

@[simp] theorem State.withRes_pset (s : State) (v : Word) : (s.withRes v).pset = s.pset := rfl
@[simp] theorem State.withRes_doneie (s : State) (v : Word) : (s.withRes v).doneie = s.doneie := rfl
@[simp] theorem State.withRes_status (s : State) (v : Word) : (s.withRes v).status = s.status := rfl
@[simp] theorem State.withRes_opa (s : State) (v : Word) : (s.withRes v).opa = s.opa := rfl
@[simp] theorem State.withRes_opb (s : State) (v : Word) : (s.withRes v).opb = s.opb := rfl
@[simp] theorem State.withRes_res (s : State) (v : Word) : (s.withRes v).res = v := rfl
@[simp] theorem State.withRes_addr0 (s : State) (v : Word) : (s.withRes v).addr0 = s.addr0 := rfl
@[simp] theorem State.withRes_addr1 (s : State) (v : Word) : (s.withRes v).addr1 = s.addr1 := rfl
@[simp] theorem State.withRes_len (s : State) (v : Word) : (s.withRes v).len = s.len := rfl
@[simp] theorem State.withRes_inflight (s : State) (v : Word) : (s.withRes v).inflight = s.inflight := rfl
@[simp] theorem State.withRes_lmem (s : State) (v : Word) : (s.withRes v).lmem = s.lmem := rfl
@[simp] theorem State.withRes_lmemGen (s : State) (v : Word) : (s.withRes v).lmemGen = s.lmemGen := rfl
@[simp] theorem State.withRes_draws (s : State) (v : Word) : (s.withRes v).draws = s.draws := rfl
@[simp] theorem State.withRes_agenda (s : State) (v : Word) : (s.withRes v).agenda = s.agenda := rfl
@[simp] theorem State.withRes_bus (s : State) (v : Word) : (s.withRes v).bus = s.bus := rfl
@[simp] theorem State.withRes_busy (s : State) (v : Word) : (s.withRes v).busy = s.busy := rfl
@[simp] theorem State.withRes_lpset (s : State) (v : Word) : (s.withRes v).lpset = s.lpset := rfl
@[simp] theorem State.withRes_fill (s : State) (v : Word) : (s.withRes v).fill = s.fill := rfl
@[simp] theorem State.withRes_byteAt (s : State) (v : Word) (a : Nat) : (s.withRes v).byteAt a = s.byteAt a := rfl
@[simp] theorem State.withRes_memRead (s : State) (v : Word) (a n : Nat) : (s.withRes v).memRead a n = s.memRead a n := rfl
@[simp] theorem State.withRes_memBit (s : State) (v : Word) (b k : Nat) : (s.withRes v).memBit b k = s.memBit b k := rfl

/-! `State.withAddr0` -/

@[simp] theorem State.withAddr0_pset (s : State) (v : Word) : (s.withAddr0 v).pset = s.pset := rfl
@[simp] theorem State.withAddr0_doneie (s : State) (v : Word) : (s.withAddr0 v).doneie = s.doneie := rfl
@[simp] theorem State.withAddr0_status (s : State) (v : Word) : (s.withAddr0 v).status = s.status := rfl
@[simp] theorem State.withAddr0_opa (s : State) (v : Word) : (s.withAddr0 v).opa = s.opa := rfl
@[simp] theorem State.withAddr0_opb (s : State) (v : Word) : (s.withAddr0 v).opb = s.opb := rfl
@[simp] theorem State.withAddr0_res (s : State) (v : Word) : (s.withAddr0 v).res = s.res := rfl
@[simp] theorem State.withAddr0_addr0 (s : State) (v : Word) : (s.withAddr0 v).addr0 = v := rfl
@[simp] theorem State.withAddr0_addr1 (s : State) (v : Word) : (s.withAddr0 v).addr1 = s.addr1 := rfl
@[simp] theorem State.withAddr0_len (s : State) (v : Word) : (s.withAddr0 v).len = s.len := rfl
@[simp] theorem State.withAddr0_inflight (s : State) (v : Word) : (s.withAddr0 v).inflight = s.inflight := rfl
@[simp] theorem State.withAddr0_lmem (s : State) (v : Word) : (s.withAddr0 v).lmem = s.lmem := rfl
@[simp] theorem State.withAddr0_lmemGen (s : State) (v : Word) : (s.withAddr0 v).lmemGen = s.lmemGen := rfl
@[simp] theorem State.withAddr0_draws (s : State) (v : Word) : (s.withAddr0 v).draws = s.draws := rfl
@[simp] theorem State.withAddr0_agenda (s : State) (v : Word) : (s.withAddr0 v).agenda = s.agenda := rfl
@[simp] theorem State.withAddr0_bus (s : State) (v : Word) : (s.withAddr0 v).bus = s.bus := rfl
@[simp] theorem State.withAddr0_busy (s : State) (v : Word) : (s.withAddr0 v).busy = s.busy := rfl
@[simp] theorem State.withAddr0_lpset (s : State) (v : Word) : (s.withAddr0 v).lpset = s.lpset := rfl
@[simp] theorem State.withAddr0_fill (s : State) (v : Word) : (s.withAddr0 v).fill = s.fill := rfl
@[simp] theorem State.withAddr0_byteAt (s : State) (v : Word) (a : Nat) : (s.withAddr0 v).byteAt a = s.byteAt a := rfl
@[simp] theorem State.withAddr0_memRead (s : State) (v : Word) (a n : Nat) : (s.withAddr0 v).memRead a n = s.memRead a n := rfl
@[simp] theorem State.withAddr0_memBit (s : State) (v : Word) (b k : Nat) : (s.withAddr0 v).memBit b k = s.memBit b k := rfl

/-! `State.withAddr1` -/

@[simp] theorem State.withAddr1_pset (s : State) (v : Word) : (s.withAddr1 v).pset = s.pset := rfl
@[simp] theorem State.withAddr1_doneie (s : State) (v : Word) : (s.withAddr1 v).doneie = s.doneie := rfl
@[simp] theorem State.withAddr1_status (s : State) (v : Word) : (s.withAddr1 v).status = s.status := rfl
@[simp] theorem State.withAddr1_opa (s : State) (v : Word) : (s.withAddr1 v).opa = s.opa := rfl
@[simp] theorem State.withAddr1_opb (s : State) (v : Word) : (s.withAddr1 v).opb = s.opb := rfl
@[simp] theorem State.withAddr1_res (s : State) (v : Word) : (s.withAddr1 v).res = s.res := rfl
@[simp] theorem State.withAddr1_addr0 (s : State) (v : Word) : (s.withAddr1 v).addr0 = s.addr0 := rfl
@[simp] theorem State.withAddr1_addr1 (s : State) (v : Word) : (s.withAddr1 v).addr1 = v := rfl
@[simp] theorem State.withAddr1_len (s : State) (v : Word) : (s.withAddr1 v).len = s.len := rfl
@[simp] theorem State.withAddr1_inflight (s : State) (v : Word) : (s.withAddr1 v).inflight = s.inflight := rfl
@[simp] theorem State.withAddr1_lmem (s : State) (v : Word) : (s.withAddr1 v).lmem = s.lmem := rfl
@[simp] theorem State.withAddr1_lmemGen (s : State) (v : Word) : (s.withAddr1 v).lmemGen = s.lmemGen := rfl
@[simp] theorem State.withAddr1_draws (s : State) (v : Word) : (s.withAddr1 v).draws = s.draws := rfl
@[simp] theorem State.withAddr1_agenda (s : State) (v : Word) : (s.withAddr1 v).agenda = s.agenda := rfl
@[simp] theorem State.withAddr1_bus (s : State) (v : Word) : (s.withAddr1 v).bus = s.bus := rfl
@[simp] theorem State.withAddr1_busy (s : State) (v : Word) : (s.withAddr1 v).busy = s.busy := rfl
@[simp] theorem State.withAddr1_lpset (s : State) (v : Word) : (s.withAddr1 v).lpset = s.lpset := rfl
@[simp] theorem State.withAddr1_fill (s : State) (v : Word) : (s.withAddr1 v).fill = s.fill := rfl
@[simp] theorem State.withAddr1_byteAt (s : State) (v : Word) (a : Nat) : (s.withAddr1 v).byteAt a = s.byteAt a := rfl
@[simp] theorem State.withAddr1_memRead (s : State) (v : Word) (a n : Nat) : (s.withAddr1 v).memRead a n = s.memRead a n := rfl
@[simp] theorem State.withAddr1_memBit (s : State) (v : Word) (b k : Nat) : (s.withAddr1 v).memBit b k = s.memBit b k := rfl

/-! `State.withLen` -/

@[simp] theorem State.withLen_pset (s : State) (v : Word) : (s.withLen v).pset = s.pset := rfl
@[simp] theorem State.withLen_doneie (s : State) (v : Word) : (s.withLen v).doneie = s.doneie := rfl
@[simp] theorem State.withLen_status (s : State) (v : Word) : (s.withLen v).status = s.status := rfl
@[simp] theorem State.withLen_opa (s : State) (v : Word) : (s.withLen v).opa = s.opa := rfl
@[simp] theorem State.withLen_opb (s : State) (v : Word) : (s.withLen v).opb = s.opb := rfl
@[simp] theorem State.withLen_res (s : State) (v : Word) : (s.withLen v).res = s.res := rfl
@[simp] theorem State.withLen_addr0 (s : State) (v : Word) : (s.withLen v).addr0 = s.addr0 := rfl
@[simp] theorem State.withLen_addr1 (s : State) (v : Word) : (s.withLen v).addr1 = s.addr1 := rfl
@[simp] theorem State.withLen_len (s : State) (v : Word) : (s.withLen v).len = v := rfl
@[simp] theorem State.withLen_inflight (s : State) (v : Word) : (s.withLen v).inflight = s.inflight := rfl
@[simp] theorem State.withLen_lmem (s : State) (v : Word) : (s.withLen v).lmem = s.lmem := rfl
@[simp] theorem State.withLen_lmemGen (s : State) (v : Word) : (s.withLen v).lmemGen = s.lmemGen := rfl
@[simp] theorem State.withLen_draws (s : State) (v : Word) : (s.withLen v).draws = s.draws := rfl
@[simp] theorem State.withLen_agenda (s : State) (v : Word) : (s.withLen v).agenda = s.agenda := rfl
@[simp] theorem State.withLen_bus (s : State) (v : Word) : (s.withLen v).bus = s.bus := rfl
@[simp] theorem State.withLen_busy (s : State) (v : Word) : (s.withLen v).busy = s.busy := rfl
@[simp] theorem State.withLen_lpset (s : State) (v : Word) : (s.withLen v).lpset = s.lpset := rfl
@[simp] theorem State.withLen_fill (s : State) (v : Word) : (s.withLen v).fill = s.fill := rfl
@[simp] theorem State.withLen_byteAt (s : State) (v : Word) (a : Nat) : (s.withLen v).byteAt a = s.byteAt a := rfl
@[simp] theorem State.withLen_memRead (s : State) (v : Word) (a n : Nat) : (s.withLen v).memRead a n = s.memRead a n := rfl
@[simp] theorem State.withLen_memBit (s : State) (v : Word) (b k : Nat) : (s.withLen v).memBit b k = s.memBit b k := rfl

/-! `State.withInflight` -/

@[simp] theorem State.withInflight_pset (s : State) (v : Option InFlight) : (s.withInflight v).pset = s.pset := rfl
@[simp] theorem State.withInflight_doneie (s : State) (v : Option InFlight) : (s.withInflight v).doneie = s.doneie := rfl
@[simp] theorem State.withInflight_status (s : State) (v : Option InFlight) : (s.withInflight v).status = s.status := rfl
@[simp] theorem State.withInflight_opa (s : State) (v : Option InFlight) : (s.withInflight v).opa = s.opa := rfl
@[simp] theorem State.withInflight_opb (s : State) (v : Option InFlight) : (s.withInflight v).opb = s.opb := rfl
@[simp] theorem State.withInflight_res (s : State) (v : Option InFlight) : (s.withInflight v).res = s.res := rfl
@[simp] theorem State.withInflight_addr0 (s : State) (v : Option InFlight) : (s.withInflight v).addr0 = s.addr0 := rfl
@[simp] theorem State.withInflight_addr1 (s : State) (v : Option InFlight) : (s.withInflight v).addr1 = s.addr1 := rfl
@[simp] theorem State.withInflight_len (s : State) (v : Option InFlight) : (s.withInflight v).len = s.len := rfl
@[simp] theorem State.withInflight_inflight (s : State) (v : Option InFlight) : (s.withInflight v).inflight = v := rfl
@[simp] theorem State.withInflight_lmem (s : State) (v : Option InFlight) : (s.withInflight v).lmem = s.lmem := rfl
@[simp] theorem State.withInflight_lmemGen (s : State) (v : Option InFlight) : (s.withInflight v).lmemGen = s.lmemGen := rfl
@[simp] theorem State.withInflight_draws (s : State) (v : Option InFlight) : (s.withInflight v).draws = s.draws := rfl
@[simp] theorem State.withInflight_agenda (s : State) (v : Option InFlight) : (s.withInflight v).agenda = s.agenda := rfl
@[simp] theorem State.withInflight_bus (s : State) (v : Option InFlight) : (s.withInflight v).bus = s.bus := rfl
@[simp] theorem State.withInflight_busy (s : State) (v : Option InFlight) : (s.withInflight v).busy = v.isSome := rfl
@[simp] theorem State.withInflight_fill (s : State) (v : Option InFlight) : (s.withInflight v).fill = s.fill := rfl
@[simp] theorem State.withInflight_byteAt (s : State) (v : Option InFlight) (a : Nat) : (s.withInflight v).byteAt a = s.byteAt a := rfl
@[simp] theorem State.withInflight_memRead (s : State) (v : Option InFlight) (a n : Nat) : (s.withInflight v).memRead a n = s.memRead a n := rfl
@[simp] theorem State.withInflight_memBit (s : State) (v : Option InFlight) (b k : Nat) : (s.withInflight v).memBit b k = s.memBit b k := rfl

/-! `State.withLmem` -/

@[simp] theorem State.withLmem_pset (s : State) (v : Memory) : (s.withLmem v).pset = s.pset := rfl
@[simp] theorem State.withLmem_doneie (s : State) (v : Memory) : (s.withLmem v).doneie = s.doneie := rfl
@[simp] theorem State.withLmem_status (s : State) (v : Memory) : (s.withLmem v).status = s.status := rfl
@[simp] theorem State.withLmem_opa (s : State) (v : Memory) : (s.withLmem v).opa = s.opa := rfl
@[simp] theorem State.withLmem_opb (s : State) (v : Memory) : (s.withLmem v).opb = s.opb := rfl
@[simp] theorem State.withLmem_res (s : State) (v : Memory) : (s.withLmem v).res = s.res := rfl
@[simp] theorem State.withLmem_addr0 (s : State) (v : Memory) : (s.withLmem v).addr0 = s.addr0 := rfl
@[simp] theorem State.withLmem_addr1 (s : State) (v : Memory) : (s.withLmem v).addr1 = s.addr1 := rfl
@[simp] theorem State.withLmem_len (s : State) (v : Memory) : (s.withLmem v).len = s.len := rfl
@[simp] theorem State.withLmem_inflight (s : State) (v : Memory) : (s.withLmem v).inflight = s.inflight := rfl
@[simp] theorem State.withLmem_lmem (s : State) (v : Memory) : (s.withLmem v).lmem = v := rfl
@[simp] theorem State.withLmem_lmemGen (s : State) (v : Memory) : (s.withLmem v).lmemGen = s.lmemGen := rfl
@[simp] theorem State.withLmem_draws (s : State) (v : Memory) : (s.withLmem v).draws = s.draws := rfl
@[simp] theorem State.withLmem_agenda (s : State) (v : Memory) : (s.withLmem v).agenda = s.agenda := rfl
@[simp] theorem State.withLmem_bus (s : State) (v : Memory) : (s.withLmem v).bus = s.bus := rfl
@[simp] theorem State.withLmem_busy (s : State) (v : Memory) : (s.withLmem v).busy = s.busy := rfl
@[simp] theorem State.withLmem_lpset (s : State) (v : Memory) : (s.withLmem v).lpset = s.lpset := rfl
@[simp] theorem State.withLmem_fill (s : State) (v : Memory) : (s.withLmem v).fill = s.fill := rfl

/-! `State.withDraws` -/

@[simp] theorem State.withDraws_pset (s : State) (v : Nat) : (s.withDraws v).pset = s.pset := rfl
@[simp] theorem State.withDraws_doneie (s : State) (v : Nat) : (s.withDraws v).doneie = s.doneie := rfl
@[simp] theorem State.withDraws_status (s : State) (v : Nat) : (s.withDraws v).status = s.status := rfl
@[simp] theorem State.withDraws_opa (s : State) (v : Nat) : (s.withDraws v).opa = s.opa := rfl
@[simp] theorem State.withDraws_opb (s : State) (v : Nat) : (s.withDraws v).opb = s.opb := rfl
@[simp] theorem State.withDraws_res (s : State) (v : Nat) : (s.withDraws v).res = s.res := rfl
@[simp] theorem State.withDraws_addr0 (s : State) (v : Nat) : (s.withDraws v).addr0 = s.addr0 := rfl
@[simp] theorem State.withDraws_addr1 (s : State) (v : Nat) : (s.withDraws v).addr1 = s.addr1 := rfl
@[simp] theorem State.withDraws_len (s : State) (v : Nat) : (s.withDraws v).len = s.len := rfl
@[simp] theorem State.withDraws_inflight (s : State) (v : Nat) : (s.withDraws v).inflight = s.inflight := rfl
@[simp] theorem State.withDraws_lmem (s : State) (v : Nat) : (s.withDraws v).lmem = s.lmem := rfl
@[simp] theorem State.withDraws_lmemGen (s : State) (v : Nat) : (s.withDraws v).lmemGen = s.lmemGen := rfl
@[simp] theorem State.withDraws_draws (s : State) (v : Nat) : (s.withDraws v).draws = v := rfl
@[simp] theorem State.withDraws_agenda (s : State) (v : Nat) : (s.withDraws v).agenda = s.agenda := rfl
@[simp] theorem State.withDraws_bus (s : State) (v : Nat) : (s.withDraws v).bus = s.bus := rfl
@[simp] theorem State.withDraws_busy (s : State) (v : Nat) : (s.withDraws v).busy = s.busy := rfl
@[simp] theorem State.withDraws_lpset (s : State) (v : Nat) : (s.withDraws v).lpset = s.lpset := rfl
@[simp] theorem State.withDraws_fill (s : State) (v : Nat) : (s.withDraws v).fill = s.fill := rfl
@[simp] theorem State.withDraws_byteAt (s : State) (v : Nat) (a : Nat) : (s.withDraws v).byteAt a = s.byteAt a := rfl
@[simp] theorem State.withDraws_memRead (s : State) (v : Nat) (a n : Nat) : (s.withDraws v).memRead a n = s.memRead a n := rfl
@[simp] theorem State.withDraws_memBit (s : State) (v : Nat) (b k : Nat) : (s.withDraws v).memBit b k = s.memBit b k := rfl

/-! `State.withAgenda` -/

@[simp] theorem State.withAgenda_pset (s : State) (v : List Event) : (s.withAgenda v).pset = s.pset := rfl
@[simp] theorem State.withAgenda_doneie (s : State) (v : List Event) : (s.withAgenda v).doneie = s.doneie := rfl
@[simp] theorem State.withAgenda_status (s : State) (v : List Event) : (s.withAgenda v).status = s.status := rfl
@[simp] theorem State.withAgenda_opa (s : State) (v : List Event) : (s.withAgenda v).opa = s.opa := rfl
@[simp] theorem State.withAgenda_opb (s : State) (v : List Event) : (s.withAgenda v).opb = s.opb := rfl
@[simp] theorem State.withAgenda_res (s : State) (v : List Event) : (s.withAgenda v).res = s.res := rfl
@[simp] theorem State.withAgenda_addr0 (s : State) (v : List Event) : (s.withAgenda v).addr0 = s.addr0 := rfl
@[simp] theorem State.withAgenda_addr1 (s : State) (v : List Event) : (s.withAgenda v).addr1 = s.addr1 := rfl
@[simp] theorem State.withAgenda_len (s : State) (v : List Event) : (s.withAgenda v).len = s.len := rfl
@[simp] theorem State.withAgenda_inflight (s : State) (v : List Event) : (s.withAgenda v).inflight = s.inflight := rfl
@[simp] theorem State.withAgenda_lmem (s : State) (v : List Event) : (s.withAgenda v).lmem = s.lmem := rfl
@[simp] theorem State.withAgenda_lmemGen (s : State) (v : List Event) : (s.withAgenda v).lmemGen = s.lmemGen := rfl
@[simp] theorem State.withAgenda_draws (s : State) (v : List Event) : (s.withAgenda v).draws = s.draws := rfl
@[simp] theorem State.withAgenda_agenda (s : State) (v : List Event) : (s.withAgenda v).agenda = v := rfl
@[simp] theorem State.withAgenda_bus (s : State) (v : List Event) : (s.withAgenda v).bus = s.bus := rfl
@[simp] theorem State.withAgenda_busy (s : State) (v : List Event) : (s.withAgenda v).busy = s.busy := rfl
@[simp] theorem State.withAgenda_lpset (s : State) (v : List Event) : (s.withAgenda v).lpset = s.lpset := rfl
@[simp] theorem State.withAgenda_fill (s : State) (v : List Event) : (s.withAgenda v).fill = s.fill := rfl
@[simp] theorem State.withAgenda_byteAt (s : State) (v : List Event) (a : Nat) : (s.withAgenda v).byteAt a = s.byteAt a := rfl
@[simp] theorem State.withAgenda_memRead (s : State) (v : List Event) (a n : Nat) : (s.withAgenda v).memRead a n = s.memRead a n := rfl
@[simp] theorem State.withAgenda_memBit (s : State) (v : List Event) (b k : Nat) : (s.withAgenda v).memBit b k = s.memBit b k := rfl

/-! `State.withBus` -/

@[simp] theorem State.withBus_pset (s : State) (v : BusResponse) : (s.withBus v).pset = s.pset := rfl
@[simp] theorem State.withBus_doneie (s : State) (v : BusResponse) : (s.withBus v).doneie = s.doneie := rfl
@[simp] theorem State.withBus_status (s : State) (v : BusResponse) : (s.withBus v).status = s.status := rfl
@[simp] theorem State.withBus_opa (s : State) (v : BusResponse) : (s.withBus v).opa = s.opa := rfl
@[simp] theorem State.withBus_opb (s : State) (v : BusResponse) : (s.withBus v).opb = s.opb := rfl
@[simp] theorem State.withBus_res (s : State) (v : BusResponse) : (s.withBus v).res = s.res := rfl
@[simp] theorem State.withBus_addr0 (s : State) (v : BusResponse) : (s.withBus v).addr0 = s.addr0 := rfl
@[simp] theorem State.withBus_addr1 (s : State) (v : BusResponse) : (s.withBus v).addr1 = s.addr1 := rfl
@[simp] theorem State.withBus_len (s : State) (v : BusResponse) : (s.withBus v).len = s.len := rfl
@[simp] theorem State.withBus_inflight (s : State) (v : BusResponse) : (s.withBus v).inflight = s.inflight := rfl
@[simp] theorem State.withBus_lmem (s : State) (v : BusResponse) : (s.withBus v).lmem = s.lmem := rfl
@[simp] theorem State.withBus_lmemGen (s : State) (v : BusResponse) : (s.withBus v).lmemGen = s.lmemGen := rfl
@[simp] theorem State.withBus_draws (s : State) (v : BusResponse) : (s.withBus v).draws = s.draws := rfl
@[simp] theorem State.withBus_agenda (s : State) (v : BusResponse) : (s.withBus v).agenda = s.agenda := rfl
@[simp] theorem State.withBus_bus (s : State) (v : BusResponse) : (s.withBus v).bus = v := rfl
@[simp] theorem State.withBus_busy (s : State) (v : BusResponse) : (s.withBus v).busy = s.busy := rfl
@[simp] theorem State.withBus_lpset (s : State) (v : BusResponse) : (s.withBus v).lpset = s.lpset := rfl
@[simp] theorem State.withBus_fill (s : State) (v : BusResponse) : (s.withBus v).fill = s.fill := rfl
@[simp] theorem State.withBus_byteAt (s : State) (v : BusResponse) (a : Nat) : (s.withBus v).byteAt a = s.byteAt a := rfl
@[simp] theorem State.withBus_memRead (s : State) (v : BusResponse) (a n : Nat) : (s.withBus v).memRead a n = s.memRead a n := rfl
@[simp] theorem State.withBus_memBit (s : State) (v : BusResponse) (b k : Nat) : (s.withBus v).memBit b k = s.memBit b k := rfl

/-! The flag computations -/

@[simp] theorem statusLaunched_done (t : Status) : (statusLaunched t).done = false := rfl
@[simp] theorem statusLaunched_failed (t : Status) : (statusLaunched t).failed = false := rfl
@[simp] theorem statusLaunched_err (t : Status) : (statusLaunched t).err = false := rfl
@[simp] theorem statusLaunched_ovf (t : Status) : (statusLaunched t).ovf = t.ovf := rfl
@[simp] theorem statusLaunched_haz (t : Status) : (statusLaunched t).haz = t.haz := rfl
@[simp] theorem statusLaunched_errcode (t : Status) : (statusLaunched t).errcode = 0 := rfl

@[simp] theorem statusNormal_done (t : Status) : (statusNormal t).done = true := rfl
@[simp] theorem statusNormal_failed (t : Status) : (statusNormal t).failed = false := rfl
@[simp] theorem statusNormal_err (t : Status) : (statusNormal t).err = false := rfl
@[simp] theorem statusNormal_ovf (t : Status) : (statusNormal t).ovf = t.ovf := rfl
@[simp] theorem statusNormal_haz (t : Status) : (statusNormal t).haz = t.haz := rfl
@[simp] theorem statusNormal_errcode (t : Status) : (statusNormal t).errcode = 0 := rfl

@[simp] theorem statusFailed_done (t : Status) : (statusFailed t).done = true := rfl
@[simp] theorem statusFailed_failed (t : Status) : (statusFailed t).failed = true := rfl
@[simp] theorem statusFailed_err (t : Status) : (statusFailed t).err = false := rfl
@[simp] theorem statusFailed_ovf (t : Status) : (statusFailed t).ovf = t.ovf := rfl
@[simp] theorem statusFailed_haz (t : Status) : (statusFailed t).haz = t.haz := rfl
@[simp] theorem statusFailed_errcode (t : Status) : (statusFailed t).errcode = 0 := rfl

@[simp] theorem statusError_done (c : ErrorCode) (t : Status) : (statusError c t).done = true := rfl
@[simp] theorem statusError_failed (c : ErrorCode) (t : Status) : (statusError c t).failed = false := rfl
@[simp] theorem statusError_err (c : ErrorCode) (t : Status) : (statusError c t).err = true := rfl
@[simp] theorem statusError_ovf (c : ErrorCode) (t : Status) : (statusError c t).ovf = t.ovf := rfl
@[simp] theorem statusError_haz (c : ErrorCode) (t : Status) : (statusError c t).haz = t.haz := rfl
@[simp] theorem statusError_errcode (c : ErrorCode) (t : Status) : (statusError c t).errcode = errorValue c := rfl

@[simp] theorem statusHazard_done (t : Status) : (statusHazard t).done = t.done := rfl
@[simp] theorem statusHazard_failed (t : Status) : (statusHazard t).failed = t.failed := rfl
@[simp] theorem statusHazard_err (t : Status) : (statusHazard t).err = t.err := rfl
@[simp] theorem statusHazard_ovf (t : Status) : (statusHazard t).ovf = t.ovf := rfl
@[simp] theorem statusHazard_haz (t : Status) : (statusHazard t).haz = true := rfl
@[simp] theorem statusHazard_errcode (t : Status) : (statusHazard t).errcode = t.errcode := rfl

@[simp] theorem statusOverflow_done (t : Status) : (statusOverflow t).done = t.done := rfl
@[simp] theorem statusOverflow_failed (t : Status) : (statusOverflow t).failed = t.failed := rfl
@[simp] theorem statusOverflow_err (t : Status) : (statusOverflow t).err = t.err := rfl
@[simp] theorem statusOverflow_ovf (t : Status) : (statusOverflow t).ovf = true := rfl
@[simp] theorem statusOverflow_haz (t : Status) : (statusOverflow t).haz = t.haz := rfl
@[simp] theorem statusOverflow_errcode (t : Status) : (statusOverflow t).errcode = t.errcode := rfl

@[simp] theorem statusClear_done (v : Word) (t : Status) : (statusClear v t).done = (t.done && !v.getLsbD 1) := rfl
@[simp] theorem statusClear_failed (v : Word) (t : Status) : (statusClear v t).failed = t.failed := rfl
@[simp] theorem statusClear_err (v : Word) (t : Status) : (statusClear v t).err = t.err := rfl
@[simp] theorem statusClear_ovf (v : Word) (t : Status) : (statusClear v t).ovf = (t.ovf && !v.getLsbD 4) := rfl
@[simp] theorem statusClear_haz (v : Word) (t : Status) : (statusClear v t).haz = (t.haz && !v.getLsbD 5) := rfl
@[simp] theorem statusClear_errcode (v : Word) (t : Status) : (statusClear v t).errcode = t.errcode := rfl

end Sys2Proof.Machine
end

