-- ==== Sys2Proof/Laws/Memory.lean ====
section
/-! SUPPORT. What the LMEM operations do: a read after a write, the bytes a write leaves alone, the canonical form, the
little-endian values, the element arrays. The read and write laws hold for every list of cells, in canonical form or
not. -/

namespace Sys2Proof.Machine

/-! ### One written byte -/

@[simp] theorem writtenByte_nil (x : Nat) : writtenByte [] x = none := rfl

theorem writtenByte_cons (k : Nat) (b : Byte) (mem : Memory) (x : Nat) :
    writtenByte ((k, b) :: mem) x = if k < x then writtenByte mem x else if k = x then some b else none := by
  by_cases h : k < x <;> simp [writtenByte, cellsFrom, List.dropWhile, h]

theorem writtenByte_append_of_head_above (T R : Memory) (x : Nat) (h : ∀ c ∈ R.head?, x < c.1) :
    writtenByte (T ++ R) x = writtenByte T x := by
  induction T with
  | nil =>
    cases R with
    | nil => rfl
    | cons c R =>
      obtain ⟨k, b⟩ := c
      have hk : x < k := h (k, b) (by simp)
      simp [writtenByte_cons, Nat.not_lt.2 hk.le, Nat.ne_of_gt hk]
  | cons c T ih =>
    obtain ⟨k, b⟩ := c
    simp only [List.cons_append, writtenByte_cons, ih]

theorem writtenByte_append_of_all_below (T R : Memory) (x : Nat) (h : ∀ c ∈ T, c.1 < x) :
    writtenByte (T ++ R) x = writtenByte R x := by
  induction T with
  | nil => rfl
  | cons c T ih =>
    obtain ⟨k, b⟩ := c
    have hk : k < x := h (k, b) (by simp)
    rw [List.cons_append, writtenByte_cons, if_pos hk]
    exact ih fun c hc => h c (by simp [hc])

theorem writtenByte_cellsFrom (mem : Memory) {a x : Nat} (h : a ≤ x) :
    writtenByte (cellsFrom mem a) x = writtenByte mem x := by
  induction mem with
  | nil => rfl
  | cons c mem ih =>
    obtain ⟨k, b⟩ := c
    by_cases hk : k < a
    · have hx : k < x := lt_of_lt_of_le hk h
      simpa [cellsFrom, List.dropWhile, hk, writtenByte_cons, hx] using ih
    · simp [cellsFrom, List.dropWhile, hk]

theorem head_cellsFrom (mem : Memory) (a : Nat) : ∀ c ∈ (cellsFrom mem a).head?, a ≤ c.1 := by
  induction mem with
  | nil => simp [cellsFrom]
  | cons c mem ih =>
    by_cases hk : c.1 < a
    · simpa [cellsFrom, List.dropWhile, hk] using ih
    · simp [cellsFrom, List.dropWhile, hk, Nat.le_of_not_lt hk]

theorem mem_cellsBelow {mem : Memory} {a : Nat} {c : Host.Cell} (h : c ∈ cellsBelow mem a) : c.1 < a := by
  simpa using List.mem_takeWhile_imp h

theorem cellsBelow_append_cellsFrom (mem : Memory) (a : Nat) : cellsBelow mem a ++ cellsFrom mem a = mem :=
  List.takeWhile_append_dropWhile

theorem mem_cellsAt {a : Nat} {bs : List Byte} {c : Host.Cell} (h : c ∈ cellsAt a bs) :
    a ≤ c.1 ∧ c.1 < a + bs.length := by
  induction bs generalizing a with
  | nil => simp [cellsAt] at h
  | cons b bs ih =>
    rcases List.mem_cons.1 h with rfl | h
    · simp
    · have := ih h
      simp only [List.length_cons]
      omega

theorem writtenByte_cellsAt (bs : List Byte) (R : Memory) {a x : Nat} (h : a ≤ x) (hx : x < a + bs.length) :
    writtenByte (cellsAt a bs ++ R) x = some (bs.getD (x - a) 0) := by
  induction bs generalizing a with
  | nil => simp at hx; omega
  | cons b bs ih =>
    rw [cellsAt, List.cons_append, writtenByte_cons]
    rcases Nat.eq_or_lt_of_le h with rfl | h
    · simp
    · rw [if_pos h, ih h (by simp at hx; omega)]
      obtain ⟨d, rfl⟩ : ∃ d, x = a + 1 + d := ⟨x - (a + 1), by omega⟩
      have e1 : a + 1 + d - (a + 1) = d := by omega
      have e2 : a + 1 + d - a = d + 1 := by omega
      simp [e1, e2]

/-- A byte outside the stored range is as before. -/
theorem writtenByte_writeBytes_outside (mem : Memory) (a : Nat) (bs : List Byte) {x : Nat}
    (h : x < a ∨ a + bs.length ≤ x) : writtenByte (writeBytes mem a bs) x = writtenByte mem x := by
  rw [writeBytes]
  rcases h with h | h
  · have above : ∀ c ∈ (cellsAt a bs ++ cellsFrom mem (a + bs.length)).head?, x < c.1 := by
      intro c hc
      cases bs with
      | nil => exact lt_of_lt_of_le h (head_cellsFrom mem a c (by simpa [cellsAt] using hc))
      | cons b bs =>
        simp only [cellsAt, List.cons_append, List.head?_cons, Option.mem_some_iff] at hc
        simpa [← hc] using h
    rw [List.append_assoc, writtenByte_append_of_head_above _ _ _ above]
    conv_rhs => rw [← cellsBelow_append_cellsFrom mem a]
    rw [writtenByte_append_of_head_above]
    exact fun c hc => lt_of_lt_of_le h (head_cellsFrom mem a c hc)
  · rw [writtenByte_append_of_all_below, writtenByte_cellsFrom _ h]
    intro c hc
    rcases List.mem_append.1 hc with hc | hc
    · have := mem_cellsBelow hc; omega
    · have := mem_cellsAt hc; omega

/-- A byte inside the stored range is the stored one. -/
theorem writtenByte_writeBytes_inside (mem : Memory) (a : Nat) (bs : List Byte) {x : Nat} (h : a ≤ x)
    (hx : x < a + bs.length) : writtenByte (writeBytes mem a bs) x = some (bs.getD (x - a) 0) := by
  rw [writeBytes, List.append_assoc, writtenByte_append_of_all_below _ _ _
    (fun c hc => lt_of_lt_of_le (mem_cellsBelow hc) h), writtenByte_cellsAt _ _ h hx]

/-! ### The bytes of a state -/

@[simp] theorem State.storeBytes_busy (s : State) (a : Nat) (bs : List Byte) : (s.storeBytes a bs).busy = s.busy := rfl
@[simp] theorem State.storeBytes_fill (s : State) (a : Nat) (bs : List Byte) : (s.storeBytes a bs).fill = s.fill := rfl

/-- A store leaves every byte outside its range as it was. -/
theorem State.byteAt_storeBytes_outside (s : State) (a : Nat) (bs : List Byte) {x : Nat}
    (h : x < a ∨ a + bs.length ≤ x) : (s.storeBytes a bs).byteAt x = s.byteAt x := by
  show (writtenByte (writeBytes s.lmem a bs) x).getD _ = _
  rw [writtenByte_writeBytes_outside _ _ _ h]; rfl

/-- A stored byte reads back. -/
theorem State.byteAt_storeBytes_inside (s : State) (a : Nat) (bs : List Byte) {x : Nat} (h : a ≤ x)
    (hx : x < a + bs.length) : (s.storeBytes a bs).byteAt x = bs.getD (x - a) 0 := by
  show (writtenByte (writeBytes s.lmem a bs) x).getD _ = _
  rw [writtenByte_writeBytes_inside _ _ _ h hx]; rfl

theorem readBytes_eq_map (fill : Nat → Byte) (mem : Memory) (a n : Nat) :
    readBytes fill mem a n = (List.range n).map (fun i => byteOr fill mem (a + i)) := by
  induction n generalizing mem a with
  | zero => rfl
  | succ n ih =>
    have tail : ∀ mem' : Memory, (∀ x, a + 1 ≤ x → writtenByte mem' x = writtenByte mem x) →
        readBytes fill mem' (a + 1) n = (List.range n).map (fun i => byteOr fill mem (a + (i + 1))) := by
      intro mem' h
      rw [ih]
      refine List.map_congr_left fun i _ => ?_
      rw [byteOr, byteOr, h _ (by omega), show a + 1 + i = a + (i + 1) by omega]
    rw [List.range_succ_eq_map, List.map_cons, List.map_map]
    have hm : ∀ x, a ≤ x → writtenByte mem x = writtenByte (cellsFrom mem a) x :=
      fun x hx => (writtenByte_cellsFrom mem hx).symm
    rw [readBytes]
    split
    · next e =>
      have h0 : ∀ x, a ≤ x → writtenByte mem x = none := fun x hx => by rw [hm x hx, e]; rfl
      rw [tail [] (fun x hx => by rw [h0 x (by omega)]; rfl)]
      simp [byteOr, h0, Function.comp_def]
    · next k b rest e =>
      have hk : a ≤ k := head_cellsFrom mem a (k, b) (by simp [e])
      split
      · next e' =>
        subst e'
        rw [tail rest (fun x hx => by rw [hm x (by omega), e, writtenByte_cons, if_pos (by omega)])]
        have : writtenByte mem k = some b := by rw [hm k le_rfl, e, writtenByte_cons]; simp
        simp [byteOr, this, Function.comp_def]
      · next e' =>
        rw [tail _ (fun x hx => by rw [hm x (by omega), e])]
        have : writtenByte mem a = none := by
          rw [hm a le_rfl, e, writtenByte_cons, if_neg (by omega), if_neg (by omega)]
        simp [byteOr, this, Function.comp_def]

@[simp] theorem length_readBytes (fill : Nat → Byte) (mem : Memory) (a n : Nat) :
    (readBytes fill mem a n).length = n := by
  simp [readBytes_eq_map]

theorem State.memRead_eq (s : State) (a n : Nat) :
    s.memRead a n = bytesToNat ((List.range n).map (fun i => s.byteAt (a + i))) := by
  rw [State.memRead, readBytes_eq_map]; rfl

/-- Two states that read alike on a range give the same value there. -/
theorem State.memRead_congr {s t : State} {a n : Nat} (h : ∀ x, a ≤ x → x < a + n → t.byteAt x = s.byteAt x) :
    t.memRead a n = s.memRead a n := by
  rw [State.memRead_eq, State.memRead_eq]
  congr 1
  exact List.map_congr_left fun i hi => h _ (by omega) (by simp at hi; omega)

/-! ### Little-endian values -/

@[simp] theorem length_natToBytes (n v : Nat) : (natToBytes n v).length = n := by
  induction n generalizing v with
  | zero => rfl
  | succ n ih => simp [natToBytes, ih]

theorem bytesToNat_lt (bs : List Byte) : bytesToNat bs < 256 ^ bs.length := by
  induction bs with
  | nil => simp [bytesToNat]
  | cons b bs ih =>
    have := b.isLt
    rw [bytesToNat, List.length_cons, Nat.pow_succ]
    omega

/-- The value of the n low bytes of v. -/
theorem bytesToNat_natToBytes (n v : Nat) : bytesToNat (natToBytes n v) = v % 256 ^ n := by
  induction n generalizing v with
  | zero => simp [natToBytes, bytesToNat, Nat.mod_one]
  | succ n ih =>
    rw [natToBytes, bytesToNat, ih, BitVec.toNat_ofNat, Nat.pow_succ' (m := 256), Nat.mod_mul]

theorem natToBytes_bytesToNat (bs : List Byte) : natToBytes bs.length (bytesToNat bs) = bs := by
  induction bs with
  | nil => rfl
  | cons b bs ih =>
    have h := b.isLt
    rw [List.length_cons, natToBytes, bytesToNat, show (b.toNat + 256 * bytesToNat bs) / 256 = bytesToNat bs by omega, ih]
    congr 1
    apply BitVec.eq_of_toNat_eq
    simp; omega

theorem getD_natToBytes (n v i : Nat) : (natToBytes n v).getD i 0 = if i < n then BitVec.ofNat 8 (v / 256 ^ i) else 0 := by
  induction n generalizing v i with
  | zero => simp [natToBytes]
  | succ n ih =>
    cases i with
    | zero => simp [natToBytes]
    | succ i =>
      rw [natToBytes, List.getD_cons_succ, ih, Nat.pow_succ' (m := 256), Nat.div_div_eq_div_mul]
      simp

theorem testBit_bytesToNat (bs : List Byte) (k : Nat) :
    (bytesToNat bs).testBit k = (bs.getD (k / 8) 0).getLsbD (k % 8) := by
  induction bs generalizing k with
  | nil => simp [bytesToNat]
  | cons b bs ih =>
    have hb : b.toNat < 2 ^ 8 := b.isLt
    rw [bytesToNat, Nat.add_comm, show 256 * bytesToNat bs = 2 ^ 8 * bytesToNat bs by norm_num,
      Nat.testBit_two_pow_mul_add _ hb]
    by_cases h : k < 8
    · rw [if_pos h, Nat.div_eq_of_lt h, Nat.mod_eq_of_lt h]
      simp [BitVec.getLsbD]
    · obtain ⟨j, rfl⟩ : ∃ j, k = j + 8 := ⟨k - 8, by omega⟩
      simp [ih]

/-- Bit k of a value read from LMEM is `MemBit` (20_memory.md R67). -/
theorem State.testBit_memRead (s : State) (a n k : Nat) :
    (s.memRead a n).testBit k = (decide (k < 8 * n) && s.memBit a k) := by
  rw [State.memRead_eq, testBit_bytesToNat, State.memBit]
  by_cases h : k < 8 * n
  · have : k / 8 < n := by omega
    simp [List.getD_eq_getElem?_getD, this, h]
  · have : ¬ k / 8 < n := by omega
    simp [List.getD_eq_getElem?_getD, this, h]

/-- A stored value's bits read back by `MemBit` (00_scope.md R13). -/
theorem State.memBit_storeBytes_natToBytes (s : State) (a n v : Nat) {k : Nat} (h : k < 8 * n) :
    (s.storeBytes a (natToBytes n v)).memBit a k = v.testBit k := by
  have hk : k / 8 < n := by omega
  rw [State.memBit, State.byteAt_storeBytes_inside _ _ _ (by omega) (by simp; omega), Nat.add_sub_cancel_left,
    getD_natToBytes, if_pos hk, BitVec.getLsbD_ofNat, show (256 : Nat) = 2 ^ 8 by norm_num, ← Nat.pow_mul,
    Nat.testBit_div_two_pow, Nat.mod_add_div]
  simp [Nat.mod_lt k (by norm_num : 0 < 8)]

/-- A stored value reads back, cut to its bytes. -/
theorem State.memRead_storeBytes_natToBytes (s : State) (a n v : Nat) :
    (s.storeBytes a (natToBytes n v)).memRead a n = v % 256 ^ n := by
  rw [← bytesToNat_natToBytes, State.memRead_eq]
  congr 1
  apply List.ext_getElem (by simp)
  intro i h _
  have hi : i < n := by simpa using h
  rw [List.getElem_map, List.getElem_range, State.byteAt_storeBytes_inside _ _ _ (by omega) (by simp; omega),
    Nat.add_sub_cancel_left, List.getD_eq_getElem?_getD, List.getElem?_eq_getElem (by simpa using hi)]
  rfl

/-! ### Element arrays (20_memory.md R67) -/

@[simp] theorem length_toElems (size n : Nat) (bs : List Byte) : (toElems size n bs).length = n := by
  induction n generalizing bs with
  | zero => rfl
  | succ n ih => simp [toElems, ih]

@[simp] theorem State.length_readElems (s : State) (a size n : Nat) : (s.readElems a size n).length = n := by
  simp [State.readElems]

theorem toElems_eq_map (size n : Nat) (bs : List Byte) :
    toElems size n bs = (List.range n).map (fun i => bytesToNat ((bs.drop (size * i)).take size)) := by
  induction n generalizing bs with
  | zero => rfl
  | succ n ih =>
    rw [List.range_succ_eq_map, List.map_cons, List.map_map, toElems, ih]
    simp [Function.comp_def, List.drop_drop, Nat.mul_succ, Nat.add_comm]

/-- Element i of an array at a is at a + size * i (20_memory.md R67). -/
theorem State.readElems_eq_map (s : State) (a size n : Nat) :
    s.readElems a size n = (List.range n).map (fun i => s.memRead (a + size * i) size) := by
  rw [State.readElems, toElems_eq_map]
  refine List.map_congr_left fun i hi => ?_
  have hi : i < n := by simpa using hi
  have hsz : size * i + size ≤ size * n := by
    have := Nat.mul_le_mul_left size (Nat.succ_le_of_lt hi); rwa [Nat.mul_succ] at this
  rw [State.memRead_eq, readBytes_eq_map]
  congr 1
  apply List.ext_getElem
  · simp; omega
  · intro j h1 h2
    simp [State.byteAt, Nat.add_assoc]

@[simp] theorem length_elemBytes (size : Nat) (vs : List Nat) : (elemBytes size vs).length = size * vs.length := by
  induction vs with
  | nil => rfl
  | cons v vs ih =>
    rw [elemBytes, List.flatMap_cons, List.length_append, length_natToBytes, ← elemBytes, ih, List.length_cons,
      Nat.mul_succ, Nat.add_comm]

theorem toElems_elemBytes (size : Nat) (vs : List Nat) :
    toElems size vs.length (elemBytes size vs) = vs.map (· % 256 ^ size) := by
  induction vs with
  | nil => rfl
  | cons v vs ih =>
    rw [elemBytes, List.flatMap_cons, ← elemBytes, List.length_cons, toElems, List.take_left' (length_natToBytes size v),
      List.drop_left' (length_natToBytes size v), ih, bytesToNat_natToBytes, List.map_cons]

/-- The bytes of a range that was just stored. -/
theorem readBytes_storeBytes (s : State) (a : Nat) (bs : List Byte) :
    readBytes (s.storeBytes a bs).fill (s.storeBytes a bs).lmem a bs.length = bs := by
  rw [readBytes_eq_map]
  apply List.ext_getElem (by simp)
  intro i h _
  have hi : i < bs.length := by simpa using h
  rw [List.getElem_map, List.getElem_range]
  have := State.byteAt_storeBytes_inside s a bs (x := a + i) (by omega) (by omega)
  rw [Nat.add_sub_cancel_left, List.getD_eq_getElem?_getD, List.getElem?_eq_getElem hi] at this
  exact this

/-- A stored array reads back, each element cut to its bytes. -/
theorem State.readElems_storeBytes_elemBytes (s : State) (a size : Nat) (vs : List Nat) :
    (s.storeBytes a (elemBytes size vs)).readElems a size vs.length = vs.map (· % 256 ^ size) := by
  rw [State.readElems, ← length_elemBytes, readBytes_storeBytes, toElems_elemBytes]

/-- Element r of a stored array reads back, cut to its bytes. -/
theorem State.memRead_storeBytes_elemBytes (s : State) (a size : Nat) (vs : List Nat) {r : Nat} (h : r < vs.length) :
    (s.storeBytes a (elemBytes size vs)).memRead (a + size * r) size = vs[r] % 256 ^ size := by
  have e := s.readElems_storeBytes_elemBytes a size vs
  rw [State.readElems_eq_map] at e
  have := congrArg (fun l => l[r]?) e
  simpa [h] using this

/-- Bit c of element r of a stored array (00_scope.md R13). -/
theorem State.memBit_storeBytes_elemBytes (s : State) (a size : Nat) (vs : List Nat) {r c : Nat} (h : r < vs.length)
    (hc : c < 8 * size) : (s.storeBytes a (elemBytes size vs)).memBit (a + size * r) c = vs[r].testBit c := by
  have e := State.testBit_memRead (s.storeBytes a (elemBytes size vs)) (a + size * r) size c
  rw [State.memRead_storeBytes_elemBytes _ _ _ _ h, show (256 : Nat) = 2 ^ 8 by norm_num, ← Nat.pow_mul,
    Nat.testBit_mod_two_pow] at e
  simpa [hc] using e.symm

/-- Two states that read alike on an array's range hold the same elements there. -/
theorem State.readElems_congr {s t : State} {a size n : Nat}
    (h : ∀ x, a ≤ x → x < a + size * n → t.byteAt x = s.byteAt x) : t.readElems a size n = s.readElems a size n := by
  rw [State.readElems, State.readElems, readBytes_eq_map, readBytes_eq_map]
  congr 1
  exact List.map_congr_left fun i hi => h _ (by omega) (by simp at hi; omega)

/-! ### The canonical form -/

theorem risingFrom_append (lo mid : Nat) (T R : Memory) (hT : risingFrom lo T = true) (hR : risingFrom mid R = true)
    (hlo : lo ≤ mid) (hmid : ∀ c ∈ T, c.1 < mid) : risingFrom lo (T ++ R) = true := by
  induction T generalizing lo with
  | nil =>
    cases R with
    | nil => rfl
    | cons c R =>
      simp only [List.nil_append, risingFrom, Bool.and_eq_true, decide_eq_true_eq] at hR ⊢
      exact ⟨hlo.trans hR.1, hR.2⟩
  | cons c T ih =>
    simp only [List.cons_append, risingFrom, Bool.and_eq_true, decide_eq_true_eq] at hT ⊢
    exact ⟨hT.1, ih (c.1 + 1) hT.2 (hmid c (by simp)) fun c' hc' => hmid c' (by simp [hc'])⟩

theorem risingFrom_cellsAt (a : Nat) (bs : List Byte) : risingFrom a (cellsAt a bs) = true := by
  induction bs generalizing a with
  | nil => rfl
  | cons b bs ih => simp [cellsAt, risingFrom, ih]

theorem risingFrom_cellsBelow (lo a : Nat) (mem : Memory) (h : risingFrom lo mem = true) :
    risingFrom lo (cellsBelow mem a) = true := by
  induction mem generalizing lo with
  | nil => rfl
  | cons c mem ih =>
    simp only [risingFrom, Bool.and_eq_true, decide_eq_true_eq] at h
    by_cases hk : c.1 < a
    · simpa [cellsBelow, List.takeWhile, hk, risingFrom, h.1] using ih _ h.2
    · simp [cellsBelow, List.takeWhile, hk, risingFrom]

theorem risingFrom_cellsFrom (lo a : Nat) (mem : Memory) (h : risingFrom lo mem = true) :
    risingFrom a (cellsFrom mem a) = true := by
  induction mem generalizing lo with
  | nil => rfl
  | cons c mem ih =>
    simp only [risingFrom, Bool.and_eq_true, decide_eq_true_eq] at h
    by_cases hk : c.1 < a
    · simpa [cellsFrom, List.dropWhile, hk] using ih _ h.2
    · simp [cellsFrom, List.dropWhile, hk, risingFrom, h.2, Nat.le_of_not_lt hk]

/-- A store inside LMEM keeps the canonical form. -/
theorem Memory.wf_writeBytes {mem : Memory} {a : Nat} {bs : List Byte} (h : Memory.wf mem = true)
    (hr : a + bs.length ≤ lmemBytes) : Memory.wf (writeBytes mem a bs) = true := by
  simp only [Memory.wf, Bool.and_eq_true, List.all_eq_true, decide_eq_true_eq] at h ⊢
  refine ⟨?_, fun c hc => ?_⟩
  · rw [writeBytes, List.append_assoc]
    refine risingFrom_append 0 a _ _ (risingFrom_cellsBelow 0 a mem h.1) ?_ (Nat.zero_le _) fun c hc => mem_cellsBelow hc
    exact risingFrom_append a _ _ _ (risingFrom_cellsAt a bs) (risingFrom_cellsFrom 0 _ mem h.1) (by omega)
      fun c hc => (mem_cellsAt hc).2
  · rw [writeBytes, List.append_assoc] at hc
    rcases List.mem_append.1 hc with hc | hc
    · exact h.2 c (by rw [← cellsBelow_append_cellsFrom mem a]; exact List.mem_append_left _ hc)
    · rcases List.mem_append.1 hc with hc | hc
      · have := mem_cellsAt hc; omega
      · exact h.2 c (by rw [← cellsBelow_append_cellsFrom mem (a + bs.length)]; exact List.mem_append_right _ hc)

/-- The draw of a failed reduction keeps the canonical form. -/
theorem State.wf_drawRegion {s : State} {a n : Nat} (h : Memory.wf s.lmem = true) (hr : a + n ≤ lmemBytes) :
    Memory.wf (s.drawRegion a n).lmem = true :=
  Memory.wf_writeBytes h (by simpa using hr)

/-- Memory with nothing listed is in canonical form. -/
theorem Memory.wf_nil : Memory.wf [] = true := rfl

end Sys2Proof.Machine
end

