-- ==== Sys2Proof/Laws/Completion.lean ====
section
/-! SUPPORT. What completion, the command templates, the host port and the step can do, each said once. -/

namespace Sys2Proof.Machine

open Sys2Proof.Config

/-! ### Completion -/

/-- Whatever its outcome, a command leaves the operand registers, CFG, IRQEN and the events to come alone. -/
theorem State.finish_operandsKept (s : State) (e : CommandEnd) : OperandsKept s (s.finish e) := by
  cases e <;> exact ⟨rfl, rfl, rfl, rfl, rfl, rfl, rfl, rfl, rfl, rfl⟩

/-- An error records its code and changes nothing else (60_exceptions.md R224, R228). -/
theorem State.finish_error (s : State) (c : ErrorCode) :
    EndedAs s (s.finish (.error c)) false true (errorValue c) ∧ OnlyStatusChanged s (s.finish (.error c)) :=
  ⟨⟨rfl, rfl, rfl, rfl, rfl, rfl, rfl⟩, ⟨s.finish_operandsKept _, rfl, rfl, rfl⟩⟩

/-- A failure that writes nothing (60_exceptions.md R225). -/
theorem State.finish_fail (s : State) :
    EndedAs s (s.finish .fail) true false 0 ∧ OnlyStatusChanged s (s.finish .fail) :=
  ⟨⟨rfl, rfl, rfl, rfl, rfl, rfl, rfl⟩, ⟨s.finish_operandsKept _, rfl, rfl, rfl⟩⟩

/-- A normal end that writes nothing (60_exceptions.md R227). -/
theorem State.finish_normal (s : State) :
    EndedAs s (s.finish .normal) false false 0 ∧ OnlyStatusChanged s (s.finish .normal) :=
  ⟨⟨rfl, rfl, rfl, rfl, rfl, rfl, rfl⟩, ⟨s.finish_operandsKept _, rfl, rfl, rfl⟩⟩

/-- A normal end with a result in RES (40_field.md R114). -/
theorem State.finish_result (s : State) (v : Word) :
    EndedAs s (s.finish (.result v)) false false 0 ∧ (s.finish (.result v)).res = v ∧
      (s.finish (.result v)).lmem = s.lmem ∧ (s.finish (.result v)).draws = s.draws :=
  ⟨⟨rfl, rfl, rfl, rfl, rfl, rfl, rfl⟩, rfl, rfl, rfl⟩

@[simp] theorem State.finish_store_byteAt (s : State) (a : Nat) (bs : List Byte) (x : Nat) :
    (s.finish (.store a bs)).byteAt x = (s.storeBytes a bs).byteAt x := rfl

@[simp] theorem State.finish_store_memRead (s : State) (a : Nat) (bs : List Byte) (x n : Nat) :
    (s.finish (.store a bs)).memRead x n = (s.storeBytes a bs).memRead x n := rfl

@[simp] theorem State.finish_store_memBit (s : State) (a : Nat) (bs : List Byte) (x k : Nat) :
    (s.finish (.store a bs)).memBit x k = (s.storeBytes a bs).memBit x k := rfl

@[simp] theorem State.finish_store_readElems (s : State) (a : Nat) (bs : List Byte) (x size n : Nat) :
    (s.finish (.store a bs)).readElems x size n = (s.storeBytes a bs).readElems x size n := rfl

/-- A normal end with bytes stored: the bytes outside the region and RES are kept. -/
theorem State.finish_store (s : State) (a : Nat) (bs : List Byte) :
    EndedAs s (s.finish (.store a bs)) false false 0 ∧ (s.finish (.store a bs)).res = s.res ∧
      (s.finish (.store a bs)).lmem = writeBytes s.lmem a bs ∧
      LmemKeptOutside s (s.finish (.store a bs)) a bs.length :=
  ⟨⟨rfl, rfl, rfl, rfl, rfl, rfl, rfl⟩, rfl, rfl, fun _ h => s.byteAt_storeBytes_outside a bs h⟩

/-- A failure that leaves a region unspecified (44_gauss.md R193). -/
theorem State.finish_failUnspecified (s : State) (a n : Nat) :
    EndedAs s (s.finish (.failUnspecified a n)) true false 0 ∧ (s.finish (.failUnspecified a n)).res = s.res ∧
      LmemKeptOutside s (s.finish (.failUnspecified a n)) a n :=
  ⟨⟨rfl, rfl, rfl, rfl, rfl, rfl, rfl⟩, rfl, fun _ h => s.byteAt_storeBytes_outside a _ (by simpa using h)⟩

/-! ### The rule of each command, and exec -/

/-- How a command ends from a state. -/
def commandEnd (i : Instr) (s : State) : CommandEnd :=
  match i with
  | .nop => .normal
  | .gfAdd => s.fieldBinary (fun _ => gfAdd)
  | .gfMul => s.fieldBinary gfMul
  | .gfSq => s.fieldUnary gfSq
  | .gfSq4 => s.fieldUnary gfSq4
  | .gfInv => s.fieldUnary gfInv
  | .gfDiv => s.fieldBinary gfDiv
  | .sort32 => s.sortCommand 4 sortSigned32
  | .sort64 => s.sortCommand 8 sortUnsigned
  | .minpoly => s.minpolyCommand
  | .benes => s.benesCommand
  | .transpose64 => s.transposeCommand
  | .geReduce => s.geReduceCommand
  | .geExtract => s.geExtractCommand
  | .zero => s.zeroCommand

/-- Every command completes: exec never faults and never refuses. -/
theorem exec_eq_finish (i : Instr) (s : State) : exec i s = .next (s.finish (commandEnd i s)) := by
  cases i <;> rfl

/-- A command that uses a parameter set: ECFG where PSET is reserved, else its rule (10_state.md R43). -/
theorem State.withParams_cases (s : State) (k : ParamSet → CommandEnd) :
    (paramRow s.lpset = none ∧ s.withParams k = .error .ecfg) ∨
      ∃ P, paramRow s.lpset = some P ∧ s.withParams k = k P := by
  rw [State.withParams]
  cases h : paramRow s.lpset with
  | none => exact .inl ⟨rfl, rfl⟩
  | some P => exact .inr ⟨P, rfl, rfl⟩

/-- With the parameter set known, the rule runs. -/
theorem State.withParams_of_some {s : State} {P : ParamSet} (h : paramRow s.lpset = some P)
    (k : ParamSet → CommandEnd) : s.withParams k = k P := by
  rw [State.withParams, h]

/-- The unary field template (40_field.md R114). -/
theorem State.fieldUnary_cases (s : State) (body : FieldSpec → Nat → Nat) :
    (paramRow s.lpset = none ∧ s.fieldUnary body = .error .ecfg) ∨
      ∃ P, paramRow s.lpset = some P ∧
        ((¬ s.opa.toNat < 2 ^ P.field.m ∧ s.fieldUnary body = .error .edomain) ∨
          (s.opa.toNat < 2 ^ P.field.m ∧ s.fieldUnary body = .result (BitVec.ofNat 32 (body P.field s.opa.toNat)))) := by
  rcases s.withParams_cases (fun P =>
    if canonical P.field s.opa.toNat then .result (BitVec.ofNat 32 (body P.field s.opa.toNat))
    else .error .edomain) with h | ⟨P, hP, h⟩
  · exact .inl h
  · refine .inr ⟨P, hP, ?_⟩
    by_cases hc : s.opa.toNat < 2 ^ P.field.m
    · exact .inr ⟨hc, h.trans (by simp [canonical, hc])⟩
    · exact .inl ⟨hc, h.trans (by simp [canonical, hc])⟩

/-- The binary field template (40_field.md R114). -/
theorem State.fieldBinary_cases (s : State) (body : FieldSpec → Nat → Nat → Nat) :
    (paramRow s.lpset = none ∧ s.fieldBinary body = .error .ecfg) ∨
      ∃ P, paramRow s.lpset = some P ∧
        ((¬ (s.opa.toNat < 2 ^ P.field.m ∧ s.opb.toNat < 2 ^ P.field.m) ∧ s.fieldBinary body = .error .edomain) ∨
          ((s.opa.toNat < 2 ^ P.field.m ∧ s.opb.toNat < 2 ^ P.field.m) ∧
            s.fieldBinary body = .result (BitVec.ofNat 32 (body P.field s.opa.toNat s.opb.toNat)))) := by
  rcases s.withParams_cases (fun P =>
    if canonical P.field s.opa.toNat && canonical P.field s.opb.toNat then
      .result (BitVec.ofNat 32 (body P.field s.opa.toNat s.opb.toNat))
    else .error .edomain) with h | ⟨P, hP, h⟩
  · exact .inl h
  · refine .inr ⟨P, hP, ?_⟩
    by_cases hc : s.opa.toNat < 2 ^ P.field.m ∧ s.opb.toNat < 2 ^ P.field.m
    · exact .inr ⟨hc, h.trans (by simp [canonical, hc])⟩
    · exact .inl ⟨hc, h.trans (if_neg (by simpa [canonical] using hc))⟩

/-- The sort template (41_sort.md R131, R132). -/
theorem State.sortCommand_cases (s : State) (size : Nat) (sort : List Nat → List Nat) :
    (aligned s.addr0.toNat size = false ∧ s.sortCommand size sort = .error .ealign) ∨
      (aligned s.addr0.toNat size = true ∧ inRange s.addr0.toNat (size * s.len.toNat) = false ∧
        s.sortCommand size sort = .error .eaddr) ∨
      (aligned s.addr0.toNat size = true ∧ inRange s.addr0.toNat (size * s.len.toNat) = true ∧
        s.sortCommand size sort =
          .store s.addr0.toNat (elemBytes size (sort (s.readElems s.addr0.toNat size s.len.toNat)))) := by
  cases h1 : aligned s.addr0.toNat size <;> cases h2 : inRange s.addr0.toNat (size * s.len.toNat) <;>
    simp [State.sortCommand, h1, h2]

/-! ### The step -/

theorem step_of_empty_agenda {s : State} (h : s.agenda = []) : step s = s.sequencerTurn := by
  rw [step, h]

theorem step_of_sequencer {s : State} {rest : List Event} (h : s.agenda = .sequencer :: rest) :
    step s = (s.withAgenda rest).sequencerTurn := by
  rw [step, h]

theorem step_of_access {s : State} {a : HostAccess} {rest : List Event} (h : s.agenda = .access a :: rest) :
    step s = (s.withAgenda rest).hostAccess a := by
  rw [step, h]

theorem step_of_rst {s : State} {rest : List Event} (h : s.agenda = .rst :: rest) :
    step s = .next (s.withAgenda rest).resetInput := by
  rw [step, h]

/-- Setting the agenda to itself. -/
@[simp] theorem State.withAgenda_self (s : State) : s.withAgenda s.agenda = s := rfl

/-- A sequencer's turn, wherever it comes from. -/
theorem State.sequencerMoves.step_eq {s : State} {rest : List Event} (h : s.sequencerMoves rest) :
    step s = (s.withAgenda rest).sequencerTurn := by
  rcases h with ⟨h, rfl⟩ | h
  · rw [step_of_empty_agenda h, ← h, State.withAgenda_self]
  · exact step_of_sequencer h

/-- The sequencer's turn with a command in flight. -/
theorem State.sequencerTurn_of_inflight {s : State} {l : InFlight} (h : s.inflight = some l) :
    s.sequencerTurn = s.complete l.word := by
  rw [State.sequencerTurn, h]

/-- The sequencer's turn with the block idle. -/
theorem State.sequencerTurn_of_idle {s : State} (h : s.inflight = none) : s.sequencerTurn = .next s := by
  rw [State.sequencerTurn, h]

/-- A completion always answers a next state, by `finish`. -/
theorem State.complete_eq_finish (s : State) (v : Word) : ∃ e, s.complete v = .next (s.finish e) := by
  rw [State.complete]
  split
  · exact ⟨_, exec_eq_finish _ s⟩
  · exact ⟨_, rfl⟩

/-- The four standard widths (20_memory.md R62, R63). -/
theorem standard_bytes {w : Width} (h : w.standard = true) : w.bytes = 1 ∨ w.bytes = 2 ∨ w.bytes = 4 ∨ w.bytes = 8 := by
  simpa [Width.standard] using h

/-- What the reserved region and the LMEM window take (20_memory.md R62, R63; log 24). -/
@[simp] theorem naturalAccess_iff (o : Nat) (w : Width) :
    naturalAccess o w = true ↔ w.standard = true ∧ o % w.bytes = 0 := by
  simp [naturalAccess, aligned]

/-- The region an offset lies in, with its bounds (20_memory.md R60). -/
theorem regionOf_cases (o : Nat) :
    (o < 0x1000 ∧ regionOf o = some .registerPage) ∨
      (0x1000 ≤ o ∧ o < 0x400000 ∧ regionOf o = some .reserved) ∨
      (0x400000 ≤ o ∧ o < 0x800000 ∧ regionOf o = some (.lmemWindow (o - 0x400000))) ∨
      (0x800000 ≤ o ∧ regionOf o = none) := by
  unfold regionOf apertureBytes
  by_cases h1 : o < 0x1000
  · simp [h1]
  · by_cases h2 : o < 0x400000
    · simp [h1, h2]; omega
    · by_cases h3 : o < 0x800000 <;> simp [h1, h2, h3] <;> omega

end Sys2Proof.Machine
end

