-- ==== Sys2Proof/Laws/Field.lean ====
section
/-! SUPPORT. Small facts about the field operations: zero, one, and what a reduction leaves alone. -/

namespace Sys2Proof.Machine

open Sys2Proof.Config

theorem clmul_zero_left (m b : Nat) : clmul m 0 b = 0 := by
  have : ∀ (l : List Nat), l.foldl (fun p i => if b.testBit i then p ^^^ (0 <<< i) else p) 0 = 0 := by
    intro l
    induction l with
    | nil => rfl
    | cons i l ih => simp
  exact this _

theorem clmul_zero_right (m a : Nat) : clmul m a 0 = 0 := by
  have : ∀ (l : List Nat), l.foldl (fun p i => if (0 : Nat).testBit i then p ^^^ (a <<< i) else p) 0 = 0 := by
    intro l
    induction l with
    | nil => rfl
    | cons i l ih => simp
  exact this _

theorem clmul_one_right (m a : Nat) (h : 0 < m) : clmul m a 1 = a := by
  obtain ⟨n, rfl⟩ : ∃ n, m = n + 1 := ⟨m - 1, by omega⟩
  have : ∀ (l : List Nat) (p : Nat), (∀ i ∈ l, i ≠ 0) →
      l.foldl (fun p i => if (1 : Nat).testBit i then p ^^^ (a <<< i) else p) p = p := by
    intro l
    induction l with
    | nil => intro p _; rfl
    | cons i l ih =>
      intro p hl
      have hi : (1 : Nat).testBit i = false :=
        Nat.testBit_lt_two_pow (Nat.one_lt_two_pow (hl i (by simp)))
      simpa [hi] using ih p fun j hj => hl j (by simp [hj])
  rw [clmul, List.range_succ_eq_map, List.foldl_cons, this]
  · simp
  · intro i hi
    obtain ⟨j, _, rfl⟩ := List.mem_map.1 hi
    exact Nat.succ_ne_zero j

/-- A value below 2^m is already reduced (40_field.md R112). -/
theorem reduceField_of_lt (F : FieldSpec) {p : Nat} (h : p < 2 ^ F.m) : reduceField F p = p := by
  have : ∀ (l : List Nat), (∀ k ∈ l, F.m ≤ k) →
      l.foldl (fun p k => if p.testBit k then p ^^^ (F.modulus <<< (k - F.m)) else p) p = p := by
    intro l
    induction l with
    | nil => intro _; rfl
    | cons k l ih =>
      intro hl
      have hk : p.testBit k = false :=
        Nat.testBit_lt_two_pow (lt_of_lt_of_le h (Nat.pow_le_pow_right (by norm_num) (hl k (by simp))))
      simpa [hk] using ih fun j hj => hl j (by simp [hj])
  refine this _ fun k hk => ?_
  obtain ⟨j, _, rfl⟩ := List.mem_map.1 hk
  exact Nat.le_add_right _ _

@[simp] theorem gfMul_zero_left (F : FieldSpec) (b : Nat) : gfMul F 0 b = 0 := by
  rw [gfMul, clmul_zero_left, reduceField_of_lt F (Nat.two_pow_pos _)]

@[simp] theorem gfMul_zero_right (F : FieldSpec) (a : Nat) : gfMul F a 0 = 0 := by
  rw [gfMul, clmul_zero_right, reduceField_of_lt F (Nat.two_pow_pos _)]

theorem gfMul_one_right (F : FieldSpec) {a : Nat} (hm : 0 < F.m) (h : a < 2 ^ F.m) : gfMul F a 1 = a := by
  rw [gfMul, clmul_one_right _ _ hm, reduceField_of_lt F h]

@[simp] theorem gfAdd_zero_right (a : Nat) : gfAdd a 0 = a := Nat.xor_zero a

@[simp] theorem gfAdd_zero_left (a : Nat) : gfAdd 0 a = a := Nat.zero_xor a

end Sys2Proof.Machine
end

