-- ==== Sys2Proof/Laws/PerInstr.lean ====
section
/-! SUPPORT. Facts for all commands, one lemma per constructor of Instr. -/

namespace Sys2Proof.Laws

/-- The command's word decodes to the command (spec/30_encoding.md R90 to R92). -/
def RoundTrip.Statement (i : Instr) : Prop := decode (encode i) = .ok i

theorem RoundTrip.nop : RoundTrip.Statement .nop := by unfold RoundTrip.Statement; decide
theorem RoundTrip.gfAdd : RoundTrip.Statement .gfAdd := by unfold RoundTrip.Statement; decide
theorem RoundTrip.gfMul : RoundTrip.Statement .gfMul := by unfold RoundTrip.Statement; decide
theorem RoundTrip.gfSq : RoundTrip.Statement .gfSq := by unfold RoundTrip.Statement; decide
theorem RoundTrip.gfSq4 : RoundTrip.Statement .gfSq4 := by unfold RoundTrip.Statement; decide
theorem RoundTrip.gfInv : RoundTrip.Statement .gfInv := by unfold RoundTrip.Statement; decide
theorem RoundTrip.gfDiv : RoundTrip.Statement .gfDiv := by unfold RoundTrip.Statement; decide
theorem RoundTrip.sort32 : RoundTrip.Statement .sort32 := by unfold RoundTrip.Statement; decide
theorem RoundTrip.sort64 : RoundTrip.Statement .sort64 := by unfold RoundTrip.Statement; decide
theorem RoundTrip.minpoly : RoundTrip.Statement .minpoly := by unfold RoundTrip.Statement; decide
theorem RoundTrip.benes : RoundTrip.Statement .benes := by unfold RoundTrip.Statement; decide
theorem RoundTrip.transpose64 : RoundTrip.Statement .transpose64 := by unfold RoundTrip.Statement; decide
theorem RoundTrip.geReduce : RoundTrip.Statement .geReduce := by unfold RoundTrip.Statement; decide
theorem RoundTrip.geExtract : RoundTrip.Statement .geExtract := by unfold RoundTrip.Statement; decide
theorem RoundTrip.zero : RoundTrip.Statement .zero := by unfold RoundTrip.Statement; decide

end Sys2Proof.Laws
end

