-- ==== Sys2Proof/Laws/Ring.lean ====
section
/-! SUPPORT. Small facts about the ring operations: sums with zeros, lengths, and the powers of f = y, which are the unit
vectors (spec/42_minpoly.md R152, "f = y"). -/

namespace Sys2Proof.Machine

open Sys2Proof.Config

@[simp] theorem polyAdd_nil_right (u : List Nat) : polyAdd u [] = u := by
  cases u <;> rfl

@[simp] theorem polyAdd_nil_left (u : List Nat) : polyAdd [] u = u := by
  cases u <;> rfl

/-- The sum has the length of the longer list. -/
theorem length_polyAdd (u v : List Nat) : (polyAdd u v).length = max u.length v.length := by
  induction u generalizing v with
  | nil => simp
  | cons a u ih =>
    cases v with
    | nil => simp
    | cons b v => simp [polyAdd, ih, Nat.succ_max_succ]

/-- Coefficient i of a sum. -/
theorem getD_polyAdd (u v : List Nat) (i : Nat) : (polyAdd u v).getD i 0 = gfAdd (u.getD i 0) (v.getD i 0) := by
  induction u generalizing v i with
  | nil => simp
  | cons a u ih =>
    cases v with
    | nil => simp
    | cons b v =>
      cases i with
      | zero => rfl
      | succ i => simpa [polyAdd] using ih v i

@[simp] theorem length_polyScale (F : FieldSpec) (c : Nat) (u : List Nat) : (polyScale F c u).length = u.length :=
  List.length_map _

/-- Coefficient i of a scalar product. -/
theorem getD_polyScale (F : FieldSpec) (c : Nat) (u : List Nat) (i : Nat) :
    (polyScale F c u).getD i 0 = gfMul F c (u.getD i 0) := by
  rw [polyScale, List.getD_eq_getElem?_getD, List.getElem?_map, List.getD_eq_getElem?_getD]
  cases u[i]? <;> simp

theorem polyAdd_replicate_zero (n : Nat) (u : List Nat) (h : n ≤ u.length) : polyAdd (List.replicate n 0) u = u := by
  induction n generalizing u with
  | zero => simp
  | succ n ih =>
    cases u with
    | nil => simp at h
    | cons a u => simp [List.replicate_succ, polyAdd, ih u (by simpa using h)]

/-- The ring element y, written with k zeros above. -/
def ringY (k : Nat) : List Nat := 0 :: 1 :: List.replicate k 0

/-- The product with y before reduction shifts up by one. -/
theorem polyMul_ringY (F : FieldSpec) (hm : 0 < F.m) (k a : Nat) (u : List Nat) (hu : ∀ x ∈ a :: u, x < 2 ^ F.m) :
    polyMul F (a :: u) (ringY k) = 0 :: (a :: u) ++ List.replicate k 0 := by
  induction u generalizing a with
  | nil => simp [polyMul, ringY, polyScale, polyAdd, gfMul_one_right F hm (hu a (by simp))]
  | cons b u ih =>
    have e := ih b fun x hx => hu x (by simp at hx ⊢; tauto)
    rw [polyMul, e]
    simp only [ringY, polyScale, List.map_cons, List.map_replicate, gfMul_zero_right,
      gfMul_one_right F hm (hu a (by simp)), List.cons_append, polyAdd, gfAdd_zero_right]
    rw [polyAdd_replicate_zero]
    simp; omega

/-- A reduction step at a zero coefficient changes nothing. -/
theorem reduceTop_of_zero (P : ParamSet) (p : List Nat) (i : Nat) (h : p.getD i 0 = 0) : reduceTop P p i = p := by
  have term : ∀ x : Nat × Nat, foldTerm P i (p.getD i 0) p x = p := by
    intro x
    have hid : gfAdd (gfMul P.field (p.getD i 0) x.2) = id := by
      funext y; rw [h]; simp
    rw [foldTerm, hid, List.modify_id]
  have fold : ∀ l : List (Nat × Nat), l.foldl (foldTerm P i (p.getD i 0)) p = p := by
    intro l
    induction l with
    | nil => rfl
    | cons x l ih => rw [List.foldl_cons, term, ih]
  rw [reduceTop, fold]
  rw [List.getD_eq_getElem?_getD] at h
  by_cases hi : i < p.length
  · simp only [List.getElem?_eq_getElem hi, Option.getD_some] at h
    rw [← h, List.set_getElem_self]
  · rw [List.set_eq_of_length_le (by omega)]

/-- Where every coefficient from y^t up is 0, the reduction only cuts the list. -/
theorem reducePoly_of_zeros (P : ParamSet) (p : List Nat) (h : ∀ i, P.sysT ≤ i → p.getD i 0 = 0) :
    reducePoly P p = p.take P.sysT := by
  have fold : ∀ (l : List Nat), (∀ i ∈ l, P.sysT ≤ i) → l.foldl (reduceTop P) p = p := by
    intro l
    induction l with
    | nil => intro _; rfl
    | cons i l ih =>
      intro hl
      rw [List.foldl_cons, reduceTop_of_zero P p i (h i (hl i (by simp)))]
      exact ih fun j hj => hl j (by simp [hj])
  rw [reducePoly, fold]
  intro i hi
  obtain ⟨j, _, rfl⟩ := List.mem_map.1 hi
  exact Nat.le_add_right _ _

/-- The unit vector y^k of K, t = k + 1 + r coefficients. -/
def unitVector (k r : Nat) : List Nat := List.replicate k 0 ++ 1 :: List.replicate r 0

theorem getD_unitVector (k r j : Nat) : (unitVector k r).getD j 0 = if j = k then 1 else 0 := by
  rw [unitVector, List.getD_eq_getElem?_getD, List.getElem?_append]
  rcases Nat.lt_trichotomy j k with h | h | h
  · simp [h, Nat.ne_of_lt h]
  · subst h; simp
  · obtain ⟨d, rfl⟩ : ∃ d, j = k + (d + 1) := ⟨j - k - 1, by omega⟩
    have : k + (d + 1) - k = d + 1 := by omega
    simp [this, List.getElem?_replicate]
    split <;> rfl

/-- Below y^t, the powers of y are the unit vectors. -/
theorem ringPow_ringY (P : ParamSet) (hm : 0 < P.field.m) (ht : 2 ≤ P.sysT) (k r : Nat) (hk : k + 1 + r = P.sysT) :
    ringPow P (ringY (P.sysT - 2)) k = unitVector k r := by
  induction k generalizing r with
  | zero => rw [ringPow, ringOne, unitVector, List.replicate_zero, List.nil_append, show P.sysT - 1 = r by omega]
  | succ k ih =>
    rw [ringPow, ih (r + 1) (by omega), polyMulMod]
    obtain ⟨a, u, hau⟩ : ∃ a u, unitVector k (r + 1) = a :: u := by
      cases k with
      | zero => exact ⟨_, _, rfl⟩
      | succ k => exact ⟨_, _, rfl⟩
    have hlt : ∀ x ∈ a :: u, x < 2 ^ P.field.m := by
      intro x hx
      rw [← hau, unitVector] at hx
      have h1 : 1 < 2 ^ P.field.m := Nat.one_lt_two_pow (by omega)
      have hx : x = 0 ∨ x = 1 := by simp at hx; tauto
      rcases hx with rfl | rfl <;> omega
    rw [hau, polyMul_ringY P.field hm _ _ _ hlt, ← hau]
    have shape : 0 :: unitVector k (r + 1) ++ List.replicate (P.sysT - 2) 0 =
        unitVector (k + 1) r ++ List.replicate (P.sysT - 1) 0 := by
      rw [show P.sysT - 1 = (P.sysT - 2) + 1 by omega, List.replicate_succ (n := P.sysT - 2), unitVector, unitVector,
        List.replicate_succ (n := k), List.replicate_succ' (n := r)]
      simp
    have hlen : (unitVector (k + 1) r).length = P.sysT := by simp [unitVector]; omega
    rw [shape, reducePoly_of_zeros]
    · rw [List.take_left' hlen]
    · intro i hi
      rw [List.getD_eq_getElem?_getD, List.getElem?_append_right (by omega), List.getElem?_replicate]
      split <;> rfl

/-- The product with the zero element is zero. -/
theorem polyMul_replicate_zero (F : FieldSpec) (u : List Nat) (n : Nat) :
    ∀ x ∈ polyMul F u (List.replicate n 0), x = 0 := by
  induction u with
  | nil => simp [polyMul]
  | cons a u ih =>
    intro x hx
    obtain ⟨i, hi, rfl⟩ := List.getElem_of_mem hx
    have e := getD_polyAdd (polyScale F a (List.replicate n 0)) (0 :: polyMul F u (List.replicate n 0)) i
    rw [← polyMul, List.getD_eq_getElem?_getD, List.getElem?_eq_getElem hi, Option.getD_some] at e
    rw [e, getD_polyScale]
    have z1 : (List.replicate n 0).getD i 0 = 0 := by
      rw [List.getD_eq_getElem?_getD, List.getElem?_replicate]; split <;> rfl
    have z2 : (0 :: polyMul F u (List.replicate n 0)).getD i 0 = 0 := by
      cases i with
      | zero => rfl
      | succ i =>
        rw [List.getD_cons_succ, List.getD_eq_getElem?_getD]
        cases h : (polyMul F u (List.replicate n 0))[i]? with
        | none => rfl
        | some y => exact ih y (List.mem_of_getElem? h)
    rw [z1, z2]
    simp

end Sys2Proof.Machine
end

