-- ==== Sys2Proof/Tests/Slice0.lean ====
section
/-! SUPPORT. The model's own tests. Expected results come from spec/95_test_vectors.md (the vector's id is in the
theorem's comment) or from the rule named. Then, for every statement with hypotheses, a state that meets them. -/

-- One declaration at a time: many at once need more threads than a check may start.
set_option Elab.async false

namespace Sys2Proof.Tests

open Sys2Proof.Machine
open Sys2Proof.Config
open Sys2Proof.Spec

/-! ### Helpers -/

/-- The next state of an outcome (the reset state where there is none). -/
def nextOf (o : Host.Outcome State Fault Refusal) : State :=
  match o with
  | .next t => t
  | _ => State.reset

/-- Launch a command and let the sequencer complete it. -/
def runCmd (i : Instr) (s : State) : State := nextOf (step (s.launch (encode i)))

/-- A state for a field command, with RES = 0x777 before it (95_test_vectors.md, F40 to F46). -/
def fieldState (pset : BitVec 3) (a b : Word) : State :=
  { State.reset with pset := pset, opa := a, opb := b, res := 0x777 }

/-- A state for a memory command. -/
def memState (pset : BitVec 3) (a0 a1 n : Word) : State :=
  { State.reset with pset := pset, addr0 := a0, addr1 := a1, len := n }

/-- A state about to receive an access. -/
def receiving (s : State) (e : Event) : State := s.withAgenda [e]

/-- RES and STATUS after a command. -/
def resAndStatus (i : Instr) (s : State) : Word × Word := ((runCmd i s).res, (runCmd i s).readReg .status)

/-- STATUS after a command. -/
def statusAfter (i : Instr) (s : State) : Word := (runCmd i s).readReg .status

/-! ### Decoding: every command's word, written out from 30_encoding.md R90, R91 -/

theorem test_decode_nop : decode 0b000000000000000000000000_00000000#32 = .ok .nop := by decide
theorem test_decode_gfAdd : decode 0b000000000000000000000000_00000001#32 = .ok .gfAdd := by decide
theorem test_decode_gfMul : decode 0b000000000000000000000000_00000010#32 = .ok .gfMul := by decide
theorem test_decode_gfSq : decode 0b000000000000000000000000_00000011#32 = .ok .gfSq := by decide
theorem test_decode_gfSq4 : decode 0b000000000000000000000000_00000100#32 = .ok .gfSq4 := by decide
theorem test_decode_gfInv : decode 0b000000000000000000000000_00000101#32 = .ok .gfInv := by decide
theorem test_decode_gfDiv : decode 0b000000000000000000000000_00000110#32 = .ok .gfDiv := by decide
theorem test_decode_sort32 : decode 0b000000000000000000000000_00010000#32 = .ok .sort32 := by decide
theorem test_decode_sort64 : decode 0b000000000000000000000000_00010001#32 = .ok .sort64 := by decide
theorem test_decode_minpoly : decode 0b000000000000000000000000_00100000#32 = .ok .minpoly := by decide
theorem test_decode_benes : decode 0b000000000000000000000000_00110000#32 = .ok .benes := by decide
theorem test_decode_transpose64 : decode 0b000000000000000000000000_00110001#32 = .ok .transpose64 := by decide
theorem test_decode_geReduce : decode 0b000000000000000000000000_01000000#32 = .ok .geReduce := by decide
theorem test_decode_geExtract : decode 0b000000000000000000000000_01000001#32 = .ok .geExtract := by decide
theorem test_decode_zero : decode 0b000000000000000000000000_01010000#32 = .ok .zero := by decide

/-! ### Well-formedness refuses -/

theorem test_word_with_rsv_set_is_illegal : commandWordLegal 0x00000100#32 = false := by decide
theorem test_word_with_unassigned_opcode_is_illegal : commandWordLegal 0x00000007#32 = false := by decide
theorem test_decode_refuses_rsv : decode 0x80000001#32 = .error .reservedBitsSet := by decide
theorem test_decode_refuses_unassigned : decode 0x00000051#32 = .error .opcodeNotAssigned := by decide
theorem test_read_outside_aperture_is_ill_formed : (HostAccess.read 0x800000 .w4).wellFormed = false := by decide
theorem test_write_outside_aperture_is_ill_formed : (HostAccess.write 0x800000 .w4 0).wellFormed = false := by decide
theorem test_write_wider_than_its_access_is_ill_formed : (HostAccess.write 0x400000 .w1 0x100).wellFormed = false := by
  decide
theorem test_event_carries_ill_formed_access : (Event.access (.read 0x900000 .w1)).wellFormed = false := by decide

/-! ### The parameter table (00_scope.md R7) -/

theorem test_derived_sizes :
    [params348864, params460896, params6688128, params6960119, params8192128].map
      (fun P => (nRows P, rowBytes P, tCols P, pkRowBytes P, benesWires P, controlBytes P)) =
    [(768, 436, 2720, 340, 4096, 5888), (1248, 576, 3360, 420, 8192, 12800), (1664, 836, 5024, 628, 8192, 12800),
     (1547, 870, 5413, 677, 8192, 12800), (1664, 1024, 6528, 816, 8192, 12800)] := by decide +kernel

/-! ### The field commands (95_test_vectors.md, F ids) -/

/-- F1. -/
theorem test_gfAdd : resAndStatus .gfAdd (fieldState 0 0xABC 0xFFF) = (0x543, 2) := by decide +kernel
/-- F41. -/
theorem test_gfAdd_domain : resAndStatus .gfAdd (fieldState 0 0x001 0x1000) = (0x777, 0x60A) := by decide +kernel
/-- F4. -/
theorem test_gfMul : resAndStatus .gfMul (fieldState 0 0x123 0x456) = (0x21F, 2) := by decide +kernel
/-- F25. -/
theorem test_gfMul_m13 : resAndStatus .gfMul (fieldState 1 0x1FFF 0x1FFF) = (0x151A, 2) := by decide +kernel
/-- F8 and F43: OPB is not read. -/
theorem test_gfSq : resAndStatus .gfSq (fieldState 0 0x800 0xFFFFFFFF) = (0x412, 2) := by decide +kernel
/-- F18. -/
theorem test_gfSq4 : resAndStatus .gfSq4 (fieldState 0 0xFFF 0) = (0x332, 2) := by decide +kernel
/-- F13. -/
theorem test_gfInv : resAndStatus .gfInv (fieldState 0 0x123 0) = (0xAD0, 2) := by decide +kernel
/-- F45: ECFG before EDOMAIN. -/
theorem test_gfInv_reserved_pset : resAndStatus .gfInv (fieldState 7 0xFFFFFFFF 0) = (0x777, 0x20A) := by decide +kernel
/-- F20. -/
theorem test_gfDiv : resAndStatus .gfDiv (fieldState 0 0x456 0x123) = (0x1CF, 2) := by decide +kernel
/-- F21. -/
theorem test_gfDiv_by_zero : resAndStatus .gfDiv (fieldState 0 0xABC 0) = (0, 2) := by decide +kernel

/-! ### The sorter (T ids) -/

/-- T4: signed order. -/
theorem test_sort32 : (runCmd .sort32 ((memState 0 0x100 0 5).storeBytes 0x100
    (elemBytes 4 [5, 0xFFFFFFFF, 0x7FFFFFFF, 0x80000000, 5]))).readElems 0x100 4 5 =
    [0x80000000, 0xFFFFFFFF, 5, 5, 0x7FFFFFFF] := by decide +kernel
/-- T13: 4·LEN exceeds LMEM, with no wrap. -/
theorem test_sort32_range : statusAfter .sort32 (memState 0 0 0 0x40000000) = 0x40A := by decide +kernel
/-- T6: unsigned order. -/
theorem test_sort64 : (runCmd .sort64 ((memState 0 0x200 0 4).storeBytes 0x200
    (elemBytes 8 [3, 0xFFFFFFFFFFFFFFFF, 0, 0x8000000000000000]))).readElems 0x200 8 4 =
    [0, 3, 0x8000000000000000, 0xFFFFFFFFFFFFFFFF] := by decide +kernel
/-- T10: EALIGN even for LEN = 0. -/
theorem test_sort64_align : statusAfter .sort64 (memState 0 0x204 0 0) = 0x30A := by decide +kernel

/-! ### The solver -/

/-- M14. -/
theorem test_minpoly_reserved_pset : statusAfter .minpoly (memState 7 0 0 0) = 0x20A := by decide +kernel
/-- f = y gives g = F (42_minpoly.md R152), here over GF(2^12) with F = y^3 + y + z. -/
theorem test_minimalPolynomial_of_y : minimalPolynomial
    { variant := .mceliece348864, field := gf12, sysT := 3, sysN := 3488, ringLow := [(1, 1), (0, 2)] } [0, 1, 0] =
    some [2, 1, 0] := by decide +kernel

/-- In K of PSET 0, y^63 · y is the low terms of F = y^64 + y^3 + y + z (42_minpoly.md R150, R151). -/
theorem test_polyMulMod_top : polyMulMod params348864 (List.replicate 63 0 ++ [1]) (0 :: 1 :: List.replicate 62 0) =
    2 :: 1 :: 0 :: 1 :: List.replicate 60 0 := by decide +kernel

/-! ### The Benes applier and the transpose -/

/-- B10: w = 13, stage 13, swap 7. -/
theorem test_benes_swap_numbering :
    (benesControl 13 13 7, benesLo 13 13 7, benesHi 13 13 7) = (53255, 7, 2055) := by decide +kernel
/-- 95_test_vectors.md, Benes region cases: overlapping regions. -/
theorem test_benes_overlap : statusAfter .benes (memState 0 0 0x100 0) = 0x50A := by decide +kernel
/-- X1: lane 5 = 2^9 gives lane 9 = 2^5. -/
theorem test_transpose_lanes : transpose64 ((List.replicate 64 0).set 5 (2 ^ 9)) = (List.replicate 64 0).set 9 (2 ^ 5) := by
  decide +kernel
/-- X6. -/
theorem test_transpose_range : statusAfter .transpose64 (memState 0 0x3FFE08 0 0) = 0x40A := by decide +kernel

/-! ### The Gaussian-elimination engine -/

/-- G3, cut to three rows: rows {1, 3}, {0, 4}, {2, 5} become {0, 4}, {1, 3}, {2, 5}; a left block with a zero row has
no inverse (44_gauss.md R191). -/
theorem test_reduceMatrix : reduceMatrix 3 [0b001010, 0b010001, 0b100100] = some [0b010001, 0b001010, 0b100100] ∧
    reduceMatrix 3 [0b001001, 0b010000, 0b100100] = none := by decide +kernel
/-- G7. -/
theorem test_geReduce_align : statusAfter .geReduce (memState 0 4 0 0) = 0x30A := by decide +kernel
/-- PSET 3: columns 0, 1547 and 6959 give byte 0 = 0x01 and byte 676 = 0x10 (44_gauss.md R194). -/
theorem test_publicRow : publicRow params6960119 (2 ^ 0 + 2 ^ 1547 + 2 ^ 6959) = 1 + 2 ^ (8 * 676 + 4) := by decide +kernel
/-- GE_EXTRACT after G4 with K = 0: EOVERLAP. -/
theorem test_geExtract_overlap : statusAfter .geExtract (memState 0 0 0 0) = 0x50A := by decide +kernel

/-! ### Housekeeping (H ids) -/

/-- H1. -/
theorem test_nop : resAndStatus .nop (fieldState 5 0xFFFFFFFF 0) = (0x777, 2) := by decide +kernel
/-- H5, H9: bytes 0x3 to 0x7 become 0, byte 0x8 stays. -/
theorem test_zero : (runCmd .zero ((memState 0 0x3 0 5).storeBytes 0x3 [1, 2, 3, 4, 5, 6])).readElems 0x3 1 6 =
    [0, 0, 0, 0, 0, 6] := by decide +kernel
/-- H8. -/
theorem test_zero_range : statusAfter .zero (memState 0 0x400001 0 0) = 0x40A := by decide +kernel
/-- H2: an illegal word. -/
theorem test_illegal_word : (nextOf (step (State.reset.launch 0x00000100))).readReg .status = 0x10A := by decide +kernel

/-! ### The host interface (I ids) -/

/-- I2: only DONE, OVF and HAZ are writable. -/
theorem test_status_write : (nextOf (step { State.reset with
    status := { done := true, failed := false, err := false, ovf := true, haz := true, errcode := 0 },
    agenda := [asmWr .status 0xFFFFFFFF] })).readReg .status = 0 := by decide +kernel
/-- I7: a 16-bit register read is refused. -/
theorem test_narrow_register_read : (nextOf (step { State.reset with agenda := [.access (.read 0x010 .w2)] })).bus = .busErr := by
  decide +kernel
/-- A register access of any width but 4 is refused, here of 3 and of 16 bytes (20_memory.md R61). -/
theorem test_odd_register_accesses :
    step (receiving State.reset (.access (.read 0x010 { bytes := 3 }))) = .next (State.reset.withBus .busErr) ∧
    step (receiving State.reset (.access (.write 0x018 { bytes := 16 } 7))) = .next (State.reset.withBus .busErr) := ⟨rfl, rfl⟩
/-- I10: CFG keeps three bits. -/
theorem test_cfg_write : (nextOf (step { State.reset with agenda := [asmWr .cfg 0xFFFFFFFF] })).readReg .cfg = 7 := by
  decide +kernel
/-- A little-endian 8-byte read of two 4-byte words (95_test_vectors.md P2). -/
theorem test_lmem_read : (nextOf (step { (State.reset.storeBytes 0x100 (elemBytes 4 [0x80000000, 0xFFFFFFFF])) with
    agenda := [asmRdLm .w8 0x100] })).bus = .data 0xFFFFFFFF80000000 := by decide +kernel
/-- The host runs the first instruction after reset through withFetchWord. -/
theorem test_withFetchWord : step (State.reset.withFetchWord 32 0x50) = exec .zero (State.reset.withFetchWord 32 0x50) := rfl

/-! ### Witnesses: a state that meets each statement's hypotheses -/

/-- A busy state: a NOP in flight. -/
def busyState : State := State.reset.launch 0

theorem witness_StepRunsDecodedCommand : ∃ s l i rest, State.inflight s = some l ∧ decode l.word = .ok i ∧
    i.wellFormed = true ∧ s.sequencerMoves rest :=
  ⟨State.reset.launch 0x10, ⟨0x10, 0⟩, .sort32, [], rfl, by decide, rfl, .inl ⟨rfl, rfl⟩⟩

theorem witness_IllegalWordEndsWithEill : ∃ s l rest, State.inflight s = some l ∧ commandWordLegal l.word = false ∧
    s.sequencerMoves rest :=
  ⟨State.reset.launch 0x100, ⟨0x100, 0⟩, [], rfl, by decide, .inl ⟨rfl, rfl⟩⟩

theorem witness_IdleSequencerTurnPasses : ∃ (s : State) (rest : List Event), s.busy = false ∧ s.sequencerMoves rest :=
  ⟨State.reset, [], rfl, .inl ⟨rfl, rfl⟩⟩

theorem witness_LaunchedCommandAlwaysCompletes : ∃ s l, State.inflight s = some l ∧ s.safeToRun = true ∧
    Event.rst ∉ s.agenda :=
  ⟨busyState.withAgenda [asmRd .status, .access (.write 0x7FFFFF .w1 0xFFFF), .sequencer], ⟨0, 0⟩, rfl, by decide,
    by decide⟩

theorem witness_StepKeepsInvariant : ∃ s t : State, s.inv = true ∧ step s = .next t :=
  ⟨busyState, _, by decide, exec_eq_finish .nop busyState⟩

theorem witness_StickyFlagsClearOnlyByHostOrReset : ∃ s t : State, step s = .next t ∧
    s.status.ovf = true ∧ t.status.ovf = false ∧ s.status.haz = true ∧ t.status.haz = false :=
  ⟨(receiving State.reset .rst).withStatus { Status.reset with ovf := true, haz := true }, _, rfl, rfl, rfl, rfl, rfl⟩

theorem witness_ResChangesOnlyByFieldCompletion : ∃ s t : State, step s = .next t ∧ t.res ≠ s.res :=
  ⟨(fieldState 0 0xABC 0xFFF).launch 1, _, exec_eq_finish .gfAdd _, by decide +kernel⟩

/-- An idle host write of one byte that changes it. -/
theorem witness_LmemChangesOnlyByIdleWriteOrCompletion : ∃ (s t : State) (x : Nat), step s = .next t ∧
    t.byteAt x ≠ s.byteAt x :=
  ⟨(State.reset.storeBytes 0 [1]).withAgenda [asmWrLm .w1 0 2], _, 0, rfl, by decide +kernel⟩

theorem witness_OperandRegistersChangeOnlyByIdleWrite : ∀ r ∈ [Reg.cfg, .opa, .opb, .addr0, .addr1, .len],
    ∃ t, step (receiving State.reset (asmWr r 5)) = .next t ∧ t.readReg r ≠ (receiving State.reset (asmWr r 5)).readReg r := by
  intro r hr
  simp only [List.mem_cons, List.not_mem_nil, or_false] at hr
  rcases hr with rfl | rfl | rfl | rfl | rfl | rfl <;> exact ⟨_, rfl, by decide +kernel⟩

theorem witness_RegisterReadsGiveCurrentValues : ∃ (s : State) (r : Reg) (rest : List Event),
    s.agenda = asmRd r :: rest := ⟨receiving State.reset (asmRd .id), .id, [], rfl⟩

theorem witness_StatusWriteClearsOnes : ∃ (s : State) (v : Word) (rest : List Event),
    s.agenda = asmWr .status v :: rest := ⟨receiving busyState asmClr, 0x32, [], rfl⟩

theorem witness_IrqenWriteAlwaysTakesEffect : ∃ (s : State) (v : Word) (rest : List Event),
    s.agenda = asmWr .irqen v :: rest := ⟨receiving busyState (asmWr .irqen 1), 1, [], rfl⟩

theorem witness_IdleOperandWriteStoresValue : ∀ r ∈ [Reg.cfg, .opa, .opb, .addr0, .addr1, .len],
    ∃ (s : State) (v : Word) (rest : List Event), s.busy = false ∧ s.agenda = asmWr r v :: rest :=
  fun r _ => ⟨receiving State.reset (asmWr r 5), 5, [], rfl, rfl⟩

theorem witness_BusyOperandWriteIsDropped : ∀ r ∈ [Reg.cfg, .opa, .opb, .addr0, .addr1, .len],
    ∃ (s : State) (v : Word) (rest : List Event), s.busy = true ∧ s.agenda = asmWr r v :: rest :=
  fun r _ => ⟨receiving busyState (asmWr r 5), 5, [], rfl, rfl⟩

/-- The clauses of ReadOnlyAndReservedOffsetsIgnoreWrites at their boundary offsets. -/
theorem witness_ReadOnlyAndReservedOffsetsIgnoreWrites :
    (∀ o ∈ [0x000, 0x004, 0x020, 0x030, 0xFFC], ∃ (s : State) (v : BusData) (rest : List Event), o % 4 = 0 ∧ o < 0x1000 ∧
      (o ∈ [0x000, 0x004, 0x020] ∨ 0x030 ≤ o) ∧ s.agenda = .access (.write o .w4 v) :: rest) ∧
    ∀ o ∈ [0x030, 0xFFC], ∃ (s : State) (rest : List Event), o % 4 = 0 ∧ o < 0x1000 ∧ 0x030 ≤ o ∧
      s.agenda = .access (.read o .w4) :: rest := by
  refine ⟨fun o ho => ⟨receiving State.reset (.access (.write o .w4 1)), 1, [], ?_, ?_, ?_, rfl⟩,
    fun o ho => ⟨receiving State.reset (.access (.read o .w4)), [], ?_, ?_, ?_, rfl⟩⟩ <;> revert o <;> decide

theorem witness_LaunchLatchesCommandAndPset : ∃ (s : State) (v : Word) (rest : List Event), s.busy = false ∧
    s.agenda = asmWr .cmd v :: rest := ⟨receiving State.reset (asmCmd .sort32), 0x10, [], rfl, rfl⟩

theorem witness_BusyCommandWriteIsDropped : ∃ (s : State) (v : Word) (rest : List Event), s.busy = true ∧
    s.agenda = asmWr .cmd v :: rest := ⟨receiving busyState (asmCmd .sort32), 0x10, [], rfl, rfl⟩

/-- The last byte with a narrow width, and an aligned access of 3 bytes. -/
theorem witness_RegisterPageRefusesOtherAccesses : ∀ a ∈ [HostAccess.read 0xFFF .w1, .read 0x00C { bytes := 3 }],
    ∃ (s : State) (rest : List Event), s.agenda = .access a :: rest ∧ a.offset < 0x1000 ∧
      ¬ (a.width = .w4 ∧ a.offset % 4 = 0) :=
  fun a ha => ⟨receiving State.reset (.access a), [], rfl, by revert a; decide, by revert a; decide⟩

/-- The first and the last offset of the region: an aligned read, an aligned write, a misaligned write. -/
theorem witness_ReservedRegionReadsZero :
    (∀ a ∈ [HostAccess.read 0x1000 .w8, .write 0x3FFFF8 .w8 7], ∃ (s : State) (rest : List Event),
      s.agenda = .access a :: rest ∧ a.width.standard = true ∧ 0x1000 ≤ a.offset ∧ a.offset < 0x400000 ∧
      a.offset % a.width.bytes = 0) ∧
    ∀ a ∈ [HostAccess.write 0x3FFFFF .w2 0], ∃ (s : State) (rest : List Event),
      s.agenda = .access a :: rest ∧ a.width.standard = true ∧ 0x1000 ≤ a.offset ∧ a.offset < 0x400000 ∧
      a.offset % a.width.bytes ≠ 0 := by
  constructor <;> intro a ha <;>
    exact ⟨receiving State.reset (.access a), [], rfl, by revert a; decide, by revert a; decide, by revert a; decide,
      by revert a; decide⟩

/-- The top byte of LMEM. -/
theorem witness_IdleLmemReadIsLittleEndian : ∃ (s : State) (a : Nat) (w : Width) (rest : List Event),
    s.busy = false ∧ w.standard = true ∧ a % w.bytes = 0 ∧ a < 0x400000 ∧ s.agenda = asmRdLm w a :: rest :=
  ⟨receiving State.reset (asmRdLm .w1 0x3FFFFF), 0x3FFFFF, .w1, [], rfl, by decide, by decide, by decide, rfl⟩

theorem witness_IdleLmemWriteStoresLittleEndian : ∃ (s : State) (a : Nat) (w : Width) (v : BusData) (rest : List Event),
    s.busy = false ∧ w.standard = true ∧ a % w.bytes = 0 ∧ a < 0x400000 ∧ s.agenda = asmWrLm w a v :: rest :=
  ⟨receiving State.reset (asmWrLm .w8 0x3FFFF8 7), 0x3FFFF8, .w8, 7, [], rfl, by decide, by decide, by decide, rfl⟩

theorem witness_MisalignedLmemAccessIsRefused : ∃ (s : State) (a : HostAccess) (rest : List Event),
    s.agenda = .access a :: rest ∧ a.width.standard = true ∧ 0x400000 ≤ a.offset ∧ a.offset < 0x800000 ∧
    (a.offset - 0x400000) % a.width.bytes ≠ 0 :=
  ⟨receiving State.reset (asmWrLm .w4 2 0), .write 0x400002 .w4 0, [], rfl, by decide, by decide, by decide, by decide⟩

theorem witness_BusyLmemAccessIsBlocked : ∃ (s : State) (a : HostAccess) (rest : List Event), s.busy = true ∧
    s.agenda = .access a :: rest ∧ a.width.standard = true ∧ 0x400000 ≤ a.offset ∧ a.offset < 0x800000 ∧
    (a.offset - 0x400000) % a.width.bytes = 0 :=
  ⟨receiving busyState (asmRdLm .w4 0), .read 0x400000 .w4, [], rfl, rfl, by decide, by decide, by decide, by decide⟩

/-- Both ends of the two regions. -/
theorem witness_OtherWidthsAreRefusedOutsideRegisterPage :
    ∀ a ∈ [HostAccess.read 0x1000 { bytes := 3 }, .write 0x3FFFFF { bytes := 0 } 1, .read 0x400000 { bytes := 16 },
      .write 0x7FFFFF { bytes := 5 } 1], ∃ (s : State) (rest : List Event), s.agenda = .access a :: rest ∧
      a.width.standard = false ∧ 0x1000 ≤ a.offset ∧ a.offset < 0x800000 :=
  fun a ha => ⟨receiving busyState (.access a), [], rfl, by revert a; decide, by revert a; decide, by revert a; decide⟩

theorem witness_BusyHostCannotObserveLmem : ∃ (s t : State) (a : HostAccess) (rest : List Event), s.busy = true ∧
    s.agenda = .access a :: rest ∧ step s = .next t :=
  ⟨receiving busyState (asmRdLm .w4 0), _, .read 0x400000 .w4, [], rfl, rfl, rfl⟩

theorem witness_ResetInputRestoresResetState : ∃ (s : State) (rest : List Event), s.agenda = .rst :: rest :=
  ⟨receiving busyState .rst, [], rfl⟩

/-- The clauses of InterruptFollowsDoneAndEnable. -/
theorem witness_InterruptFollowsDoneAndEnable :
    (∃ s t : State, exec .nop s = .next t ∧ s.doneie = true) ∧
    (∃ (s t : State) (v : Word) (rest : List Event), step s = .next t ∧ s.agenda = asmWr .status v :: rest ∧
      v.getLsbD 1 = true) ∧
    (∃ (s t : State) (v : Word) (rest : List Event), step s = .next t ∧ s.agenda = asmWr .irqen v :: rest ∧
      v.getLsbD 0 = false) ∧
    ∃ (s t : State) (v : Word) (rest : List Event), step s = .next t ∧ s.agenda = asmWr .cmd v :: rest ∧ s.busy = false :=
  ⟨⟨State.reset.withDoneie true, _, rfl, rfl⟩, ⟨receiving State.reset (asmWr .status 2), _, 2, [], rfl, rfl, by decide⟩,
    ⟨receiving State.reset (asmWr .irqen 0), _, 0, [], rfl, rfl, by decide⟩,
    ⟨receiving State.reset (asmWr .cmd 0), _, 0, [], rfl, rfl, rfl⟩⟩

/-- Every case of FirstErrorInPriorityIsReported: no error, and each code. -/
theorem witness_FirstErrorInPriorityIsReported :
    firstError .nop State.reset = none ∧ firstError .benes (memState 6 3 0x200 0) = some 2 ∧
    firstError .benes (memState 0 4 0x200 0) = some 3 ∧ firstError .benes (memState 0 0 0x3FE908 0) = some 4 ∧
    firstError .benes (memState 0 0 0x100 0) = some 5 ∧ firstError .gfAdd (fieldState 0 1 0x1000) = some 6 := by
  decide +kernel

theorem witness_NonSecretErrorCodesIgnoreData : ∃ s s' t t' : State, s'.lpset = s.lpset ∧ s'.addr0 = s.addr0 ∧
    s'.addr1 = s.addr1 ∧ s'.len = s.len ∧ exec .benes s = .next t ∧ exec .benes s' = .next t' ∧
    t.status.errcode ∈ [2#8, 3#8, 4#8, 5#8] ∧ s'.opa ≠ s.opa :=
  ⟨memState 0 0 0x100 0, (memState 0 0 0x100 0).withOpa 1, _, _, rfl, rfl, rfl, rfl, rfl, rfl, by decide +kernel, by decide⟩

/-- The hypotheses of the GF_ADD, GF_MUL, GF_SQ, GF_SQ4, GF_INV and GF_DIV statements, at zero and at the largest
element of each field. -/
theorem witness_FieldCommandStatements :
    (∃ (s : State) (P : ParamSet), paramRow s.lpset = some P ∧ s.opa.toNat < 2 ^ P.field.m ∧
      s.opb.toNat < 2 ^ P.field.m ∧ s.opa ≠ 0 ∧ s.opb = 0) ∧
    (∃ (s : State) (P : ParamSet), paramRow s.lpset = some P ∧ s.opa.toNat < 2 ^ P.field.m ∧ s.opa = 0) ∧
    ∃ (s : State) (P : ParamSet), paramRow s.lpset = some P ∧ P.field = gf13 ∧ s.opa.toNat < 2 ^ P.field.m ∧
      s.opb.toNat < 2 ^ P.field.m ∧ s.opa ≠ 0 :=
  ⟨⟨fieldState 0 0xFFF 0, params348864, by decide, by decide, by decide, by decide, rfl⟩,
    ⟨fieldState 4 0 7, params8192128, by decide, by decide, rfl⟩,
    ⟨fieldState 1 0x1FFF 0x1FFF, params460896, by decide, rfl, by decide, by decide, by decide⟩⟩

theorem witness_GfLaws : ∀ F ∈ [gf12, gf13], ∃ a b c : Nat, a < 2 ^ F.m ∧ b < 2 ^ F.m ∧ c < 2 ^ F.m ∧ a ≠ 0 := by
  intro F hF
  exact ⟨2, 3, 5, by revert F; decide⟩

theorem witness_SortStatements :
    (∃ s : State, s.addr0.toNat % 4 = 0 ∧ s.addr0.toNat + 4 * s.len.toNat ≤ 0x400000 ∧ 2 ≤ s.len.toNat) ∧
    ∃ s : State, s.addr0.toNat % 8 = 0 ∧ s.addr0.toNat + 8 * s.len.toNat ≤ 0x400000 ∧ 2 ≤ s.len.toNat :=
  ⟨⟨memState 0 0x3FFFF8 0 2, by decide⟩, ⟨memState 0 0x3FFFF0 0 2, by decide⟩⟩

theorem witness_TransposeExchangesLaneAndBit : ∃ s : State, s.addr0.toNat % 8 = 0 ∧ s.addr0.toNat + 512 ≤ 0x400000 :=
  ⟨memState 0 0x3FFE00 0 0, by decide⟩

theorem witness_TransposeTwiceIsIdentity : ∃ s t u : State, exec .transpose64 s = .next t ∧ exec .transpose64 t = .next u ∧
    s.addr0.toNat % 8 = 0 := ⟨State.reset, _, _, rfl, rfl, by decide⟩

theorem witness_BenesMovesBitsThroughNetwork : ∃ (s : State) (P : ParamSet), paramRow s.lpset = some P ∧
    s.addr0.toNat % 8 = 0 ∧ s.addr1.toNat % 8 = 0 ∧ s.addr0.toNat + benesWires P / 8 ≤ 0x400000 ∧
    s.addr1.toNat + controlBytes P ≤ 0x400000 ∧
    (s.addr0.toNat + benesWires P / 8 ≤ s.addr1.toNat ∨ s.addr1.toNat + controlBytes P ≤ s.addr0.toNat) :=
  ⟨memState 0 0 0x200 0, params348864, by decide, by decide, by decide, by decide +kernel, by decide +kernel,
    by decide +kernel⟩

/-- All-zero control bits, in regions that do not overlap. -/
theorem witness_BenesPreservesNumberOfOnes : ∃ (s t : State) (P : ParamSet), paramRow s.lpset = some P ∧
    exec .benes s = .next t ∧ ∀ k < 8 * controlBytes P, s.memBit s.addr1.toNat k = false := by
  refine ⟨(memState 0 0 0x200 0).storeBytes 0x200 (elemBytes 5888 [0]), _, params348864, rfl, rfl, fun k hk => ?_⟩
  have hsize : controlBytes params348864 = 5888 := by decide +kernel
  have hk : k < 8 * 5888 := by rwa [hsize] at hk
  show ((memState 0 0 0x200 0).storeBytes 0x200 (elemBytes 5888 [0])).memBit 0x200 k = false
  have := State.memBit_storeBytes_elemBytes (memState 0 0 0x200 0) 0x200 5888 [0] (r := 0) (by decide) hk
  simpa using this

theorem witness_BitSlicedProcedureAgreesWithNetwork : ∃ lanes : List Nat, lanes.length = 64 ∧ ∀ x ∈ lanes, x < 2 ^ 64 :=
  ⟨List.replicate 64 (2 ^ 64 - 1), by simp, fun x hx => by rw [List.eq_of_mem_replicate hx]; norm_num⟩

theorem witness_GeExtractCopiesRightBlock : ∃ (s : State) (P : ParamSet), paramRow s.lpset = some P ∧
    s.addr0.toNat % 8 = 0 ∧ s.addr1.toNat % 8 = 0 ∧ s.addr0.toNat + nRows P * rowBytes P ≤ 0x400000 ∧
    s.addr1.toNat + nRows P * pkRowBytes P ≤ 0x400000 ∧
    (s.addr0.toNat + nRows P * rowBytes P ≤ s.addr1.toNat ∨ s.addr1.toNat + nRows P * pkRowBytes P ≤ s.addr0.toNat) :=
  ⟨memState 3 0 0x200000 0, params6960119, by decide, by decide, by decide, by decide +kernel, by decide +kernel,
    by decide +kernel⟩

theorem witness_ZeroClearsExactlyItsRegion :
    (∃ s : State, s.addr0.toNat + s.len.toNat ≤ 0x400000 ∧ 0 < s.len.toNat) ∧
    ∃ s : State, ¬ s.addr0.toNat + s.len.toNat ≤ 0x400000 :=
  ⟨⟨memState 0 0 0 0x400000, by decide⟩, ⟨memState 0 0x400001 0 0, by decide⟩⟩

/-! GE_REDUCE: a matrix with L the identity, and one with L zero. -/

/-- The PSET 0 matrix whose row r is the number `row r`, at offset 0. -/
def matrixState (row : Nat → Nat) : State := (memState 0 0 0 0).storeBytes 0 (elemBytes 436 ((List.range 768).map row))

theorem matrixState_memBit (row : Nat → Nat) {r c : Nat} (hr : r < 768) (hc : c < 3488) :
    (matrixState row).memBit (0 + r * rowBytes params348864) c = (row r).testBit c := by
  have := State.memBit_storeBytes_elemBytes (memState 0 0 0 0) 0 436 ((List.range 768).map row) (r := r) (c := c)
    (by simpa using hr) hc
  rw [matrixState, show rowBytes params348864 = 436 by decide +kernel, Nat.mul_comm r]
  simpa using this

theorem nRows_params348864 : nRows params348864 = 768 := by decide +kernel

theorem witness_GeReduceMultipliesByInverse : ∀ row : Nat → Nat,
    paramRow (matrixState row).lpset = some params348864 ∧ (matrixState row).addr0.toNat % 8 = 0 ∧
    (matrixState row).addr0.toNat + nRows params348864 * rowBytes params348864 ≤ 0x400000 :=
  fun _ => ⟨rfl, rfl, by show 0 + nRows params348864 * rowBytes params348864 ≤ 0x400000; decide +kernel⟩

theorem witness_GeReduce_singular : (leftBlock params348864 (matrixState fun _ => 0) 0).det = 0 := by
  have h0 : 0 < nRows params348864 := by rw [nRows_params348864]; norm_num
  refine Matrix.det_eq_zero_of_row_eq_zero ⟨0, h0⟩ fun c => ?_
  have hc : (c : Nat) < 768 := lt_of_lt_of_eq c.2 nRows_params348864
  have bit := matrixState_memBit (fun _ => 0) (r := 0) (by norm_num) (by omega : (c : Nat) < 3488)
  show entry params348864 (matrixState fun _ => 0) 0 0 c = 0
  rw [entry, bit, Nat.zero_testBit]
  rfl

theorem witness_GeReduce_invertible : (leftBlock params348864 (matrixState fun r => 2 ^ r) 0).det ≠ 0 := by
  have : leftBlock params348864 (matrixState fun r => 2 ^ r) 0 = 1 := by
    ext r c
    have hr : (r : Nat) < 768 := lt_of_lt_of_eq r.2 nRows_params348864
    have hc : (c : Nat) < 768 := lt_of_lt_of_eq c.2 nRows_params348864
    rw [leftBlock, Matrix.of_apply, entry, matrixState_memBit _ hr (by omega), Matrix.one_apply]
    simp [Nat.testBit_two_pow, Fin.ext_iff]
  rw [this, Matrix.det_one]
  exact one_ne_zero

/-- In every parameter set, the vector of t largest elements. -/
theorem witness_PolyMulModIsProductModDefiningPoly : ∀ p ∈ [0#3, 1#3, 2#3, 3#3, 4#3], ∃ (P : ParamSet) (u v : List Nat),
    paramRow p = some P ∧ isVector P u ∧ isVector P v := by
  have largest : ∀ P : ParamSet, isVector P (List.replicate P.sysT (2 ^ P.field.m - 1)) := fun P =>
    ⟨List.length_replicate, fun x hx => by
      rw [List.eq_of_mem_replicate hx]; exact Nat.sub_lt (Nat.two_pow_pos _) Nat.one_pos⟩
  have row : ∀ p ∈ [0#3, 1#3, 2#3, 3#3, 4#3], ∃ P, paramRow p = some P := by
    intro p hp
    simp only [List.mem_cons, List.not_mem_nil, or_false] at hp
    rcases hp with rfl | rfl | rfl | rfl | rfl <;> exact ⟨_, rfl⟩
  intro p hp
  obtain ⟨P, h⟩ := row p hp
  exact ⟨P, _, _, h, largest P, largest P⟩

/-! MINPOLY: f = 0 is singular, f = y is not (95_test_vectors.md M9, M1). -/

/-- The PSET 0 state whose input at offset 0 is f. -/
def polyState (f : List Nat) : State := (memState 0 0 0x80 0).storeBytes 0 (elemBytes 2 f)

theorem polyState_input (f : List Nat) (hlen : f.length = params348864.sysT) (hf : ∀ x ∈ f, x < 2 ^ 12) :
    (polyState f).readElems (polyState f).addr0.toNat 2 params348864.sysT = f := by
  have := State.readElems_storeBytes_elemBytes (memState 0 0 0x80 0) 0 2 f
  rw [hlen] at this
  refine this.trans ?_
  conv_rhs => rw [← List.map_id f]
  refine List.map_congr_left fun x hx => ?_
  have := hf x hx
  exact Nat.mod_eq_of_lt (by omega)

theorem witness_MinpolySolvesOrFails : ∀ f : List Nat, f.length = params348864.sysT → (∀ x ∈ f, x < 2 ^ 12) →
    paramRow (polyState f).lpset = some params348864 ∧ (polyState f).addr0.toNat % 2 = 0 ∧
    (polyState f).addr1.toNat % 2 = 0 ∧ (polyState f).addr0.toNat + 2 * params348864.sysT ≤ 0x400000 ∧
    (polyState f).addr1.toNat + 2 * params348864.sysT ≤ 0x400000 ∧
    ∀ x ∈ (polyState f).readElems (polyState f).addr0.toNat 2 params348864.sysT, x < 2 ^ params348864.field.m :=
  fun f hlen hf => ⟨rfl, rfl, by show (0x80#32).toNat % 2 = 0; decide, by show 0 + 2 * params348864.sysT ≤ 0x400000; decide,
    by show 0x80 + 2 * params348864.sysT ≤ 0x400000; decide, by rw [polyState_input f hlen hf]; exact hf⟩

theorem witness_Minpoly_singular : singular params348864 (List.replicate 64 0) := by
  refine ⟨0 :: 1 :: List.replicate 62 0, ⟨by simp [params348864], ?_⟩, ⟨1, by simp, one_ne_zero⟩, fun j _ => ?_⟩
  · intro x hx
    have : x = 0 ∨ x = 1 := by simp at hx; tauto
    rcases this with rfl | rfl <;> decide
  · have row1 : ∀ j, (ringPow params348864 (List.replicate 64 0) 1).getD j 0 = 0 := by
      intro j
      have zeros := polyMul_replicate_zero gf12 (ringOne params348864) 64
      have cut : ∀ x ∈ ringPow params348864 (List.replicate 64 0) 1, x = 0 := by
        intro x hx
        rw [ringPow, polyMulMod, reducePoly_of_zeros] at hx
        · exact zeros x (List.mem_of_mem_take hx)
        · intro i _
          rw [List.getD_eq_getElem?_getD]
          cases h : (polyMul params348864.field (ringPow params348864 (List.replicate 64 0) 0) (List.replicate 64 0))[i]? with
          | none => rfl
          | some y => exact zeros y (List.mem_of_getElem? h)
      rw [List.getD_eq_getElem?_getD]
      cases h : (ringPow params348864 (List.replicate 64 0) 1)[j]? with
      | none => rfl
      | some y => exact cut y (List.mem_of_getElem? h)
    have rest : ∀ (n : Nat) (rows : List (List Nat)), (List.zipWith (fun c row => gfMul gf12 c (row.getD j 0))
        (List.replicate n 0) rows).foldr (fun x y => x ^^^ y) 0 = 0 := by
      intro n
      induction n with
      | zero => intro rows; simp
      | succ n ih =>
        intro rows
        cases rows with
        | nil => simp
        | cons r rows => simpa [List.replicate_succ] using ih rows
    rw [combination, powers, show params348864.sysT = 1 + (1 + 62) from rfl, List.range_add, List.map_append,
      List.range_add, List.map_append, List.map_append]
    simp only [List.range_one, List.map_cons, List.map_nil, List.cons_append, List.nil_append, List.zipWith_cons_cons,
      List.foldr_cons, Nat.add_zero]
    rw [row1 j, show params348864.field = gf12 from rfl, rest]
    simp

theorem witness_Minpoly_nonsingular : ¬ singular params348864 (ringY 62) := by
  rintro ⟨d, ⟨hlen, hd⟩, ⟨x, hx, hx0⟩, h⟩
  have hpow : ∀ k < 64, ringPow params348864 (ringY 62) k = unitVector k (63 - k) := fun k hk =>
    ringPow_ringY params348864 (by decide) (by decide) k (63 - k) (by show k + 1 + (63 - k) = 64; omega)
  have zip : ∀ (d : List Nat) (k j : Nat), (∀ x ∈ d, x < 2 ^ 12) → k + d.length ≤ 64 → k ≤ j →
      (List.zipWith (fun c row => gfMul gf12 c (row.getD j 0)) d
        ((List.range d.length).map (fun i => ringPow params348864 (ringY 62) (k + i)))).foldr (fun x y => x ^^^ y) 0 =
      d.getD (j - k) 0 := by
    intro d
    induction d with
    | nil => intro k j _ _ _; simp
    | cons a d ih =>
      intro k j hlt hk hj
      have step := fun hj' => ih (k + 1) j (fun x hx => hlt x (by simp [hx])) (by simp at hk; omega) hj'
      rw [List.length_cons, List.range_succ_eq_map, List.map_cons, List.map_map, List.zipWith_cons_cons, List.foldr_cons]
      have shift : ((fun i => ringPow params348864 (ringY 62) (k + i)) ∘ Nat.succ) =
          fun i => ringPow params348864 (ringY 62) (k + 1 + i) := by
        funext i; simp [Nat.add_comm, Nat.add_left_comm]
      rw [shift, hpow (k + 0) (by simp at hk; omega), getD_unitVector]
      rcases Nat.eq_or_lt_of_le hj with rfl | hj
      · have zero : ∀ (d : List Nat) (k' : Nat), k < k' → k' + d.length ≤ 64 → (List.zipWith
            (fun c row => gfMul gf12 c (row.getD k 0)) d
            ((List.range d.length).map (fun i => ringPow params348864 (ringY 62) (k' + i)))).foldr
            (fun x y => x ^^^ y) 0 = 0 := by
          intro d
          induction d with
          | nil => intro k' _ _; simp
          | cons b d ih' =>
            intro k' hk' hlen'
            have shift' : ((fun i => ringPow params348864 (ringY 62) (k' + i)) ∘ Nat.succ) =
                fun i => ringPow params348864 (ringY 62) (k' + 1 + i) := by
              funext i; simp [Nat.add_comm, Nat.add_left_comm]
            rw [List.length_cons, List.range_succ_eq_map, List.map_cons, List.map_map, List.zipWith_cons_cons,
              List.foldr_cons, shift', hpow (k' + 0) (by simp at hlen'; omega), getD_unitVector,
              ih' (k' + 1) (by omega) (by simp at hlen'; omega), if_neg (by omega)]
            simp
        rw [zero d (k + 1) (by omega) (by simp at hk; omega), if_pos (by omega),
          gfMul_one_right gf12 (by decide) (hlt a (by simp))]
        simp
      · rw [step hj, if_neg (by omega), gfMul_zero_right, Nat.zero_xor]
        obtain ⟨e, rfl⟩ : ∃ e, j = k + 1 + e := ⟨j - (k + 1), by omega⟩
        rw [show k + 1 + e - (k + 1) = e by omega, show k + 1 + e - k = e + 1 by omega, List.getD_cons_succ]
  obtain ⟨j, hj, rfl⟩ := List.getElem_of_mem hx
  have hlen' : d.length = 64 := hlen
  have := h j (by rw [← hlen]; exact hj)
  rw [combination, powers, ← hlen] at this
  have z := zip d 0 j hd (by omega) (Nat.zero_le _)
  simp only [Nat.zero_add] at z
  rw [show params348864.field = gf12 from rfl] at this
  rw [this, Nat.sub_zero, List.getD_eq_getElem?_getD, List.getElem?_eq_getElem hj] at z
  exact hx0 z.symm

end Sys2Proof.Tests
end

section
/-! PROOFS. The field GF(2^m) as polynomials over GF(2): what the bit operations mean for `toPoly`, then gf_mul as
product and remainder (spec/00_scope.md R11, spec/40_field.md R110 to R112). -/

namespace Sys2Proof.Spec

open Sys2Proof.Machine Sys2Proof.Config Polynomial

/-! ### Bits as coefficients -/

theorem coeff_toPoly (v i : Nat) : (toPoly v).coeff i = if i < 32 ∧ v.testBit i then 1 else 0 := by
  have term (j : Nat) : (if v.testBit j then (X : (ZMod 2)[X]) ^ j else 0).coeff i =
      if i = j then (if v.testBit j then 1 else 0) else 0 := by
    split <;> simp [coeff_X_pow]
  simp only [toPoly, finsetSum_coeff, term, Finset.sum_ite_eq, Finset.mem_range]
  split <;> simp_all

@[simp] theorem toPoly_zero : toPoly 0 = 0 := by ext i; simp [coeff_toPoly]

theorem ite_xor_eq_add (a b : Bool) :
    (if (a ^^ b) = true then (1 : ZMod 2) else 0) = (if a = true then 1 else 0) + if b = true then 1 else 0 := by
  revert a b; decide

/-- Exclusive-or is addition over GF(2) (40_field.md R111). -/
theorem toPoly_xor (a b : Nat) : toPoly (a ^^^ b) = toPoly a + toPoly b := by
  ext i
  rw [coeff_add, coeff_toPoly, coeff_toPoly, coeff_toPoly, Nat.testBit_xor]
  by_cases hi : i < 32
  · simpa only [hi, true_and] using ite_xor_eq_add (a.testBit i) (b.testBit i)
  · simp [hi]

/-- A shift left multiplies by a power of x, as long as no bit leaves the 32 that `toPoly` reads. -/
theorem toPoly_shiftLeft {a n k : Nat} (ha : a < 2 ^ n) (hk : n + k ≤ 32) : toPoly (a <<< k) = toPoly a * X ^ k := by
  ext i
  rw [coeff_mul_X_pow', coeff_toPoly, coeff_toPoly, Nat.testBit_shiftLeft]
  by_cases hki : k ≤ i
  · by_cases hn : n ≤ i - k
    · simp [Nat.testBit_lt_two_pow (ha.trans_le (Nat.pow_le_pow_right (by omega) hn))]
    · simp [hki, show i < 32 by omega, show i - k < 32 by omega]
  · simp [hki]

/-- Bit n stands for the term x^n. -/
theorem toPoly_mod_two_pow_succ {n : Nat} (b : Nat) (hn : n < 32) :
    toPoly (b % 2 ^ (n + 1)) = toPoly (b % 2 ^ n) + if b.testBit n then X ^ n else 0 := by
  ext i
  have bit : (if b.testBit n then (X : (ZMod 2)[X]) ^ n else 0).coeff i =
      if i = n ∧ b.testBit n then 1 else 0 := by
    split <;> simp_all [coeff_X_pow]
  rw [coeff_add, bit, coeff_toPoly, coeff_toPoly, Nat.testBit_mod_two_pow, Nat.testBit_mod_two_pow]
  rcases Nat.lt_trichotomy i n with h | rfl | h
  · simp [h, h.ne, show i < n + 1 by omega]
  · simp [hn]
  · simp [h.ne', show ¬ i < n by omega, show ¬ i < n + 1 by omega]

theorem degree_toPoly_lt {v n : Nat} (hv : v < 2 ^ n) : (toPoly v).degree < n := by
  rw [degree_lt_iff_coeff_zero]
  intro i hi
  simp [coeff_toPoly, Nat.testBit_lt_two_pow (hv.trans_le (Nat.pow_le_pow_right (by omega) hi))]

/-! ### The fields -/

/-- What the arithmetic needs of a field's configuration value: the modulus has degree m ≥ 1, and a product of two
elements fits the 32 bits that `toPoly` reads. -/
structure FieldOk (F : FieldSpec) : Prop where
  m_pos : 0 < F.m
  m_le : F.m ≤ 16
  le_modulus : 2 ^ F.m ≤ F.modulus
  modulus_lt : F.modulus < 2 ^ (F.m + 1)

theorem fieldOk_gf12 : FieldOk gf12 := ⟨by decide, by decide, by decide, by decide⟩

theorem fieldOk_gf13 : FieldOk gf13 := ⟨by decide, by decide, by decide, by decide⟩

theorem fieldOk_of_mem {F : FieldSpec} (hF : F ∈ [gf12, gf13]) : FieldOk F := by
  rcases List.mem_pair.mp hF with rfl | rfl
  · exact fieldOk_gf12
  · exact fieldOk_gf13

namespace FieldOk

variable {F : FieldSpec}

/-- Bit m, the top bit of the modulus, is set. -/
theorem testBit_modulus (hF : FieldOk F) : F.modulus.testBit F.m = true :=
  Nat.testBit_of_two_pow_le_and_two_pow_add_one_gt hF.le_modulus hF.modulus_lt

theorem degree_modulus (hF : FieldOk F) : (toPoly F.modulus).degree = F.m := by
  have hm := hF.m_le
  have above : ∀ i, F.m + 1 ≤ i → (toPoly F.modulus).coeff i = 0 :=
    (degree_lt_iff_coeff_zero _ _).mp (degree_toPoly_lt hF.modulus_lt)
  have top : (toPoly F.modulus).coeff F.m ≠ 0 := by
    simp [coeff_toPoly, hF.testBit_modulus, show F.m < 32 by omega]
  exact degree_eq_of_le_of_coeff_ne_zero
    ((degree_le_iff_coeff_zero _ _).mpr fun i hi => above i (WithBot.coe_lt_coe.mp hi)) top

theorem monic_modulus (hF : FieldOk F) : (toPoly F.modulus).Monic := by
  have hm := hF.m_le
  rw [Monic, leadingCoeff, natDegree_eq_of_degree_eq_some hF.degree_modulus]
  simp [coeff_toPoly, hF.testBit_modulus, show F.m < 32 by omega]

end FieldOk

/-! ### The carry-less product and its reduction -/

/-- A representative of f's class below the degree of g is the remainder. -/
theorem modByMonic_eq_of_dvd_sub_of_degree_lt {R : Type} [CommRing R] [Nontrivial R] {f g r : R[X]} (hg : g.Monic)
    (hdvd : g ∣ r - f) (hdeg : r.degree < g.degree) : f %ₘ g = r :=
  (modByMonic_eq_of_dvd_sub hg hdvd).symm.trans ((modByMonic_eq_self_iff hg).mpr hdeg)

theorem clmul_zero (a b : Nat) : clmul 0 a b = 0 := rfl

theorem clmul_succ (n a b : Nat) :
    clmul (n + 1) a b = if b.testBit n then clmul n a b ^^^ (a <<< n) else clmul n a b := by
  simp only [clmul, List.range_succ, List.foldl_append, List.foldl_cons, List.foldl_nil]

/-- The carry-less product is the product of the polynomials, before reduction. -/
theorem toPoly_clmul {m n a : Nat} (b : Nat) (ha : a < 2 ^ m) (hn : m + n ≤ 33) (hm : 0 < m) :
    toPoly (clmul n a b) = toPoly a * toPoly (b % 2 ^ n) := by
  induction n with
  | zero => simp [clmul_zero, Nat.mod_one]
  | succ n ih =>
    rw [clmul_succ, toPoly_mod_two_pow_succ b (by omega), mul_add, ← ih (by omega)]
    split
    · rw [toPoly_xor, toPoly_shiftLeft ha (by omega)]
    · simp

theorem clmul_lt {m n a : Nat} (b : Nat) (ha : a < 2 ^ m) (hm : 0 < m) : clmul n a b < 2 ^ (m + n - 1) := by
  induction n with
  | zero => exact Nat.two_pow_pos _
  | succ n ih =>
    have wider : clmul n a b < 2 ^ (m + n) := ih.trans_le (Nat.pow_le_pow_right (by omega) (by omega))
    have shifted : a <<< n < 2 ^ (m + n) := by
      rw [Nat.shiftLeft_eq, pow_add]
      exact Nat.mul_lt_mul_of_pos_right ha (Nat.two_pow_pos n)
    rw [clmul_succ, show m + (n + 1) - 1 = m + n by omega]
    split
    · exact Nat.xor_lt_two_pow wider shifted
    · exact wider

/-- One step of the reduction: bit k is cleared with the modulus moved under it (40_field.md R112). -/
def reduceBit (F : FieldSpec) (p k : Nat) : Nat := if p.testBit k then p ^^^ (F.modulus <<< (k - F.m)) else p

theorem reduceField_eq_foldl (F : FieldSpec) (p : Nat) :
    reduceField F p = ((List.range (F.m - 1)).reverse.map (fun j => F.m + j)).foldl (reduceBit F) p := rfl

theorem lt_two_pow_of_testBit_eq_false {x k : Nat} (hx : x < 2 ^ (k + 1)) (hk : x.testBit k = false) : x < 2 ^ k := by
  by_contra hge
  simp [Nat.testBit_of_two_pow_le_and_two_pow_add_one_gt (not_lt.mp hge) hx] at hk

/-- The step clears bit m + n, since the modulus's top bit stands under it. -/
theorem reduceBit_lt {F : FieldSpec} (hF : FieldOk F) {p n : Nat} (hp : p < 2 ^ (F.m + n + 1)) :
    reduceBit F p (F.m + n) < 2 ^ (F.m + n) := by
  rw [reduceBit, Nat.add_sub_cancel_left]
  split
  next hbit =>
    have shifted : F.modulus <<< n < 2 ^ (F.m + n + 1) := by
      rw [Nat.shiftLeft_eq, add_right_comm, pow_add]
      exact Nat.mul_lt_mul_of_pos_right hF.modulus_lt (Nat.two_pow_pos n)
    refine lt_two_pow_of_testBit_eq_false (Nat.xor_lt_two_pow hp shifted) ?_
    simp [Nat.testBit_xor, Nat.testBit_shiftLeft, hbit, hF.testBit_modulus]
  next hbit => exact lt_two_pow_of_testBit_eq_false hp (by simpa using hbit)

theorem modulus_dvd_reduceBit {F : FieldSpec} (hF : FieldOk F) (p : Nat) {n : Nat} (hn : F.m + n < 32) :
    toPoly F.modulus ∣ toPoly (reduceBit F p (F.m + n)) - toPoly p := by
  rw [reduceBit]
  split
  · rw [toPoly_xor, add_sub_cancel_left, Nat.add_sub_cancel_left, toPoly_shiftLeft hF.modulus_lt (by omega)]
    exact dvd_mul_right _ _
  · simp

/-- The reduction of bits m + n - 1 down to m leaves a value below 2^m in the same class modulo the modulus. -/
theorem reduceBits_spec {F : FieldSpec} (hF : FieldOk F) {p n : Nat} (hp : p < 2 ^ (F.m + n)) (hn : F.m + n ≤ 32) :
    let r := ((List.range n).reverse.map (fun j => F.m + j)).foldl (reduceBit F) p
    r < 2 ^ F.m ∧ toPoly F.modulus ∣ toPoly r - toPoly p := by
  induction n generalizing p with
  | zero => simpa using hp
  | succ n ih =>
    rw [List.range_succ, List.reverse_concat, List.map_cons, List.foldl_cons]
    obtain ⟨hlt, hdvd⟩ := ih (reduceBit_lt hF hp) (by omega)
    exact ⟨hlt, by simpa using dvd_add hdvd (modulus_dvd_reduceBit hF p (show F.m + n < 32 by omega))⟩

/-- gf_mul is the product of the polynomials modulo the modulus (40_field.md R112). -/
theorem gfMul_spec {F : FieldSpec} (hF : FieldOk F) {a b : Nat} (ha : a < 2 ^ F.m) (hb : b < 2 ^ F.m) :
    gfMul F a b < 2 ^ F.m ∧ toPoly (gfMul F a b) = (toPoly a * toPoly b) %ₘ toPoly F.modulus := by
  have hm := hF.m_pos
  have hle := hF.m_le
  have bound : clmul F.m a b < 2 ^ (F.m + (F.m - 1)) := by
    rw [← Nat.add_sub_assoc hm]
    exact clmul_lt b ha hm
  have product : toPoly (clmul F.m a b) = toPoly a * toPoly b := by
    rw [toPoly_clmul b ha (by omega) hm, Nat.mod_eq_of_lt hb]
  obtain ⟨hlt, hdvd⟩ := reduceBits_spec hF bound (by omega)
  rw [← reduceField_eq_foldl, ← gfMul] at hlt hdvd
  have small : (toPoly (gfMul F a b)).degree < (toPoly F.modulus).degree := by
    rw [hF.degree_modulus]
    exact degree_toPoly_lt hlt
  rw [← product]
  exact ⟨hlt, (modByMonic_eq_of_dvd_sub_of_degree_lt hF.monic_modulus hdvd small).symm⟩

/-- Settles O44: the reduction keeps the product's class modulo the modulus and ends below its degree. -/
theorem gfMulIsPolynomialProductModModulus : Obligations.GfMulIsPolynomialProductModModulus := by
  intro F hF a b ha hb
  exact gfMul_spec (fieldOk_of_mem hF) ha hb

end Sys2Proof.Spec
end

section
/-! PROOFS. The ring K = GF(2^m)[y]/(F): what the list operations mean for `toRingPoly`, then polymulmod as product and
remainder (spec/00_scope.md R12, spec/42_minpoly.md R150, R151). -/

namespace Sys2Proof.Spec

open Sys2Proof.Machine Sys2Proof.Config Polynomial

/-! ### GF(2^m) as Mathlib's quotient -/

@[simp] theorem toField_zero (F : FieldSpec) : toField F 0 = 0 := by simp [toField]

theorem toField_gfAdd (F : FieldSpec) (a b : Nat) : toField F (gfAdd a b) = toField F a + toField F b := by
  rw [gfAdd, toField, toPoly_xor, map_add]; rfl

theorem toField_gfMul {F : FieldSpec} (hF : FieldOk F) {a b : Nat} (ha : a < 2 ^ F.m) (hb : b < 2 ^ F.m) :
    toField F (gfMul F a b) = toField F a * toField F b := by
  have remainder := modByMonic_add_div (toPoly a * toPoly b) (toPoly F.modulus)
  rw [← (gfMul_spec hF ha hb).2] at remainder
  rw [toField, toField, toField, ← map_mul, ← remainder, map_add, map_mul, AdjoinRoot.mk_self, zero_mul, add_zero]

/-- The quotient has characteristic 2. -/
theorem quotientField_add_self (F : FieldSpec) (x : QuotientField F) : x + x = 0 := by
  obtain ⟨p, rfl⟩ := AdjoinRoot.mk_surjective x
  rw [← map_add, CharTwo.add_self_eq_zero, map_zero]

theorem FieldOk.nontrivial_quotientField {F : FieldSpec} (hF : FieldOk F) : Nontrivial (QuotientField F) := by
  refine AdjoinRoot.nontrivial _ ?_
  rw [hF.degree_modulus]
  exact_mod_cast hF.m_pos.ne'

/-! ### Lists of coefficients -/

/-- Every entry is a canonical field element (20_memory.md R68). -/
def Canonical (F : FieldSpec) (u : List Nat) : Prop := ∀ x ∈ u, x < 2 ^ F.m

theorem coeff_toRingPoly (F : FieldSpec) (u : List Nat) (i : Nat) :
    (toRingPoly F u).coeff i = toField F (u.getD i 0) := by
  induction u generalizing i with
  | nil => simp [toRingPoly]
  | cons a u ih => cases i <;> simp [toRingPoly, coeff_C, ih]

theorem degree_toRingPoly_lt (F : FieldSpec) {u : List Nat} {n : Nat} (hu : u.length ≤ n) :
    (toRingPoly F u).degree < n := by
  rw [degree_lt_iff_coeff_zero]
  intro i hi
  rw [coeff_toRingPoly, List.getD_eq_default _ _ (by omega), toField_zero]

theorem Canonical.getD_lt {F : FieldSpec} {u : List Nat} (hu : Canonical F u) (i : Nat) : u.getD i 0 < 2 ^ F.m := by
  rw [List.getD_eq_getElem?_getD]
  cases h : u[i]? with
  | none => exact Nat.two_pow_pos _
  | some x => exact hu x (List.mem_of_getElem? h)

theorem canonical_iff_getD {F : FieldSpec} {u : List Nat} : Canonical F u ↔ ∀ i, u.getD i 0 < 2 ^ F.m := by
  refine ⟨Canonical.getD_lt, fun h x hx => ?_⟩
  obtain ⟨i, hi, rfl⟩ := List.getElem_of_mem hx
  simpa [List.getD_eq_getElem?_getD, hi] using h i

theorem canonical_cons {F : FieldSpec} {a : Nat} {u : List Nat} :
    Canonical F (a :: u) ↔ a < 2 ^ F.m ∧ Canonical F u := List.forall_mem_cons

theorem gfAdd_lt {m a b : Nat} (ha : a < 2 ^ m) (hb : b < 2 ^ m) : gfAdd a b < 2 ^ m := Nat.xor_lt_two_pow ha hb

/-! ### The product before reduction -/

theorem toRingPoly_polyAdd (F : FieldSpec) (u v : List Nat) :
    toRingPoly F (polyAdd u v) = toRingPoly F u + toRingPoly F v := by
  ext i
  simp only [coeff_add, coeff_toRingPoly, getD_polyAdd, toField_gfAdd]

theorem Canonical.polyAdd {F : FieldSpec} {u v : List Nat} (hu : Canonical F u) (hv : Canonical F v) :
    Canonical F (polyAdd u v) :=
  canonical_iff_getD.mpr fun i => by rw [getD_polyAdd]; exact gfAdd_lt (hu.getD_lt i) (hv.getD_lt i)

theorem toRingPoly_polyScale {F : FieldSpec} (hF : FieldOk F) {c : Nat} {u : List Nat} (hc : c < 2 ^ F.m)
    (hu : Canonical F u) : toRingPoly F (polyScale F c u) = C (toField F c) * toRingPoly F u := by
  ext i
  rw [coeff_C_mul, coeff_toRingPoly, coeff_toRingPoly, getD_polyScale, toField_gfMul hF hc (hu.getD_lt i)]

theorem Canonical.polyScale {F : FieldSpec} (hF : FieldOk F) {c : Nat} {u : List Nat} (hc : c < 2 ^ F.m)
    (hu : Canonical F u) : Canonical F (polyScale F c u) :=
  canonical_iff_getD.mpr fun i => by rw [getD_polyScale]; exact (gfMul_spec hF hc (hu.getD_lt i)).1

theorem toRingPoly_polyMul {F : FieldSpec} (hF : FieldOk F) {u v : List Nat} (hu : Canonical F u)
    (hv : Canonical F v) : toRingPoly F (polyMul F u v) = toRingPoly F u * toRingPoly F v := by
  induction u with
  | nil => simp [polyMul, toRingPoly]
  | cons a u ih =>
    obtain ⟨ha, hu⟩ := canonical_cons.mp hu
    rw [polyMul, toRingPoly_polyAdd, toRingPoly_polyScale hF ha hv, toRingPoly, toRingPoly, ih hu, toField_zero]
    simp only [map_zero]; ring

theorem Canonical.polyMul {F : FieldSpec} (hF : FieldOk F) {u v : List Nat} (hu : Canonical F u)
    (hv : Canonical F v) : Canonical F (polyMul F u v) := by
  induction u with
  | nil => exact List.forall_mem_nil _
  | cons a u ih =>
    obtain ⟨ha, hu⟩ := canonical_cons.mp hu
    exact (hv.polyScale hF ha).polyAdd (canonical_cons.mpr ⟨Nat.two_pow_pos _, ih hu⟩)

theorem length_polyMul (F : FieldSpec) (a : Nat) (u : List Nat) {v : List Nat} (hv : v ≠ []) :
    (polyMul F (a :: u) v).length = u.length + v.length := by
  have := List.length_pos_of_ne_nil hv
  induction u generalizing a with
  | nil => simp [polyMul, length_polyAdd]; omega
  | cons b u ih =>
    rw [polyMul, length_polyAdd, length_polyScale, List.length_cons, ih, List.length_cons]; omega

/-! ### The parameter sets -/

/-- What the ring needs of a parameter set: a field, t ≥ 1, and low terms of F below y^t with canonical coefficients. -/
structure ParamsOk (P : ParamSet) : Prop where
  field : FieldOk P.field
  sysT_pos : 0 < P.sysT
  ringLow : ∀ term ∈ P.ringLow, term.1 < P.sysT ∧ term.2 < 2 ^ P.field.m

/-- The five parameter sets (00_scope.md R6). -/
theorem paramRow_eq_some {p : BitVec 3} {P : ParamSet} (h : paramRow p = some P) :
    P = params348864 ∨ P = params460896 ∨ P = params6688128 ∨ P = params6960119 ∨ P = params8192128 := by
  unfold paramRow at h
  split at h <;> simp_all

theorem paramsOk_of_paramRow {p : BitVec 3} {P : ParamSet} (h : paramRow p = some P) : ParamsOk P := by
  rcases paramRow_eq_some h with rfl | rfl | rfl | rfl | rfl
  · exact ⟨fieldOk_gf12, by decide, by decide⟩
  · exact ⟨fieldOk_gf13, by decide, by decide⟩
  · exact ⟨fieldOk_gf13, by decide, by decide⟩
  · exact ⟨fieldOk_gf13, by decide, by decide⟩
  · exact ⟨fieldOk_gf13, by decide, by decide⟩

/-- The low terms of F as a polynomial (42_minpoly.md R150). -/
noncomputable def lowPoly (F : FieldSpec) (terms : List (Nat × Nat)) : (QuotientField F)[X] :=
  (terms.map fun term => C (toField F term.2) * X ^ term.1).sum

@[simp] theorem lowPoly_nil (F : FieldSpec) : lowPoly F [] = 0 := rfl

@[simp] theorem lowPoly_cons (F : FieldSpec) (term : Nat × Nat) (terms : List (Nat × Nat)) :
    lowPoly F (term :: terms) = C (toField F term.2) * X ^ term.1 + lowPoly F terms := by
  simp [lowPoly]

theorem definingPoly_eq (P : ParamSet) : definingPoly P = X ^ P.sysT + lowPoly P.field P.ringLow := rfl

theorem degree_lowPoly_lt {F : FieldSpec} {t : Nat} (terms : List (Nat × Nat)) (h : ∀ term ∈ terms, term.1 < t) :
    (lowPoly F terms).degree < t := by
  induction terms with
  | nil => simp
  | cons term terms ih =>
    obtain ⟨hterm, hterms⟩ := List.forall_mem_cons.mp h
    rw [lowPoly_cons]
    exact (degree_add_le _ _).trans_lt (max_lt
      ((degree_C_mul_X_pow_le _ _).trans_lt (WithBot.coe_lt_coe.mpr hterm)) (ih hterms))

theorem ParamsOk.monic_definingPoly {P : ParamSet} (hP : ParamsOk P) : (definingPoly P).Monic :=
  monic_X_pow_add (degree_lowPoly_lt _ fun term h => (hP.ringLow term h).1)

theorem ParamsOk.degree_definingPoly {P : ParamSet} (hP : ParamsOk P) : (definingPoly P).degree = P.sysT := by
  have := hP.field.nontrivial_quotientField
  rw [definingPoly_eq, degree_add_eq_left_of_degree_lt, degree_X_pow]
  rw [degree_X_pow]
  exact degree_lowPoly_lt _ fun term h => (hP.ringLow term h).1

/-! ### The reduction by F -/

theorem getD_foldTerm (P : ParamSet) (i top : Nat) (q : List Nat) (term : Nat × Nat) (j : Nat)
    (hlen : i - P.sysT + term.1 < q.length) : (foldTerm P i top q term).getD j 0 =
      if j = i - P.sysT + term.1 then gfAdd (gfMul P.field top term.2) (q.getD j 0) else q.getD j 0 := by
  rw [foldTerm, List.getD_eq_getElem?_getD, List.getElem?_modify]
  split
  next h => subst h; simp [hlen]
  next h => simp [Ne.symm h]

/-- What folding p[i] = top onto low terms of F keeps and adds: nothing moves from coefficient i up, and the sum grows
by top · y^(i-t) times those terms (42_minpoly.md R151). -/
structure Folded (P : ParamSet) (i top : Nat) (terms : List (Nat × Nat)) (q r : List Nat) : Prop where
  length_eq : r.length = q.length
  canonical : Canonical P.field r
  getD_eq : ∀ j, i ≤ j → r.getD j 0 = q.getD j 0
  toRingPoly_eq : toRingPoly P.field r =
    toRingPoly P.field q + C (toField P.field top) * X ^ (i - P.sysT) * lowPoly P.field terms

section Reduction

variable {P : ParamSet} (hP : ParamsOk P) {i : Nat} (hti : P.sysT ≤ i)
include hP hti

theorem foldTerm_folded {top : Nat} {q : List Nat} {term : Nat × Nat} (hi : i < q.length)
    (htop : top < 2 ^ P.field.m) (hq : Canonical P.field q) (he : term.1 < P.sysT) (hc : term.2 < 2 ^ P.field.m) :
    Folded P i top [term] q (foldTerm P i top q term) where
  length_eq := List.length_modify ..
  canonical := canonical_iff_getD.mpr fun j => by
    rw [getD_foldTerm P i top q term j (by omega)]
    split
    · exact gfAdd_lt (gfMul_spec hP.field htop hc).1 (hq.getD_lt j)
    · exact hq.getD_lt j
  getD_eq j hj := by rw [getD_foldTerm P i top q term j (by omega), if_neg (by omega)]
  toRingPoly_eq := by
    have added : C (toField P.field top) * X ^ (i - P.sysT) * lowPoly P.field [term] =
        C (toField P.field (gfMul P.field top term.2)) * X ^ (i - P.sysT + term.1) := by
      rw [toField_gfMul hP.field htop hc, lowPoly_cons, lowPoly_nil, map_mul, pow_add]; ring
    ext j
    rw [added, coeff_add, coeff_C_mul_X_pow, coeff_toRingPoly, coeff_toRingPoly,
      getD_foldTerm P i top q term j (by omega)]
    split
    · rw [toField_gfAdd, add_comm]
    · rw [add_zero]

theorem foldTerms_folded {top : Nat} (htop : top < 2 ^ P.field.m) {terms : List (Nat × Nat)}
    (hterms : ∀ term ∈ terms, term.1 < P.sysT ∧ term.2 < 2 ^ P.field.m) {q : List Nat} (hi : i < q.length)
    (hq : Canonical P.field q) : Folded P i top terms q (terms.foldl (foldTerm P i top) q) := by
  induction terms generalizing q with
  | nil => exact ⟨rfl, hq, fun _ _ => rfl, by simp⟩
  | cons term terms ih =>
    obtain ⟨⟨he, hc⟩, hterms⟩ := List.forall_mem_cons.mp hterms
    have first := foldTerm_folded hP hti hi htop hq he hc
    have rest := ih hterms (first.length_eq ▸ hi) first.canonical
    exact {
      length_eq := rest.length_eq.trans first.length_eq
      canonical := rest.canonical
      getD_eq := fun j hj => (rest.getD_eq j hj).trans (first.getD_eq j hj)
      toRingPoly_eq := by
        rw [List.foldl_cons, rest.toRingPoly_eq, first.toRingPoly_eq, lowPoly_cons, lowPoly_cons, lowPoly_nil]; ring }

end Reduction

theorem getD_set_zero (q : List Nat) (i j : Nat) : (q.set i 0).getD j 0 = if j = i then 0 else q.getD j 0 := by
  rw [List.getD_eq_getElem?_getD, List.getElem?_set]
  split
  next h => subst h; split <;> simp
  next h => simp [Ne.symm h]

/-- Clearing a coefficient subtracts its term; in characteristic 2 that is adding it. -/
theorem toRingPoly_set_zero (F : FieldSpec) (q : List Nat) (i : Nat) :
    toRingPoly F (q.set i 0) = toRingPoly F q + C (toField F (q.getD i 0)) * X ^ i := by
  ext j
  rw [coeff_add, coeff_C_mul_X_pow, coeff_toRingPoly, coeff_toRingPoly, getD_set_zero]
  split
  next h => rw [h, quotientField_add_self, toField_zero]
  next => rw [add_zero]

/-- What the reduction keeps from p to r: the length, canonical coefficients, and the class modulo F. -/
structure SameClass (P : ParamSet) (p r : List Nat) : Prop where
  length_eq : r.length = p.length
  canonical : Canonical P.field r
  dvd_sub : definingPoly P ∣ toRingPoly P.field r - toRingPoly P.field p

theorem SameClass.trans {P : ParamSet} {p q r : List Nat} (h : SameClass P p q) (h' : SameClass P q r) :
    SameClass P p r :=
  ⟨h'.length_eq.trans h.length_eq, h'.canonical, by simpa using dvd_add h'.dvd_sub h.dvd_sub⟩

/-- One step of the reduction adds p[i] · y^(i-t) · F and clears coefficient i (42_minpoly.md R151). -/
theorem reduceTop_sameClass {P : ParamSet} (hP : ParamsOk P) {p : List Nat} {i : Nat} (hti : P.sysT ≤ i)
    (hi : i < p.length) (hp : Canonical P.field p) : SameClass P p (reduceTop P p i) := by
  have folded := foldTerms_folded hP hti (hp.getD_lt i) hP.ringLow hi hp
  refine ⟨(List.length_set ..).trans folded.length_eq, canonical_iff_getD.mpr fun j => ?_, ?_⟩
  · rw [reduceTop, getD_set_zero]
    split
    · exact Nat.two_pow_pos _
    · exact folded.canonical.getD_lt j
  · refine ⟨C (toField P.field (p.getD i 0)) * X ^ (i - P.sysT), ?_⟩
    have split_power : (X : (QuotientField P.field)[X]) ^ i = X ^ (i - P.sysT) * X ^ P.sysT := by
      rw [← pow_add, Nat.sub_add_cancel hti]
    rw [reduceTop, toRingPoly_set_zero, folded.getD_eq i le_rfl, folded.toRingPoly_eq, definingPoly_eq, split_power]
    ring

theorem getD_reduceTop_eq_zero {P : ParamSet} (hP : ParamsOk P) {p : List Nat} {i : Nat} (hti : P.sysT ≤ i)
    (hi : i < p.length) (hp : Canonical P.field p) (above : ∀ j, i < j → p.getD j 0 = 0) :
    ∀ j, i ≤ j → (reduceTop P p i).getD j 0 = 0 := by
  intro j hj
  rw [reduceTop, getD_set_zero]
  split
  · rfl
  · rw [(foldTerms_folded hP hti (hp.getD_lt i) hP.ringLow hi hp).getD_eq j hj, above j (by omega)]

/-- The reduction from coefficient t + n - 1 down to t leaves no coefficient from t up. -/
theorem reduceTops_spec {P : ParamSet} (hP : ParamsOk P) {p : List Nat} {n : Nat} (hn : P.sysT + n ≤ p.length)
    (hp : Canonical P.field p) (above : ∀ j, P.sysT + n ≤ j → p.getD j 0 = 0) :
    let r := ((List.range n).reverse.map (fun j => P.sysT + j)).foldl (reduceTop P) p
    SameClass P p r ∧ ∀ j, P.sysT ≤ j → r.getD j 0 = 0 := by
  induction n generalizing p with
  | zero => exact ⟨⟨rfl, hp, by simp⟩, above⟩
  | succ n ih =>
    rw [List.range_succ, List.reverse_concat, List.map_cons, List.foldl_cons]
    have hti : P.sysT ≤ P.sysT + n := by omega
    have hi : P.sysT + n < p.length := by omega
    have first := reduceTop_sameClass hP hti hi hp
    obtain ⟨rest, cleared⟩ := ih (by rw [first.length_eq]; omega) first.canonical
      (getD_reduceTop_eq_zero hP hti hi hp above)
    exact ⟨first.trans rest, cleared⟩

/-- Cutting off zero coefficients leaves the polynomial as it is. -/
theorem toRingPoly_take (F : FieldSpec) {p : List Nat} {t : Nat} (above : ∀ j, t ≤ j → p.getD j 0 = 0) :
    toRingPoly F (p.take t) = toRingPoly F p := by
  ext j
  rw [coeff_toRingPoly, coeff_toRingPoly]
  by_cases hj : j < t
  · simp [List.getD_eq_getElem?_getD, hj]
  · rw [above j (by omega), List.getD_eq_default _ _ (by simp; omega)]

/-- The reduction of 2t - 1 canonical coefficients is the remainder by F (42_minpoly.md R151). -/
theorem reducePoly_spec {P : ParamSet} (hP : ParamsOk P) {p : List Nat} (hlen : p.length = P.sysT + (P.sysT - 1))
    (hp : Canonical P.field p) :
    isVector P (reducePoly P p) ∧ toRingPoly P.field (reducePoly P p) = toRingPoly P.field p %ₘ definingPoly P := by
  have := hP.field.nontrivial_quotientField
  obtain ⟨same, cleared⟩ := reduceTops_spec hP hlen.ge hp fun j hj => List.getD_eq_default _ _ (by omega)
  have vector : isVector P (reducePoly P p) :=
    ⟨by rw [reducePoly, List.length_take, same.length_eq]; omega,
      fun x hx => same.canonical x (List.mem_of_mem_take hx)⟩
  have class_eq : definingPoly P ∣ toRingPoly P.field (reducePoly P p) - toRingPoly P.field p := by
    rw [reducePoly, toRingPoly_take _ cleared]
    exact same.dvd_sub
  have small : (toRingPoly P.field (reducePoly P p)).degree < (definingPoly P).degree := by
    rw [hP.degree_definingPoly]
    exact degree_toRingPoly_lt _ vector.1.le
  exact ⟨vector, (modByMonic_eq_of_dvd_sub_of_degree_lt hP.monic_definingPoly class_eq small).symm⟩

/-- polymulmod is the product of the polynomials over GF(2^m) modulo F (42_minpoly.md R151). -/
theorem polyMulMod_spec {P : ParamSet} (hP : ParamsOk P) {u v : List Nat} (hu : isVector P u) (hv : isVector P v) :
    isVector P (polyMulMod P u v) ∧
      toRingPoly P.field (polyMulMod P u v) = (toRingPoly P.field u * toRingPoly P.field v) %ₘ definingPoly P := by
  obtain ⟨hulen, hu⟩ := hu
  obtain ⟨hvlen, hv⟩ := hv
  have pos := hP.sysT_pos
  have length : (polyMul P.field u v).length = P.sysT + (P.sysT - 1) := by
    cases u with
    | nil => simp at hulen; omega
    | cons a u =>
      rw [length_polyMul _ _ _ (List.ne_nil_of_length_pos (by omega))]
      simp only [List.length_cons] at hulen; omega
  rw [← toRingPoly_polyMul hP.field hu hv]
  exact reducePoly_spec hP length (Canonical.polyMul hP.field hu hv)

/-- Settles O59: the list operations add, scale and shift as polynomials do, and each reduction step adds a multiple of
F. -/
theorem polyMulModIsProductModDefiningPoly : Obligations.PolyMulModIsProductModDefiningPoly := by
  intro p P u v hp hu hv
  obtain ⟨vector, product⟩ := polyMulMod_spec (paramsOk_of_paramRow hp) hu hv
  exact ⟨vector, product, rfl, fun _ => rfl⟩

/-- Settles O58: the table's rows as they stand, and the derived sizes evaluated for each. -/
theorem parameterSetsAreAsSpecified : Obligations.ParameterSetsAreAsSpecified :=
  ⟨rfl, rfl, rfl, rfl, rfl, rfl, rfl, rfl, by decide⟩

end Sys2Proof.Spec
end

section
/-! PROOFS. The register page: the register map, the STATUS word, and what a register write can do, each said once
(spec/10_state.md R21 to R33, R40). -/

namespace Sys2Proof.Machine

/-! ### The register map (10_state.md R21) -/

@[simp] theorem regAt_regOffset (r : Reg) : regAt (regOffset r) = some r := by cases r <;> rfl

@[simp] theorem regOffset_mod_four (r : Reg) : regOffset r % 4 = 0 := by cases r <;> rfl

theorem regOffset_lt (r : Reg) : regOffset r < 0x030 := by cases r <;> decide

/-- The first twelve words of the page are registers, the rest of it is reserved (10_state.md R33). -/
theorem regAt_eq_none_iff (o : Nat) : regAt o = none ↔ 0x030 ≤ o := by
  constructor
  · intro h
    by_contra below
    have : o / 4 < 12 := by omega
    unfold regAt at h
    interval_cases o / 4 <;> simp at h
  · intro h
    obtain ⟨n, hn⟩ : ∃ n, o / 4 = n + 12 := ⟨o / 4 - 12, by omega⟩
    rw [regAt, hn]; rfl

/-- The aligned offset at which a register is found is the register's own. -/
theorem eq_regOffset_of_regAt {o : Nat} {r : Reg} (aligned : o % 4 = 0) (h : regAt o = some r) : o = regOffset r := by
  unfold regAt at h
  split at h <;> cases h <;> simp only [regOffset] <;> omega

/-- Settles O15: the offsets as they stand in the map, and the division by four that finds a register again. -/
theorem registerMapIsAsSpecified : Obligations.RegisterMapIsAsSpecified :=
  ⟨rfl, regAt_regOffset, regAt_eq_none_iff⟩

/-! ### The STATUS word (10_state.md R26) -/

/-- Every bit of the STATUS word: below bit 8 the flags one by one, above it ERRCODE. -/
theorem getLsbD_statusWord (busy : Bool) (t : Status) (k : Nat) : (statusWord busy t).getLsbD k =
    if k = 0 then busy else if k = 1 then t.done else if k = 2 then t.failed else if k = 3 then t.err
    else if k = 4 then t.ovf else if k = 5 then t.haz
    else if 8 ≤ k ∧ k < 16 then t.errcode.getLsbD (k - 8) else false := by
  simp only [statusWord, BitVec.getLsbD_append, BitVec.getLsbD_ofBool]
  rcases Nat.lt_or_ge k 8 with low | high
  · interval_cases k <;> simp
  · obtain ⟨n, rfl⟩ := Nat.exists_eq_add_of_le' high
    have : n + 8 < 16 ↔ n < 8 := by omega
    simp [this]

/-- Settles O17: STATUS reads as the STATUS word, bit by bit. -/
theorem statusWordHasTheSpecifiedFields : Obligations.StatusWordHasTheSpecifiedFields :=
  fun s k => getLsbD_statusWord s.busy s.status k

/-- The bits a STATUS write can clear are those of DONE, OVF and HAZ (10_state.md R27). -/
theorem clearMask_eq_statusWord :
    (0x32#32 : Word) = statusWord false { Status.reset with done := true, ovf := true, haz := true } := by decide

/-- Clearing flags is masking their bits in the word (10_state.md R27). -/
theorem statusWord_statusClear (busy : Bool) (v : Word) (t : Status) :
    statusWord busy (statusClear v t) = statusWord busy t &&& ~~~(v &&& 0x32#32) := by
  apply BitVec.eq_of_getLsbD_eq
  intro k hk
  rw [clearMask_eq_statusWord]
  simp only [BitVec.getLsbD_and, BitVec.getLsbD_not, getLsbD_statusWord, hk]
  split_ifs <;> simp [Status.reset, *]

/-! ### The operand registers (10_state.md R40) -/

/-- The registers a host write is dropped for while BUSY = 1. -/
abbrev operandRegs : List Reg := [.cfg, .opa, .opb, .addr0, .addr1, .len]

/-- The value a write of v leaves in an operand register; nothing happens to another one. -/
def State.storeOperand (s : State) (r : Reg) (v : Word) : State :=
  match r with
  | .cfg => s.withPset (v.setWidth 3)
  | .opa => s.withOpa v
  | .opb => s.withOpb v
  | .addr0 => s.withAddr0 v
  | .addr1 => s.withAddr1 v
  | .len => s.withLen v
  | _ => s

theorem mem_operandRegs {r : Reg} :
    r ∈ operandRegs ↔ r = .cfg ∨ r = .opa ∨ r = .opb ∨ r = .addr0 ∨ r = .addr1 ∨ r = .len := by
  simp only [operandRegs, List.mem_cons, List.not_mem_nil, or_false]

theorem State.writeReg_of_mem_operandRegs (s : State) {r : Reg} (v : Word) (h : r ∈ operandRegs) :
    s.writeReg r v = s.unlessBusy (s.storeOperand r v) := by
  rcases mem_operandRegs.mp h with rfl | rfl | rfl | rfl | rfl | rfl <;> rfl

section
variable (s : State) (r : Reg) (v : Word)

@[simp] theorem State.storeOperand_pset :
    (s.storeOperand r v).pset = if r = .cfg then v.setWidth 3 else s.pset := by cases r <;> rfl
@[simp] theorem State.storeOperand_opa : (s.storeOperand r v).opa = if r = .opa then v else s.opa := by cases r <;> rfl
@[simp] theorem State.storeOperand_opb : (s.storeOperand r v).opb = if r = .opb then v else s.opb := by cases r <;> rfl
@[simp] theorem State.storeOperand_addr0 :
    (s.storeOperand r v).addr0 = if r = .addr0 then v else s.addr0 := by cases r <;> rfl
@[simp] theorem State.storeOperand_addr1 :
    (s.storeOperand r v).addr1 = if r = .addr1 then v else s.addr1 := by cases r <;> rfl
@[simp] theorem State.storeOperand_len : (s.storeOperand r v).len = if r = .len then v else s.len := by cases r <;> rfl
@[simp] theorem State.storeOperand_doneie : (s.storeOperand r v).doneie = s.doneie := by cases r <;> rfl
@[simp] theorem State.storeOperand_status : (s.storeOperand r v).status = s.status := by cases r <;> rfl
@[simp] theorem State.storeOperand_busy : (s.storeOperand r v).busy = s.busy := by cases r <;> rfl
@[simp] theorem State.storeOperand_inflight : (s.storeOperand r v).inflight = s.inflight := by cases r <;> rfl
@[simp] theorem State.storeOperand_res : (s.storeOperand r v).res = s.res := by cases r <;> rfl
@[simp] theorem State.storeOperand_lmem : (s.storeOperand r v).lmem = s.lmem := by cases r <;> rfl
@[simp] theorem State.storeOperand_lmemGen : (s.storeOperand r v).lmemGen = s.lmemGen := by cases r <;> rfl
@[simp] theorem State.storeOperand_agenda : (s.storeOperand r v).agenda = s.agenda := by cases r <;> rfl
@[simp] theorem State.storeOperand_byteAt (x : Nat) : (s.storeOperand r v).byteAt x = s.byteAt x := by cases r <;> rfl

end

/-- CFG keeps its low three bits (10_state.md R24). -/
theorem setWidth_three_setWidth (v : Word) : (v.setWidth 3).setWidth 32 = v &&& 7#32 := by
  apply BitVec.eq_of_toNat_eq
  have := Nat.and_two_pow_sub_one_eq_mod v.toNat 3
  simp at this ⊢
  omega

/-- An operand register reads as written, CFG cut to its low three bits. -/
theorem State.readReg_storeOperand_self (s : State) {r : Reg} (v : Word) (h : r ∈ operandRegs) :
    (s.storeOperand r v).readReg r = if r = .cfg then v &&& 7#32 else v := by
  rcases mem_operandRegs.mp h with rfl | rfl | rfl | rfl | rfl | rfl
  · exact setWidth_three_setWidth v
  all_goals rfl

/-- No other register reads otherwise after the write. -/
theorem State.readReg_storeOperand_of_ne (s : State) {r r' : Reg} (v : Word) (h : r' ≠ r) :
    (s.storeOperand r v).readReg r' = s.readReg r' := by
  cases r' <;> simp [State.readReg, h.symm]

/-- What the operand registers hold. -/
def State.operands (s : State) : BitVec 3 × Word × Word × Word × Word × Word :=
  (s.pset, s.opa, s.opb, s.addr0, s.addr1, s.len)

/-- An operand register reads what it holds, whatever the rest of the state is. -/
theorem State.readReg_of_operands_eq {s t : State} {r : Reg} (hr : r ∈ operandRegs) (h : t.operands = s.operands) :
    t.readReg r = s.readReg r := by
  simp only [State.operands, Prod.mk.injEq] at h
  obtain ⟨pset, opa, opb, addr0, addr1, len⟩ := h
  rcases mem_operandRegs.mp hr with rfl | rfl | rfl | rfl | rfl | rfl
  · exact congrArg (BitVec.setWidth 32) pset
  · exact opa
  · exact opb
  · exact addr0
  · exact addr1
  · exact len

/-! ### A register write (10_state.md R22 to R32, R40) -/

@[simp] theorem State.unlessBusy_of_idle {s : State} (idle : s.busy = false) (t : State) : s.unlessBusy t = t := by
  simp [State.unlessBusy, idle]

@[simp] theorem State.unlessBusy_of_busy {s : State} (busy : s.busy = true) (t : State) :
    s.unlessBusy t = s.withStatus (statusHazard s.status) := by
  simp [State.unlessBusy, busy]

/-- What a write of v to a register can do: `writeReg_effect` says that it is one of these. -/
inductive RegEffect (s : State) (v : Word) : Reg → State → Prop
  | ignored {r : Reg} (readOnly : r ∈ [Reg.id, .version, .res]) : RegEffect s v r s
  | stored {r : Reg} (operand : r ∈ operandRegs) (idle : s.busy = false) : RegEffect s v r (s.storeOperand r v)
  | dropped {r : Reg} (operand : r ∈ operandRegs) (busy : s.busy = true) :
      RegEffect s v r (s.withStatus (statusHazard s.status))
  | irqen : RegEffect s v .irqen (s.withDoneie (v.getLsbD 0))
  | cleared : RegEffect s v .status (s.withStatus (statusClear v s.status))
  | launched (idle : s.busy = false) : RegEffect s v .cmd (s.launch v)
  | overflowed (busy : s.busy = true) : RegEffect s v .cmd (s.withStatus (statusOverflow s.status))

theorem State.writeReg_operand_effect (s : State) {r : Reg} (v : Word) (h : r ∈ operandRegs) :
    RegEffect s v r (s.writeReg r v) := by
  rw [State.writeReg_of_mem_operandRegs s v h]
  cases hb : s.busy with
  | false => rw [State.unlessBusy_of_idle hb]; exact .stored h hb
  | true => rw [State.unlessBusy_of_busy hb]; exact .dropped h hb

theorem State.writeReg_cmd_effect (s : State) (v : Word) : RegEffect s v .cmd (s.writeReg .cmd v) := by
  rw [State.writeReg]
  cases hb : s.busy with
  | false => exact .launched hb
  | true => exact .overflowed hb

/-- A register write does one of the things that `RegEffect` lists. -/
theorem State.writeReg_effect (s : State) (r : Reg) (v : Word) : RegEffect s v r (s.writeReg r v) := by
  cases r with
  | id | version | res => exact .ignored (by simp)
  | cfg | opa | opb | addr0 | addr1 | len => exact s.writeReg_operand_effect v (by simp)
  | irqen => exact .irqen
  | status => exact .cleared
  | cmd => exact s.writeReg_cmd_effect v

end Sys2Proof.Machine
end

section
/-! PROOFS. The host port: what one access of the register page does, and the statements about single register reads and
writes (spec/10_state.md R20 to R33, R40 to R42, spec/20_memory.md R60 to R65). -/

namespace Sys2Proof.Machine

/-! ### The regions (20_memory.md R60) -/

theorem regionOf_registerPage {o : Nat} (h : o < 0x1000) : regionOf o = some .registerPage := if_pos h

@[simp] theorem regionOf_regOffset (r : Reg) : regionOf (regOffset r) = some .registerPage :=
  regionOf_registerPage ((regOffset_lt r).trans (by decide))

theorem regAccessOk_iff (o : Nat) (w : Width) : regAccessOk o w = true ↔ w = .w4 ∧ o % 4 = 0 := by
  simp [regAccessOk, aligned]

/-! ### Accesses of the register page (10_state.md R21, R33; 20_memory.md R61) -/

theorem State.hostRead_regOffset (s : State) (r : Reg) :
    s.hostRead (regOffset r) .w4 = .next (s.withBus (.data ((s.readReg r).setWidth 64))) := by
  simp [State.hostRead, regAccessOk_iff]

theorem State.hostWrite_regOffset (s : State) (r : Reg) (v : BusData) :
    s.hostWrite (regOffset r) .w4 v = .next ((s.writeReg r (v.setWidth 32)).withBus .written) := by
  simp [State.hostWrite, regAccessOk_iff]

section
variable (s : State) {o : Nat} (align : o % 4 = 0) (page : o < 0x1000) (reserved : 0x030 ≤ o)
include align page reserved

theorem State.hostRead_reserved : s.hostRead o .w4 = .next (s.withBus (.data 0)) := by
  simp [State.hostRead, regionOf_registerPage page, regAccessOk_iff, align, (regAt_eq_none_iff o).mpr reserved]

theorem State.hostWrite_reserved (v : BusData) : s.hostWrite o .w4 v = .next (s.withBus .written) := by
  simp [State.hostWrite, regionOf_registerPage page, regAccessOk_iff, align, (regAt_eq_none_iff o).mpr reserved]

end

/-- A step that receives a write to a register. -/
theorem step_of_register_write {s : State} {r : Reg} {v : BusData} {rest : List Event}
    (h : s.agenda = .access (.write (regOffset r) .w4 v) :: rest) :
    step s = .next (((s.withAgenda rest).writeReg r (v.setWidth 32)).withBus .written) :=
  (step_of_access h).trans (State.hostWrite_regOffset _ r v)

/-- `wr REG, v` (30_encoding.md R96). -/
theorem step_of_asmWr {s : State} {r : Reg} {v : Word} {rest : List Event} (h : s.agenda = asmWr r v :: rest) :
    step s = .next (((s.withAgenda rest).writeReg r v).withBus .written) := by
  have write := step_of_register_write h
  rwa [BitVec.setWidth_setWidth_of_le v (by decide), BitVec.setWidth_eq] at write

/-- `rd REG` (30_encoding.md R96). -/
theorem step_of_asmRd {s : State} {r : Reg} {rest : List Event} (h : s.agenda = asmRd r :: rest) :
    step s = .next ((s.withAgenda rest).withBus (.data ((s.readReg r).setWidth 64))) :=
  (step_of_access h).trans ((s.withAgenda rest).hostRead_regOffset r)

/-- Settles O16: the read's answer, then each register's value as `readReg` defines it. -/
theorem registerReadsGiveCurrentValues : Obligations.RegisterReadsGiveCurrentValues := by
  intro s r rest h
  have cfg : (s.readReg .cfg).toNat = s.pset.toNat := by
    simp [State.readReg]; omega
  have irqen : (s.readReg .irqen).toNat = s.doneie.toNat := by
    rw [State.readReg]; cases s.doneie <;> rfl
  exact ⟨step_of_asmRd h, rfl, rfl, rfl, cfg, irqen, rfl, rfl, rfl, rfl, rfl, rfl⟩

/-- Settles O18: the STATUS word after the write is the masked one. -/
theorem statusWriteClearsOnes : Obligations.StatusWriteClearsOnes :=
  fun s v _ h => ⟨_, step_of_asmWr h, statusWord_statusClear s.busy v s.status, rfl⟩

/-- Settles O19: the IRQEN case of a register write. -/
theorem irqenWriteAlwaysTakesEffect : Obligations.IrqenWriteAlwaysTakesEffect :=
  fun _ _ _ h => step_of_asmWr h

/-- Settles O20: an idle write to an operand register is `storeOperand`. -/
theorem idleOperandWriteStoresValue : Obligations.IdleOperandWriteStoresValue := by
  intro s r v rest idle hr h
  have write := step_of_asmWr h
  rw [State.writeReg_of_mem_operandRegs _ v hr, State.unlessBusy_of_idle (s := s.withAgenda rest) idle] at write
  refine ⟨_, write, State.readReg_storeOperand_self _ v hr, fun r' hne => State.readReg_storeOperand_of_ne _ v hne, ?_⟩
  simp

/-- Settles O21: a busy write to an operand register is `statusHazard`. -/
theorem busyOperandWriteIsDropped : Obligations.BusyOperandWriteIsDropped := by
  intro s r v rest busy hr h
  have write := step_of_asmWr h
  rw [State.writeReg_of_mem_operandRegs _ v hr, State.unlessBusy_of_busy (s := s.withAgenda rest) busy] at write
  exact write

/-- Settles O22: the read-only registers stand at 0x000, 0x004 and 0x020, and no register stands from 0x030 up. -/
theorem readOnlyAndReservedOffsetsIgnoreWrites : Obligations.ReadOnlyAndReservedOffsetsIgnoreWrites := by
  intro s o v rest align page
  constructor
  · rintro (readOnly | reserved) h
    · obtain ⟨r, hr, rfl⟩ : ∃ r ∈ [Reg.id, .version, .res], o = regOffset r := by simpa [regOffset] using readOnly
      have write := step_of_register_write h
      have ignored : ∀ u : State, u.writeReg r (v.setWidth 32) = u := by
        intro u
        simp only [List.mem_cons, List.not_mem_nil, or_false] at hr
        rcases hr with rfl | rfl | rfl <;> rfl
      rwa [ignored] at write
    · exact (step_of_access h).trans (State.hostWrite_reserved _ align page reserved v)
  · intro reserved h
    exact (step_of_access h).trans (State.hostRead_reserved _ align page reserved)

/-! ### Reset and the interrupt output (10_state.md R41, R42) -/

/-- Settles O33: every register evaluated at reset. -/
theorem resetStateReadsAsSpecified : Obligations.ResetStateReadsAsSpecified := by
  exact ⟨by decide, rfl, rfl, rfl, rfl⟩

/-- Settles O32: a register reads nothing of what `resetInput` does not reset. -/
theorem resetInputRestoresResetState : Obligations.ResetInputRestoresResetState := by
  intro s rest h
  refine ⟨_, step_of_rst h, rfl, rfl, rfl, fun r => ?_, rfl, rfl, rfl⟩
  cases r <;> rfl

theorem State.irq_of_done {s : State} (h : s.status.done = true) : s.irq = s.doneie := by simp [State.irq, h]

theorem State.irq_of_not_done {s : State} (h : s.status.done = false) : s.irq = false := by simp [State.irq, h]

theorem State.irq_of_not_doneie {s : State} (h : s.doneie = false) : s.irq = false := by simp [State.irq, h]

theorem State.finish_done (s : State) (e : CommandEnd) : (s.finish e).status.done = true := by
  cases e <;> rfl

/-- Settles O34: a completion sets DONE; a STATUS write or a launch clears DONE, an IRQEN write DONEIE. -/
theorem interruptFollowsDoneAndEnable : Obligations.InterruptFollowsDoneAndEnable := by
  refine ⟨fun s => rfl, ?_, ?_⟩
  · intro i s t h
    rw [exec_eq_finish] at h
    obtain rfl := Host.Outcome.next.inj h
    rw [State.irq_of_done (s.finish_done _), (s.finish_operandsKept _).doneie]
  · intro s t v rest h
    have written {r : Reg} (hr : s.agenda = asmWr r v :: rest) :
        t = ((s.withAgenda rest).writeReg r v).withBus .written :=
      Host.Outcome.next.inj (h.symm.trans (step_of_asmWr hr))
    refine ⟨fun hs bit => ?_, fun hs bit => ?_, fun hs idle => ?_⟩ <;> rw [written hs]
    · exact State.irq_of_not_done (by simp [State.writeReg, bit])
    · exact State.irq_of_not_doneie bit
    · exact State.irq_of_not_done (by simp [State.writeReg, State.launch, idle])

end Sys2Proof.Machine
end

section
/-! PROOFS. What the ending of each command writes: a field command an element of its field to RES, every other command
bytes inside LMEM (spec/10_state.md R30, R37; spec/40_field.md R114; spec/20_memory.md R66). -/

namespace Sys2Proof.Machine

open Sys2Proof.Config Sys2Proof.Spec

/-! ### The results of the field operations -/

section
variable {F : FieldSpec} (hF : FieldOk F) {a b : Nat} (ha : a < 2 ^ F.m) (hb : b < 2 ^ F.m)
include hF ha

include hb in
theorem gfMul_lt : gfMul F a b < 2 ^ F.m := (gfMul_spec hF ha hb).1

theorem gfSq_lt : gfSq F a < 2 ^ F.m := gfMul_lt hF ha ha

theorem gfSq4_lt : gfSq4 F a < 2 ^ F.m := gfSq_lt hF (gfSq_lt hF ha)

theorem gfPow_lt (e : Nat) : gfPow F a e < 2 ^ F.m := by
  refine List.foldlRecOn (motive := (· < 2 ^ F.m)) _ _ (Nat.one_lt_two_pow hF.m_pos.ne') fun acc hacc i _ => ?_
  split
  · exact gfMul_lt hF (gfSq_lt hF hacc) ha
  · exact gfSq_lt hF hacc

theorem gfInv_lt : gfInv F a < 2 ^ F.m := gfPow_lt hF ha _

include hb in
theorem gfDiv_lt : gfDiv F a b < 2 ^ F.m := gfMul_lt hF ha (gfInv_lt hF hb)

end

/-- The elements of both fields fit 13 bits (40_field.md R110). -/
theorem field_m_le_of_paramRow {p : BitVec 3} {P : ParamSet} (h : paramRow p = some P) : P.field.m ≤ 13 := by
  rcases paramRow_eq_some h with rfl | rfl | rfl | rfl | rfl <;> decide

/-! ### The sizes of the results of the eliminations -/

/-- A fold that keeps a list's length at each step keeps it throughout. -/
theorem length_eq_of_foldlM {α β : Type} {f : List β → α → Option (List β)}
    (keeps : ∀ {xs a ys}, f xs a = some ys → ys.length = xs.length) {l : List α} {xs ys : List β}
    (h : l.foldlM f xs = some ys) : ys.length = xs.length := by
  induction l generalizing xs with
  | nil => cases h; rfl
  | cons a l ih =>
    rw [List.foldlM_cons] at h
    obtain ⟨zs, first, rest⟩ := Option.bind_eq_some_iff.mp h
    exact (ih rest).trans (keeps first)

/-- The shape of an elimination step: the pivot is replaced and every other entry is cleared with it. -/
theorem length_take_map_append {α : Type} {xs later : List α} {j : Nat} {x : α} (h : xs.drop j = x :: later) (p : α)
    (clear : α → α) : ((xs.take j).map clear ++ p :: later.map clear).length = xs.length := by
  have parts := congrArg List.length (List.take_append_drop j xs)
  rw [h] at parts
  simpa using parts

theorem length_rowStep {rows rows' : List Nat} {r : Nat} (h : rowStep rows r = some rows') :
    rows'.length = rows.length := by
  unfold rowStep at h
  split at h
  · cases h
  next later drop_eq =>
    dsimp only at h
    split at h
    · cases h; exact length_take_map_append drop_eq _ _
    · cases h

theorem length_reduceMatrix {n : Nat} {rows rows' : List Nat} (h : reduceMatrix n rows = some rows') :
    rows'.length = rows.length := length_eq_of_foldlM length_rowStep h

theorem length_columnStep {Fd : FieldSpec} {cols cols' : List (List Nat)} {j : Nat}
    (h : columnStep Fd cols j = some cols') : cols'.length = cols.length := by
  unfold columnStep at h
  split at h
  · cases h
  next later drop_eq =>
    dsimp only at h
    split at h
    · cases h
    · cases h; exact length_take_map_append drop_eq _ _

theorem length_minimalPolynomial {P : ParamSet} {f c : List Nat} (h : minimalPolynomial P f = some c) :
    c.length = P.sysT := by
  obtain ⟨cols, eliminated, rfl⟩ := Option.map_eq_some_iff.mp h
  rw [List.length_map, length_eq_of_foldlM length_columnStep eliminated]
  simp [matrixColumns]

/-! ### The field commands (40_field.md R114) -/

/-- The ending of a field command: an error, or an element of the larger field for RES. -/
inductive CommandEnd.WritesRes : CommandEnd → Prop
  | error (c : ErrorCode) : WritesRes (.error c)
  | result {v : Word} (small : v.toNat < 2 ^ 13) : WritesRes (.result v)

/-- A canonical element of a field is a result. -/
theorem CommandEnd.WritesRes.of_lt {p : BitVec 3} {P : ParamSet} (hP : paramRow p = some P) {v : Nat}
    (hv : v < 2 ^ P.field.m) : (CommandEnd.result (BitVec.ofNat 32 v)).WritesRes := by
  have small : v < 2 ^ 13 := hv.trans_le (Nat.pow_le_pow_right (by omega) (field_m_le_of_paramRow hP))
  exact .result (by rw [BitVec.toNat_ofNat, Nat.mod_eq_of_lt (small.trans (by decide))]; exact small)

theorem State.fieldUnary_writesRes (s : State) {body : FieldSpec → Nat → Nat}
    (hbody : ∀ {F : FieldSpec}, FieldOk F → ∀ {a}, a < 2 ^ F.m → body F a < 2 ^ F.m) :
    (s.fieldUnary body).WritesRes := by
  rcases s.fieldUnary_cases body with ⟨_, h⟩ | ⟨P, hP, ⟨_, h⟩ | ⟨ha, h⟩⟩ <;> rw [h]
  · exact .error _
  · exact .error _
  · exact .of_lt hP (hbody (paramsOk_of_paramRow hP).field ha)

theorem State.fieldBinary_writesRes (s : State) {body : FieldSpec → Nat → Nat → Nat}
    (hbody : ∀ {F : FieldSpec}, FieldOk F → ∀ {a b}, a < 2 ^ F.m → b < 2 ^ F.m → body F a b < 2 ^ F.m) :
    (s.fieldBinary body).WritesRes := by
  rcases s.fieldBinary_cases body with ⟨_, h⟩ | ⟨P, hP, ⟨_, h⟩ | ⟨⟨ha, hb⟩, h⟩⟩ <;> rw [h]
  · exact .error _
  · exact .error _
  · exact .of_lt hP (hbody (paramsOk_of_paramRow hP).field ha hb)

/-! ### The other commands (20_memory.md R66, 10_state.md R37) -/

/-- The ending of any other command: RES is kept, and what is written lies inside LMEM. -/
inductive CommandEnd.WritesLmem : CommandEnd → Prop
  | error (c : ErrorCode) : WritesLmem (.error c)
  | fail : WritesLmem .fail
  | failUnspecified {a n : Nat} (inside : a + n ≤ lmemBytes) : WritesLmem (.failUnspecified a n)
  | normal : WritesLmem .normal
  | store {a : Nat} {bs : List Byte} (inside : a + bs.length ≤ lmemBytes) : WritesLmem (.store a bs)

@[simp] theorem inRange_iff (a n : Nat) : inRange a n = true ↔ a + n ≤ lmemBytes := by simp [inRange]

/-- A store whose bytes fill a checked range. -/
theorem CommandEnd.WritesLmem.store_of_inRange {a n : Nat} (inside : inRange a n = true) {bs : List Byte}
    (length_eq : bs.length = n) : (CommandEnd.store a bs).WritesLmem :=
  .store (by rw [length_eq]; exact (inRange_iff a n).mp inside)

theorem State.withParams_writesLmem (s : State) {k : ParamSet → CommandEnd} (h : ∀ P, (k P).WritesLmem) :
    (s.withParams k).WritesLmem := by
  rcases s.withParams_cases k with ⟨_, eq⟩ | ⟨P, _, eq⟩ <;> rw [eq]
  · exact .error _
  · exact h P

theorem State.sortCommand_writesLmem (s : State) (size : Nat) {sort : List Nat → List Nat}
    (length_sort : ∀ vs, (sort vs).length = vs.length) : (s.sortCommand size sort).WritesLmem := by
  rcases s.sortCommand_cases size sort with ⟨_, h⟩ | ⟨_, _, h⟩ | ⟨_, inside, h⟩ <;> rw [h]
  · exact .error _
  · exact .error _
  · exact .store_of_inRange inside (by simp [length_sort])

theorem minpolyOn_writesLmem (P : ParamSet) (f : List Nat) {b : Nat} (inside : inRange b (2 * P.sysT) = true) :
    (minpolyOn P f b).WritesLmem := by
  unfold minpolyOn
  split
  · split
    · exact .fail
    next c solved => exact .store_of_inRange inside (by rw [length_elemBytes, length_minimalPolynomial solved])
  · exact .error _

theorem State.minpolyCommand_writesLmem (s : State) : s.minpolyCommand.WritesLmem := by
  refine s.withParams_writesLmem fun P => ?_
  split_ifs with align inside
  · exact minpolyOn_writesLmem P _ (Bool.and_eq_true_iff.mp inside).2
  · exact .error _
  · exact .error _

theorem State.benesCommand_writesLmem (s : State) : s.benesCommand.WritesLmem := by
  refine s.withParams_writesLmem fun P => ?_
  dsimp only
  split_ifs with align inside meet
  · exact .error _
  · exact .store_of_inRange (Bool.and_eq_true_iff.mp inside).1 (length_natToBytes _ _)
  · exact .error _
  · exact .error _

theorem State.transposeCommand_writesLmem (s : State) : s.transposeCommand.WritesLmem := by
  unfold State.transposeCommand
  split_ifs with align inside
  · exact .store_of_inRange inside (by simp [transpose64])
  · exact .error _
  · exact .error _

theorem State.geReduceCommand_writesLmem (s : State) : s.geReduceCommand.WritesLmem := by
  refine s.withParams_writesLmem fun P => ?_
  split_ifs with align inside
  · split
    · exact .failUnspecified ((inRange_iff _ _).mp inside)
    next rows reduced =>
      refine .store_of_inRange inside ?_
      rw [length_elemBytes, length_reduceMatrix reduced, State.length_readElems, Nat.mul_comm]
  · exact .error _
  · exact .error _

theorem State.geExtractCommand_writesLmem (s : State) : s.geExtractCommand.WritesLmem := by
  refine s.withParams_writesLmem fun P => ?_
  dsimp only
  split_ifs with align inside meet
  · exact .error _
  · refine .store_of_inRange (Bool.and_eq_true_iff.mp inside).2 ?_
    rw [length_elemBytes, List.length_map, State.length_readElems, Nat.mul_comm]
  · exact .error _
  · exact .error _

theorem State.zeroCommand_writesLmem (s : State) : s.zeroCommand.WritesLmem := by
  unfold State.zeroCommand
  split_ifs with inside
  · exact .store_of_inRange inside List.length_replicate
  · exact .error _

/-! ### Every command -/

/-- The field commands (40_field.md R114). -/
abbrev fieldCommands : List Instr := [.gfAdd, .gfMul, .gfSq, .gfSq4, .gfInv, .gfDiv]

/-- A field command writes RES; every other command writes LMEM (10_state.md R30, R37). -/
theorem commandEnd_writes (i : Instr) (s : State) :
    (i ∈ fieldCommands ∧ (commandEnd i s).WritesRes) ∨ (commandEnd i s).WritesLmem := by
  cases i with
  | gfAdd => exact .inl ⟨by decide, s.fieldBinary_writesRes fun _ _ _ => gfAdd_lt⟩
  | gfMul => exact .inl ⟨by decide, s.fieldBinary_writesRes gfMul_lt⟩
  | gfSq => exact .inl ⟨by decide, s.fieldUnary_writesRes gfSq_lt⟩
  | gfSq4 => exact .inl ⟨by decide, s.fieldUnary_writesRes gfSq4_lt⟩
  | gfInv => exact .inl ⟨by decide, s.fieldUnary_writesRes gfInv_lt⟩
  | gfDiv => exact .inl ⟨by decide, s.fieldBinary_writesRes gfDiv_lt⟩
  | nop => exact .inr .normal
  | sort32 => exact .inr (s.sortCommand_writesLmem 4 fun _ => List.length_insertionSort _ _)
  | sort64 => exact .inr (s.sortCommand_writesLmem 8 fun _ => List.length_insertionSort _ _)
  | minpoly => exact .inr s.minpolyCommand_writesLmem
  | benes => exact .inr s.benesCommand_writesLmem
  | transpose64 => exact .inr s.transposeCommand_writesLmem
  | geReduce => exact .inr s.geReduceCommand_writesLmem
  | geExtract => exact .inr s.geExtractCommand_writesLmem
  | zero => exact .inr s.zeroCommand_writesLmem

end Sys2Proof.Machine
end

section
/-! PROOFS. What one step can do, said once, and what it therefore keeps: STATUS, RES, LMEM, the operand registers and
the invariant (spec/10_state.md R20, R26, R30, R37, R40). -/

namespace Sys2Proof.Machine

open Sys2Proof.Config Sys2Proof.Spec

/-! ### What a host access can do (20_memory.md R61 to R65) -/

/-- What one host access can do: `hostAccess_effect` says that it is one of these. -/
inductive HostEffect (s : State) : HostAccess → State → Prop
  | answered (a : HostAccess) (r : BusResponse) : HostEffect s a (s.withBus r)
  | blocked (a : HostAccess) (r : BusResponse) (busy : s.busy = true) : HostEffect s a (s.blocked r)
  | register {r : Reg} {v : BusData} {u : State} (effect : RegEffect s (v.setWidth 32) r u) :
      HostEffect s (.write (regOffset r) .w4 v) (u.withBus .written)
  | stored {a : Nat} {w : Width} {v : BusData} (idle : s.busy = false) (standard : w.standard = true)
      (align : a % w.bytes = 0) (inside : a < 0x400000) :
      HostEffect s (.write (0x400000 + a) w v) ((s.storeBytes a (natToBytes w.bytes v.toNat)).withBus .written)

theorem State.hostRead_effect {s t : State} {o : Nat} {w : Width} (h : s.hostRead o w = .next t) :
    HostEffect s (.read o w) t := by
  unfold State.hostRead at h
  split at h
  · cases h
  all_goals obtain rfl := Host.Outcome.next.inj h
  · split
    · exact .answered _ _
    · exact .answered _ _
  · split
    · exact .answered _ _
    · exact .answered _ _
  · split
    · split
      next busy => exact .blocked _ _ busy
      next => exact .answered _ _
    · exact .answered _ _

theorem State.hostWrite_effect {s t : State} {o : Nat} {w : Width} {v : BusData} (h : s.hostWrite o w v = .next t) :
    HostEffect s (.write o w v) t := by
  rcases regionOf_cases o with ⟨_, region⟩ | ⟨_, _, region⟩ | ⟨low, high, region⟩ | ⟨_, region⟩ <;>
    simp only [State.hostWrite, region, Host.Outcome.next.injEq, reduceCtorEq] at h
  · subst h
    split
    next ok =>
      obtain ⟨rfl, align⟩ := (regAccessOk_iff o w).mp ok
      split
      next r found =>
        rw [eq_regOffset_of_regAt align found]
        exact .register (s.writeReg_effect r _)
      next => exact .answered _ _
    next => exact .answered _ _
  · subst h
    split
    · exact .answered _ _
    · exact .answered _ _
  · subst h
    split
    next ok =>
      obtain ⟨standard, align⟩ := (naturalAccess_iff _ w).mp ok
      split
      next busy => exact .blocked _ _ busy
      next idle =>
        have stored := HostEffect.stored (v := v) (eq_false_of_ne_true idle) standard align (by omega)
        rwa [Nat.add_sub_cancel' low] at stored
    next => exact .answered _ _

/-- A host access does one of the things that `HostEffect` lists. -/
theorem State.hostAccess_effect {s t : State} {a : HostAccess} (h : s.hostAccess a = .next t) : HostEffect s a t := by
  cases a with
  | read o w => exact State.hostRead_effect h
  | write o w v => exact State.hostWrite_effect h

/-! ### What a step can do (10_state.md R20) -/

/-- How a command word ends (60_exceptions.md R227; 30_encoding.md R92). -/
def wordEnd (v : Word) (s : State) : CommandEnd :=
  match decode v with
  | .ok i => commandEnd i s
  | .error _ => .error .eill

theorem State.complete_eq_finish_wordEnd (s : State) (v : Word) : s.complete v = .next (s.finish (wordEnd v s)) := by
  rw [State.complete, wordEnd]
  cases decode v with
  | ok i => exact exec_eq_finish i s
  | error _ => rfl

/-- A command word writes RES only as a field command; else it writes LMEM. -/
theorem wordEnd_writes (v : Word) (s : State) :
    (∃ i, i ∈ fieldCommands ∧ decode v = .ok i ∧ (wordEnd v s).WritesRes) ∨ (wordEnd v s).WritesLmem := by
  unfold wordEnd
  cases decode v with
  | ok i =>
    rcases commandEnd_writes i s with ⟨hi, writes⟩ | writes
    · exact .inl ⟨i, hi, rfl, writes⟩
    · exact .inr writes
  | error => exact .inr (.error _)

/-- What one step can do: `step_effect` says that it is one of these. -/
inductive StepEffect (s : State) : State → Prop
  | passed {rest : List Event} (turn : s.sequencerMoves rest) (idle : s.busy = false) : StepEffect s (s.withAgenda rest)
  | completed {rest : List Event} {l : InFlight} (turn : s.sequencerMoves rest) (inflight : s.inflight = some l) :
      StepEffect s ((s.withAgenda rest).finish (wordEnd l.word (s.withAgenda rest)))
  | accessed {rest : List Event} {a : HostAccess} {t : State} (received : s.agenda = .access a :: rest)
      (effect : HostEffect (s.withAgenda rest) a t) : StepEffect s t
  | reset {rest : List Event} (received : s.agenda = .rst :: rest) : StepEffect s (s.withAgenda rest).resetInput

theorem State.inflight_eq_none_iff (s : State) : s.inflight = none ↔ s.busy = false := by
  simp [State.busy]

theorem State.busy_of_inflight {s : State} {l : InFlight} (h : s.inflight = some l) : s.busy = true := by
  simp [State.busy, h]

/-- Settles O6: the sequencer finds nothing in flight. -/
theorem idleSequencerTurnPasses : Obligations.IdleSequencerTurnPasses := by
  intro s rest idle turn
  rw [turn.step_eq]
  exact State.sequencerTurn_of_idle (s.inflight_eq_none_iff.mpr idle)

theorem State.sequencerMoves.effect {s t : State} {rest : List Event} (turn : s.sequencerMoves rest)
    (h : step s = .next t) : StepEffect s t := by
  cases hl : s.inflight with
  | none =>
    have idle := s.inflight_eq_none_iff.mp hl
    rw [idleSequencerTurnPasses s rest idle turn] at h
    obtain rfl := Host.Outcome.next.inj h
    exact .passed turn idle
  | some l =>
    rw [turn.step_eq, State.sequencerTurn_of_inflight (s := s.withAgenda rest) hl,
      State.complete_eq_finish_wordEnd] at h
    obtain rfl := Host.Outcome.next.inj h
    exact .completed turn hl

/-- A step does one of the things that `StepEffect` lists. -/
theorem step_effect {s t : State} (h : step s = .next t) : StepEffect s t := by
  match hs : s.agenda with
  | [] => exact State.sequencerMoves.effect (.inl ⟨hs, rfl⟩) h
  | .sequencer :: rest => exact State.sequencerMoves.effect (.inr hs) h
  | .access a :: rest => exact .accessed hs (State.hostAccess_effect ((step_of_access hs).symm.trans h))
  | .rst :: rest =>
    obtain rfl := Host.Outcome.next.inj ((step_of_rst hs).symm.trans h)
    exact .reset hs

/-! ### The sticky flags (10_state.md R26, 60_exceptions.md R229) -/

section
variable (s : State) (e : CommandEnd)

@[simp] theorem State.finish_ovf : (s.finish e).status.ovf = s.status.ovf := by cases e <;> rfl
@[simp] theorem State.finish_haz : (s.finish e).status.haz = s.status.haz := by cases e <;> rfl
@[simp] theorem State.finish_busy : (s.finish e).busy = false := by cases e <;> rfl

end

/-- A register write clears OVF or HAZ only as a STATUS write with the flag's bit set (10_state.md R27). -/
theorem RegEffect.sticky {s t : State} {v : Word} {r : Reg} (h : RegEffect s v r t) :
    (s.status.ovf = true → t.status.ovf = false → r = .status ∧ v.getLsbD 4 = true) ∧
    (s.status.haz = true → t.status.haz = false → r = .status ∧ v.getLsbD 5 = true) := by
  cases h <;> simp +contextual [State.launch]

/-- Settles O11: OVF and HAZ outlast a completion and every access but the STATUS write. -/
theorem stickyFlagsClearOnlyByHostOrReset : Obligations.StickyFlagsClearOnlyByHostOrReset := by
  intro s t h
  cases step_effect h with
  | passed | completed => simp +contextual
  | reset received => exact ⟨fun _ _ => .inr ⟨_, received⟩, fun _ _ => .inr ⟨_, received⟩⟩
  | accessed received effect =>
    cases effect with
    | answered | blocked | stored => simp +contextual [State.blocked, State.storeBytes]
    | register effect =>
      obtain ⟨ovf, haz⟩ := effect.sticky
      refine ⟨fun set cleared => .inl ?_, fun set cleared => .inl ?_⟩
      · obtain ⟨rfl, bit⟩ := ovf set cleared
        exact ⟨_, _, received, by simpa using bit⟩
      · obtain ⟨rfl, bit⟩ := haz set cleared
        exact ⟨_, _, received, by simpa using bit⟩

/-! ### RES (10_state.md R30) -/

theorem RegEffect.res_eq {s t : State} {v : Word} {r : Reg} (h : RegEffect s v r t) : t.res = s.res := by
  cases h <;> simp [State.launch]

theorem HostEffect.res_eq {s t : State} {a : HostAccess} (h : HostEffect s a t) : t.res = s.res := by
  cases h with
  | register effect => exact effect.res_eq
  | _ => rfl

/-- A command that writes LMEM keeps RES. -/
theorem CommandEnd.WritesLmem.res_eq {e : CommandEnd} (h : e.WritesLmem) (s : State) : (s.finish e).res = s.res := by
  cases h <;> rfl

/-- A field command that ends with an error leaves RES alone (60_exceptions.md R224). -/
theorem CommandEnd.WritesRes.err_of_res_ne {e : CommandEnd} (h : e.WritesRes) {s : State}
    (changed : (s.finish e).res ≠ s.res) : (s.finish e).status.err = false := by
  cases h with
  | error => exact absurd rfl changed
  | result => rfl

/-- Settles O12: of all steps only a reset and a field command's completion reach RES. -/
theorem resChangesOnlyByFieldCompletion : Obligations.ResChangesOnlyByFieldCompletion := by
  intro s t h changed
  cases step_effect h with
  | passed => exact absurd rfl changed
  | reset received => exact .inl ⟨_, received⟩
  | accessed received effect => exact absurd effect.res_eq changed
  | completed turn inflight =>
    rcases wordEnd_writes _ _ with ⟨i, hi, decoded, writes⟩ | writes
    · exact .inr ⟨_, i, _, inflight, turn, decoded, hi, writes.err_of_res_ne changed⟩
    · exact absurd (writes.res_eq _) changed

/-! ### LMEM (10_state.md R37, 20_memory.md R65) -/

theorem RegEffect.lmem_eq {s t : State} {v : Word} {r : Reg} (h : RegEffect s v r t) : t.lmem = s.lmem := by
  cases h <;> simp [State.launch]

theorem RegEffect.byteAt_eq {s t : State} {v : Word} {r : Reg} (h : RegEffect s v r t) (x : Nat) :
    t.byteAt x = s.byteAt x := by
  cases h <;> simp [State.launch]

/-- A naturally aligned access of a standard width ends inside LMEM (20_memory.md R63). -/
theorem add_le_of_standard {w : Width} {a : Nat} (standard : w.standard = true) (align : a % w.bytes = 0)
    (inside : a < 0x400000) : a + w.bytes ≤ 0x400000 := by
  rcases standard_bytes standard with h | h | h | h <;> rw [h] at align ⊢ <;> omega

/-- Settles O13: a store changes no byte outside its range, and an access stores only while BUSY = 0. -/
theorem lmemChangesOnlyByIdleWriteOrCompletion : Obligations.LmemChangesOnlyByIdleWriteOrCompletion := by
  intro s t x h changed
  cases step_effect h with
  | passed => exact absurd rfl changed
  | completed turn inflight => exact .inr (.inl ⟨_, State.busy_of_inflight inflight, turn⟩)
  | reset received => exact .inl ⟨_, received⟩
  | accessed received effect =>
    cases effect with
    | answered | blocked => exact absurd rfl changed
    | register effect => exact absurd (effect.byteAt_eq x) changed
    | @stored a w v idle standard align inside =>
      have within : a ≤ x ∧ x < a + w.bytes := by
        by_contra out
        refine changed (State.byteAt_storeBytes_outside _ a _ ?_)
        rw [length_natToBytes]; omega
      have := add_le_of_standard standard align inside
      exact .inr (.inr ⟨a, w, v, _, received, idle, standard, align, within.1, within.2, by omega⟩)

/-! ### The operand registers (10_state.md R24, R29, R31, R32, R40) -/

theorem State.finish_operands (s : State) (e : CommandEnd) : (s.finish e).operands = s.operands := by
  cases e <;> rfl

/-- A register write changes an operand register only by storing to it while BUSY = 0. -/
theorem RegEffect.eq_of_readReg_ne {s t : State} {v : Word} {r r' : Reg} (h : RegEffect s v r' t)
    (hr : r ∈ operandRegs) (changed : t.readReg r ≠ s.readReg r) : r' = r ∧ s.busy = false := by
  have differ : t.operands ≠ s.operands := mt (State.readReg_of_operands_eq hr) changed
  cases h with
  | stored _ idle => exact ⟨by_contra fun hne => changed (s.readReg_storeOperand_of_ne v (Ne.symm hne)), idle⟩
  | _ => exact absurd rfl differ

/-- Settles O14: of all steps only a reset and an idle write to the register itself reach its operand. -/
theorem operandRegistersChangeOnlyByIdleWrite : Obligations.OperandRegistersChangeOnlyByIdleWrite := by
  intro s t r hr h changed
  have differ : t.operands ≠ s.operands := mt (State.readReg_of_operands_eq hr) changed
  cases step_effect h with
  | passed => exact absurd rfl differ
  | completed => exact absurd (State.finish_operands _ _) differ
  | reset received => exact .inl ⟨_, received⟩
  | accessed received effect =>
    cases effect with
    | answered | blocked | stored => exact absurd rfl differ
    | register effect =>
      obtain ⟨rfl, idle⟩ := effect.eq_of_readReg_ne hr changed
      exact .inr ⟨_, _, received, idle⟩

/-! ### The invariant (10_state.md R26, R37; 60_exceptions.md R221; 40_field.md R114) -/

theorem State.inv_iff (s : State) :
    s.inv = true ↔ Memory.wf s.lmem = true ∧ statusOk s.busy s.status = true ∧ s.res.toNat < 2 ^ 13 := by
  simp [State.inv, and_assoc]

/-- Settles O9: the empty memory, no flag set, RES 0. -/
theorem resetMeetsInvariant : Obligations.ResetMeetsInvariant := by
  rw [Obligations.ResetMeetsInvariant, State.inv_iff]
  exact ⟨Memory.wf_nil, by decide, by decide⟩

/-- A change of OVF and HAZ, or a fall of DONE, keeps STATUS consistent. -/
theorem statusOk_of_outcome_eq {busy : Bool} {t t' : Status} (h : statusOk busy t = true)
    (done : t'.done = true → t.done = true) (failed : t'.failed = t.failed) (err : t'.err = t.err)
    (errcode : t'.errcode = t.errcode) : statusOk busy t' = true := by
  have done : t.done = false → t'.done = false := by simpa using mt done
  simp only [statusOk, failed, err, errcode, Bool.and_eq_true, Bool.or_eq_true, Bool.not_eq_true'] at h ⊢
  obtain ⟨flags, idle | ⟨⟨⟨clear, failed⟩, err⟩, errcode⟩⟩ := h
  · exact ⟨flags, .inl idle⟩
  · exact ⟨flags, .inr ⟨⟨⟨done clear, failed⟩, err⟩, errcode⟩⟩

theorem statusOk_statusHazard {busy : Bool} {t : Status} (h : statusOk busy t = true) :
    statusOk busy (statusHazard t) = true := statusOk_of_outcome_eq h id rfl rfl rfl

theorem statusOk_statusOverflow {busy : Bool} {t : Status} (h : statusOk busy t = true) :
    statusOk busy (statusOverflow t) = true := statusOk_of_outcome_eq h id rfl rfl rfl

theorem statusOk_statusClear {busy : Bool} {t : Status} (v : Word) (h : statusOk busy t = true) :
    statusOk busy (statusClear v t) = true :=
  statusOk_of_outcome_eq h (fun cleared => (Bool.and_eq_true_iff.mp cleared).1) rfl rfl rfl

/-- A launch clears the outcome flags (60_exceptions.md R226). -/
theorem statusOk_statusLaunched (busy : Bool) (t : Status) : statusOk busy (statusLaunched t) = true := by
  cases busy <;> rfl

/-- Each outcome sets its flags whatever they were (60_exceptions.md R224, R225, R227). -/
theorem statusOk_finish (s : State) (e : CommandEnd) : statusOk false (s.finish e).status = true := by
  cases e with
  | error c => cases c <;> rfl
  | _ => rfl

theorem RegEffect.statusOk {s t : State} {v : Word} {r : Reg} (h : RegEffect s v r t)
    (ok : statusOk s.busy s.status = true) : statusOk t.busy t.status = true := by
  cases h with
  | ignored | irqen => exact ok
  | stored => simpa using ok
  | dropped => exact statusOk_statusHazard ok
  | cleared => exact statusOk_statusClear v ok
  | launched => exact statusOk_statusLaunched _ _
  | overflowed => exact statusOk_statusOverflow ok

theorem RegEffect.inv {s t : State} {v : Word} {r : Reg} (h : RegEffect s v r t) (hs : s.inv = true) :
    t.inv = true := by
  rw [State.inv_iff] at hs ⊢
  obtain ⟨mem, status, res⟩ := hs
  exact ⟨by rwa [h.lmem_eq], h.statusOk status, by rwa [h.res_eq]⟩

theorem HostEffect.inv {s t : State} {a : HostAccess} (h : HostEffect s a t) (hs : s.inv = true) : t.inv = true := by
  cases h with
  | answered => exact hs
  | register effect => exact effect.inv hs
  | blocked =>
    obtain ⟨mem, status, res⟩ := s.inv_iff.mp hs
    exact (State.inv_iff _).mpr ⟨mem, statusOk_statusHazard status, res⟩
  | stored _ standard align inside =>
    obtain ⟨mem, status, res⟩ := s.inv_iff.mp hs
    have inside := add_le_of_standard standard align inside
    exact (State.inv_iff _).mpr ⟨Memory.wf_writeBytes mem (by rwa [length_natToBytes]), status, res⟩

/-- A completion keeps the invariant, if it writes an element of a field to RES or bytes inside LMEM. -/
theorem State.finish_inv {s : State} {e : CommandEnd} (writes : e.WritesRes ∨ e.WritesLmem) (hs : s.inv = true) :
    (s.finish e).inv = true := by
  obtain ⟨mem, _, res⟩ := s.inv_iff.mp hs
  have status : statusOk (s.finish e).busy (s.finish e).status = true := by
    rw [State.finish_busy]; exact statusOk_finish s e
  rw [State.inv_iff]
  rcases writes with writes | writes
  · cases writes with
    | error => exact ⟨mem, status, res⟩
    | result small => exact ⟨mem, status, small⟩
  · cases writes with
    | error | fail | normal => exact ⟨mem, status, res⟩
    | failUnspecified inside => exact ⟨State.wf_drawRegion mem inside, status, res⟩
    | store inside => exact ⟨Memory.wf_writeBytes mem inside, status, res⟩

/-- Settles O10: the invariant is kept by each thing a step can do. -/
theorem stepKeepsInvariant : Obligations.StepKeepsInvariant := by
  intro s t hs h
  cases step_effect h with
  | passed => exact hs
  | completed => exact State.finish_inv ((wordEnd_writes _ _).imp_left fun ⟨_, _, _, writes⟩ => writes) hs
  | accessed _ effect => exact effect.inv hs
  | reset => exact resetMeetsInvariant

end Sys2Proof.Machine
end

section
/-! PROOFS. The aperture: what a host access does in each of its regions, when a step faults, little-endian LMEM
accesses, and that a busy block shows nothing of LMEM (spec/20_memory.md R60 to R65, R71). -/

namespace Sys2Proof.Machine

/-! ### Where an offset lies (20_memory.md R60) -/

theorem regionOf_reserved {o : Nat} (low : 0x1000 ≤ o) (high : o < 0x400000) : regionOf o = some .reserved := by
  rw [regionOf, if_neg low.not_gt, if_pos high]

theorem regionOf_lmemWindow {o : Nat} (low : 0x400000 ≤ o) (high : o < 0x800000) :
    regionOf o = some (.lmemWindow (o - 0x400000)) := by
  rw [regionOf, if_neg (by omega), if_neg low.not_gt, apertureBytes, if_pos high]

theorem regionOf_lmemOffset {a : Nat} (inside : a < 0x400000) :
    regionOf (0x400000 + a) = some (.lmemWindow a) := by
  rw [regionOf_lmemWindow (by omega) (by omega), Nat.add_sub_cancel_left]

theorem regionOf_outside {o : Nat} (outside : 0x800000 ≤ o) : regionOf o = none := by
  rw [regionOf, if_neg (by omega), if_neg (by omega), apertureBytes, if_neg outside.not_gt]

/-! ### What an access does in each region (20_memory.md R61 to R65) -/

/-- The answer of an access that reaches no register and no byte: a read gives 0, a write counts as written. -/
def emptyAnswer : HostAccess → BusResponse
  | .read _ _ => .data 0
  | .write _ _ _ => .written

section
variable (s : State) {a : HostAccess}

theorem State.hostAccess_outside (outside : 0x800000 ≤ a.offset) :
    s.hostAccess a = .fault (.outsideAperture a.offset) := by
  have region := regionOf_outside outside
  cases a with
  | read => simp_all [State.hostAccess, State.hostRead, HostAccess.offset]
  | write => simp_all [State.hostAccess, State.hostWrite, HostAccess.offset]

theorem State.hostAccess_registerPage_refused (page : a.offset < 0x1000) (other : ¬ (a.width = .w4 ∧ a.offset % 4 = 0)) :
    s.hostAccess a = .next s.refuse := by
  have region := regionOf_registerPage page
  rw [← regAccessOk_iff] at other
  cases a with
  | read => simp_all [State.hostAccess, State.hostRead, HostAccess.offset, HostAccess.width]
  | write => simp_all [State.hostAccess, State.hostWrite, HostAccess.offset, HostAccess.width]

theorem State.hostAccess_reserved (low : 0x1000 ≤ a.offset) (high : a.offset < 0x400000) :
    s.hostAccess a = .next (if naturalAccess a.offset a.width then s.withBus (emptyAnswer a) else s.refuse) := by
  have region := regionOf_reserved low high
  cases a with
  | read => simp_all [State.hostAccess, State.hostRead, HostAccess.offset, HostAccess.width, emptyAnswer]
  | write => simp_all [State.hostAccess, State.hostWrite, HostAccess.offset, HostAccess.width, emptyAnswer]

/-- The LMEM window refuses an access that is not natural, busy or not. -/
theorem State.hostAccess_lmem_refused (low : 0x400000 ≤ a.offset) (high : a.offset < 0x800000)
    (other : ¬ naturalAccess (a.offset - 0x400000) a.width = true) : s.hostAccess a = .next s.refuse := by
  have region := regionOf_lmemWindow low high
  cases a with
  | read => simp_all [State.hostAccess, State.hostRead, HostAccess.offset, HostAccess.width]
  | write => simp_all [State.hostAccess, State.hostWrite, HostAccess.offset, HostAccess.width]

/-- While BUSY = 1 the LMEM window blocks a natural access. -/
theorem State.hostAccess_lmem_blocked {s : State} (busy : s.busy = true) (low : 0x400000 ≤ a.offset)
    (high : a.offset < 0x800000) (natural : naturalAccess (a.offset - 0x400000) a.width = true) :
    s.hostAccess a = .next (s.blocked (emptyAnswer a)) := by
  have region := regionOf_lmemWindow low high
  cases a with
  | read => simp_all [State.hostAccess, State.hostRead, HostAccess.offset, HostAccess.width, emptyAnswer]
  | write => simp_all [State.hostAccess, State.hostWrite, HostAccess.offset, HostAccess.width, emptyAnswer]

end

section
variable {s : State} {a : Nat} {w : Width} (idle : s.busy = false) (natural : naturalAccess a w = true)
  (inside : a < 0x400000)
include idle natural inside

/-- While BUSY = 0 a natural LMEM read answers the bytes it names. -/
theorem State.hostRead_lmem_idle :
    s.hostRead (0x400000 + a) w = .next (s.withBus (.data (BitVec.ofNat 64 (s.memRead a w.bytes)))) := by
  simp only [State.hostRead, regionOf_lmemOffset inside]
  rw [if_pos natural, idle]; rfl

/-- While BUSY = 0 a natural LMEM write stores the low bytes of its data. -/
theorem State.hostWrite_lmem_idle (v : BusData) :
    s.hostWrite (0x400000 + a) w v = .next ((s.storeBytes a (natToBytes w.bytes v.toNat)).withBus .written) := by
  simp only [State.hostWrite, regionOf_lmemOffset inside]
  rw [if_pos natural, idle]; rfl

end

/-! ### Faults (20_memory.md R60; log 8) -/

/-- Inside the aperture an access is answered. -/
theorem State.hostAccess_inside (s : State) {a : HostAccess} (inside : a.offset < 0x800000) :
    ∃ t, s.hostAccess a = .next t := by
  have region : ∃ r, regionOf a.offset = some r := by
    rcases regionOf_cases a.offset with ⟨_, region⟩ | ⟨_, _, region⟩ | ⟨_, _, region⟩ | ⟨outside, _⟩
    · exact ⟨_, region⟩
    · exact ⟨_, region⟩
    · exact ⟨_, region⟩
    · omega
  obtain ⟨r, region⟩ := region
  cases a with
  | read o w =>
    rw [State.hostAccess, State.hostRead, show regionOf o = _ from region]
    cases r <;> exact ⟨_, rfl⟩
  | write o w v =>
    rw [State.hostAccess, State.hostWrite, show regionOf o = _ from region]
    cases r <;> exact ⟨_, rfl⟩

/-- The sequencer's turn never stops the machine. -/
theorem State.sequencerTurn_next (s : State) : ∃ t, s.sequencerTurn = .next t := by
  cases inflight : s.inflight with
  | none => exact ⟨_, State.sequencerTurn_of_idle inflight⟩
  | some l =>
    obtain ⟨e, complete⟩ := s.complete_eq_finish l.word
    exact ⟨_, (State.sequencerTurn_of_inflight inflight).trans complete⟩

/-- The event received next is an access outside the aperture, and `f` names it. -/
def State.receivesOutside (s : State) (f : Fault) : Prop :=
  ∃ a rest, s.agenda = .access a :: rest ∧ 0x800000 ≤ a.offset ∧ f = .outsideAperture a.offset

/-- A step answers a next state, unless it receives an access outside the aperture and names it in a fault. -/
theorem step_next_or_fault (s : State) :
    ((∃ t, step s = .next t) ∧ ∀ f, ¬ s.receivesOutside f) ∨
      ∃ f, step s = .fault f ∧ ∀ f', s.receivesOutside f' ↔ f = f' := by
  match agenda : s.agenda with
  | [] => exact .inl ⟨step_of_empty_agenda agenda ▸ s.sequencerTurn_next, by simp [State.receivesOutside, agenda]⟩
  | .sequencer :: rest =>
    exact .inl ⟨step_of_sequencer agenda ▸ State.sequencerTurn_next _, by simp [State.receivesOutside, agenda]⟩
  | .rst :: rest => exact .inl ⟨⟨_, step_of_rst agenda⟩, by simp [State.receivesOutside, agenda]⟩
  | .access a :: rest =>
    rcases Nat.lt_or_ge a.offset 0x800000 with inside | outside
    · refine .inl ⟨step_of_access agenda ▸ State.hostAccess_inside _ inside, ?_⟩
      simp [State.receivesOutside, agenda, inside]
    · refine .inr ⟨_, (step_of_access agenda).trans (State.hostAccess_outside _ outside), fun f' => ?_⟩
      simp [State.receivesOutside, agenda, outside, eq_comm]

/-- Settles O7: of all that a step can receive, only an access outside the aperture faults. -/
theorem faultsOnlyOutsideAperture : Obligations.FaultsOnlyOutsideAperture := by
  refine ⟨fun s f => show step s = .fault f ↔ s.receivesOutside f from ?_, fun s r => ?_⟩
  · rcases step_next_or_fault s with ⟨⟨t, next⟩, inside⟩ | ⟨f', fault, outside⟩
    · simp [next, inside]
    · simp [fault, outside]
  · rcases step_next_or_fault s with ⟨⟨t, next⟩, _⟩ | ⟨f', fault, _⟩
    · simp [next]
    · simp [fault]

/-! ### Refused, ignored and blocked accesses (20_memory.md R61 to R63, R65) -/

/-- Settles O25: the register page takes no other access. -/
theorem registerPageRefusesOtherAccesses : Obligations.RegisterPageRefusesOtherAccesses :=
  fun _ _ _ h page other => (step_of_access h).trans (State.hostAccess_registerPage_refused _ page other)

/-- Settles O26: for a standard width, natural means aligned. -/
theorem reservedRegionReadsZero : Obligations.ReservedRegionReadsZero := by
  intro s a rest h standard low high
  rw [step_of_access h, State.hostAccess_reserved _ low high]
  by_cases align : a.offset % a.width.bytes = 0
  · rw [if_pos ((naturalAccess_iff _ _).mpr ⟨standard, align⟩), if_pos align]; rfl
  · rw [if_neg fun natural => align ((naturalAccess_iff _ _).mp natural).2, if_neg align]; rfl

/-- Settles O29: a misaligned access is not natural. -/
theorem misalignedLmemAccessIsRefused : Obligations.MisalignedLmemAccessIsRefused :=
  fun _ _ _ h _ low high misaligned => (step_of_access h).trans
    (State.hostAccess_lmem_refused _ low high fun natural => misaligned ((naturalAccess_iff _ _).mp natural).2)

/-- Settles O30: a blocked access sets HAZ and has the empty answer. -/
theorem busyLmemAccessIsBlocked : Obligations.BusyLmemAccessIsBlocked :=
  fun s _ rest busy h standard low high align => (step_of_access h).trans
    (State.hostAccess_lmem_blocked (s := s.withAgenda rest) busy low high ((naturalAccess_iff _ _).mpr ⟨standard, align⟩))

/-- Settles O60: an access of another width is not natural, in either region. -/
theorem otherWidthsAreRefusedOutsideRegisterPage : Obligations.OtherWidthsAreRefusedOutsideRegisterPage := by
  intro s a rest h other low high
  have unnatural : ∀ o, ¬ naturalAccess o a.width = true := by simp [other]
  rw [step_of_access h]
  rcases Nat.lt_or_ge a.offset 0x400000 with reserved | window
  · rw [State.hostAccess_reserved _ low reserved, if_neg (unnatural _)]; rfl
  · exact State.hostAccess_lmem_refused _ window high (unnatural _)

/-! ### Little-endian accesses of LMEM while BUSY = 0 (20_memory.md R63, R64, R71) -/

/-- Byte k of a little-endian value. -/
theorem bytesToNat_div_mod (bs : List Byte) {k : Nat} (h : k < bs.length) :
    bytesToNat bs / 256 ^ k % 256 = (bs.getD k 0).toNat := by
  have byte := getD_natToBytes bs.length (bytesToNat bs) k
  rw [natToBytes_bytesToNat, if_pos h] at byte
  rw [byte, BitVec.toNat_ofNat]

theorem State.memRead_lt (s : State) (a n : Nat) : s.memRead a n < 256 ^ n :=
  (bytesToNat_lt _).trans_eq (by rw [length_readBytes])

/-- Byte k of a value read from LMEM is the byte at a + k. -/
theorem State.memRead_div_mod (s : State) (a : Nat) {n k : Nat} (h : k < n) :
    s.memRead a n / 256 ^ k % 256 = (s.byteAt (a + k)).toNat := by
  rw [State.memRead_eq, bytesToNat_div_mod _ (by simpa using h)]
  simp [h]

/-- Byte k of a value written to LMEM stands at a + k. -/
theorem State.byteAt_storeBytes_natToBytes (s : State) (a v : Nat) {n k : Nat} (h : k < n) :
    ((s.storeBytes a (natToBytes n v)).byteAt (a + k)).toNat = v / 256 ^ k % 256 := by
  rw [State.byteAt_storeBytes_inside _ _ _ (by omega) (by simpa using h), Nat.add_sub_cancel_left, getD_natToBytes,
    if_pos h, BitVec.toNat_ofNat]

/-- The data lines hold every standard width. -/
theorem pow_bytes_le_of_standard {w : Width} (standard : w.standard = true) : 256 ^ w.bytes ≤ 2 ^ 64 := by
  rcases standard_bytes standard with h | h | h | h <;> rw [h] <;> decide

/-- Settles O27: the value fits the data lines, so the bus shows its bytes unchanged. -/
theorem idleLmemReadIsLittleEndian : Obligations.IdleLmemReadIsLittleEndian := by
  intro s a w rest idle standard align inside h
  have read := State.hostRead_lmem_idle (s := s.withAgenda rest) idle
    ((naturalAccess_iff a w).mpr ⟨standard, align⟩) inside
  have fits : (BitVec.ofNat 64 (s.memRead a w.bytes)).toNat = s.memRead a w.bytes := by
    rw [BitVec.toNat_ofNat, Nat.mod_eq_of_lt ((s.memRead_lt a w.bytes).trans_le (pow_bytes_le_of_standard standard))]
  refine ⟨_, (step_of_access h).trans read, ?_⟩
  rw [State.withAgenda_memRead, fits]
  exact ⟨s.memRead_lt a w.bytes, fun k hk => s.memRead_div_mod a hk⟩

/-- Settles O28: the write is a store of the value's low bytes. -/
theorem idleLmemWriteStoresLittleEndian : Obligations.IdleLmemWriteStoresLittleEndian := by
  intro s a w v rest idle standard align inside h
  have write := State.hostWrite_lmem_idle (s := s.withAgenda rest) idle
    ((naturalAccess_iff a w).mpr ⟨standard, align⟩) inside v
  refine ⟨_, (step_of_access h).trans write, fun k hk => ?_, fun x out => ?_, rfl⟩
  · exact State.byteAt_storeBytes_natToBytes _ a v.toNat hk
  · exact State.byteAt_storeBytes_outside _ a _ (by simpa using out)

/-! ### A busy block shows nothing of LMEM (20_memory.md R65) -/

theorem State.readReg_withLmem (s : State) (m : Memory) (r : Reg) : (s.withLmem m).readReg r = s.readReg r := by
  cases r <;> rfl

theorem State.unlessBusy_withLmem (s t : State) (m : Memory) :
    (s.withLmem m).unlessBusy (t.withLmem m) = (s.unlessBusy t).withLmem m := by
  cases busy : s.busy with
  | false => rw [State.unlessBusy_of_idle busy, State.unlessBusy_of_idle (s := s.withLmem m) busy]
  | true => rw [State.unlessBusy_of_busy busy, State.unlessBusy_of_busy (s := s.withLmem m) busy]; rfl

theorem State.storeOperand_withLmem (s : State) (m : Memory) (r : Reg) (v : Word) :
    (s.withLmem m).storeOperand r v = (s.storeOperand r v).withLmem m := by
  cases r <;> rfl

/-- A register write neither reads nor writes LMEM. -/
theorem State.writeReg_withLmem (s : State) (m : Memory) (r : Reg) (v : Word) :
    (s.withLmem m).writeReg r v = (s.writeReg r v).withLmem m := by
  cases r with
  | id | version | res | irqen | status => rfl
  | cfg | opa | opb | addr0 | addr1 | len =>
    rw [State.writeReg_of_mem_operandRegs _ v (by simp), State.writeReg_of_mem_operandRegs _ v (by simp),
      State.storeOperand_withLmem, State.unlessBusy_withLmem]
  | cmd => rw [State.writeReg, State.writeReg, State.withLmem_busy]; cases s.busy <;> rfl

/-- A register-page access neither reads nor writes LMEM: it finds a register, finds none, or is refused. -/
theorem State.hostAccess_registerPage_withLmem (s : State) (m : Memory) {a : HostAccess} (page : a.offset < 0x1000) :
    ∃ t, s.hostAccess a = .next t ∧ (s.withLmem m).hostAccess a = .next (t.withLmem m) := by
  by_cases ok : a.width = .w4 ∧ a.offset % 4 = 0
  · obtain ⟨width, align⟩ := ok
    cases found : regAt a.offset with
    | some r =>
      have offset := eq_regOffset_of_regAt align found
      cases a with
      | read o w =>
        obtain rfl : w = .w4 := width
        obtain rfl : o = regOffset r := offset
        exact ⟨_, s.hostRead_regOffset r, s.readReg_withLmem m r ▸ (s.withLmem m).hostRead_regOffset r⟩
      | write o w v =>
        obtain rfl : w = .w4 := width
        obtain rfl : o = regOffset r := offset
        refine ⟨_, s.hostWrite_regOffset r v, ((s.withLmem m).hostWrite_regOffset r v).trans ?_⟩
        rw [State.writeReg_withLmem]; rfl
    | none =>
      have reserved := (regAt_eq_none_iff _).mp found
      cases a with
      | read o w =>
        obtain rfl : w = .w4 := width
        exact ⟨_, s.hostRead_reserved align page reserved, (s.withLmem m).hostRead_reserved align page reserved⟩
      | write o w v =>
        obtain rfl : w = .w4 := width
        exact ⟨_, s.hostWrite_reserved align page reserved v, (s.withLmem m).hostWrite_reserved align page reserved v⟩
  · exact ⟨_, s.hostAccess_registerPage_refused page ok, (s.withLmem m).hostAccess_registerPage_refused page ok⟩

/-- While BUSY = 1, other bytes in LMEM do not change what an access does. -/
theorem State.hostAccess_withLmem_of_busy {s : State} (busy : s.busy = true) (m : Memory) {a : HostAccess}
    (inside : a.offset < 0x800000) :
    ∃ t, s.hostAccess a = .next t ∧ (s.withLmem m).hostAccess a = .next (t.withLmem m) := by
  rcases regionOf_cases a.offset with ⟨page, _⟩ | ⟨low, high, _⟩ | ⟨low, high, _⟩ | ⟨outside, _⟩
  · exact s.hostAccess_registerPage_withLmem m page
  · refine ⟨_, s.hostAccess_reserved low high, ((s.withLmem m).hostAccess_reserved low high).trans ?_⟩
    split <;> rfl
  · by_cases natural : naturalAccess (a.offset - 0x400000) a.width = true
    · exact ⟨_, State.hostAccess_lmem_blocked busy low high natural,
        State.hostAccess_lmem_blocked (s := s.withLmem m) busy low high natural⟩
    · exact ⟨_, s.hostAccess_lmem_refused low high natural, (s.withLmem m).hostAccess_lmem_refused low high natural⟩
  · omega

/-- While BUSY = 1 an access stores nothing. -/
theorem HostEffect.lmem_eq_of_busy {s t : State} {a : HostAccess} (h : HostEffect s a t) (busy : s.busy = true) :
    t.lmem = s.lmem := by
  cases h with
  | answered | blocked => rfl
  | register effect => exact effect.lmem_eq
  | stored idle => simp [busy] at idle

/-- Settles O31: an access that completes lies in the aperture, where other bytes in LMEM change nothing. -/
theorem busyHostCannotObserveLmem : Obligations.BusyHostCannotObserveLmem := by
  intro s t m a rest busy h next
  rw [step_of_access h] at next
  refine ⟨(State.hostAccess_effect next).lmem_eq_of_busy busy, ?_⟩
  have inside : a.offset < 0x800000 := by
    by_contra outside
    rw [State.hostAccess_outside _ (Nat.le_of_not_lt outside)] at next
    cases next
  obtain ⟨u, answer, withLmem⟩ := State.hostAccess_withLmem_of_busy (s := s.withAgenda rest) busy m inside
  obtain rfl := Host.Outcome.next.inj (answer.symm.trans next)
  exact (step_of_access (s := s.withLmem m) h).trans withLmem

end Sys2Proof.Machine
end

section
/-! PROOFS. The encoding: a command word as its two fields, the opcode map as a bijection between the assigned opcodes
and the commands, which words the decoder accepts, and what an ILLEGAL word in flight does (spec/30_encoding.md R90 to
R95, spec/60_exceptions.md R221, R224). -/

namespace Sys2Proof

/-! ### The fields of a command word (30_encoding.md R90) -/

/-- A word is its field RSV above its field OPC. -/
theorem rsvField_append_opcField (v : Word) : rsvField v ++ opcField v = v :=
  BitVec.extractLsb'_append_extractLsb' (w := 24) (len := 8)

@[simp] theorem rsvField_encode (i : Instr) : rsvField (encode i) = 0 := BitVec.extractLsb'_append_eq_left

@[simp] theorem opcField_encode (i : Instr) : opcField (encode i) = i.opcode := BitVec.extractLsb'_append_eq_right

/-- The word of a command, told by its two fields. -/
theorem eq_encode_iff (v : Word) (i : Instr) : v = encode i ↔ rsvField v = 0 ∧ opcField v = i.opcode := by
  constructor
  · rintro rfl
    exact ⟨rsvField_encode i, opcField_encode i⟩
  · rintro ⟨rsv, opc⟩
    rw [← rsvField_append_opcField v, rsv, opc, encode]

theorem toNat_opcField (v : Word) : (opcField v).toNat = v.toNat % 256 := BitVec.extractLsb'_toNat 0 8 v

/-- RSV is 0 exactly when nothing of the word's value is left above 2^8. -/
theorem rsvField_eq_zero_iff (v : Word) : rsvField v = 0 ↔ v.toNat / 256 = 0 := by
  have value : (rsvField v).toNat = v.toNat / 256 := by
    rw [rsvField, BitVec.extractLsb'_toNat, Nat.shiftRight_eq_div_pow]
    omega
  rw [← value]
  exact BitVec.toNat_inj.symm

/-! ### The opcode map (30_encoding.md R91) -/

/-- Every row of the map names a command by the command's own opcode. -/
theorem fst_eq_opcode_of_mem_opcodeMap {row : BitVec 8 × Instr} (h : row ∈ opcodeMap) : row.1 = row.2.opcode := by
  have rows : ∀ row ∈ opcodeMap, row.1 = row.2.opcode := by decide
  exact rows row h

theorem opcode_mem_opcodeMap (i : Instr) : (i.opcode, i) ∈ opcodeMap := by cases i <;> decide

@[simp] theorem lookup_opcode (i : Instr) : opcodeMap.lookup i.opcode = some i := by cases i <;> rfl

/-- The map finds a command at its own opcode and nowhere else. -/
theorem lookup_opcodeMap_eq_some_iff (o : BitVec 8) (i : Instr) : opcodeMap.lookup o = some i ↔ o = i.opcode := by
  constructor
  · intro found
    obtain ⟨before, after, rows, _⟩ := List.lookup_eq_some_iff.mp found
    exact fst_eq_opcode_of_mem_opcodeMap (row := (o, i)) (by simp [rows])
  · rintro rfl
    exact lookup_opcode i

/-- The assigned opcodes are the first column of the map. -/
theorem assignedOpcodes_eq_map : assignedOpcodes = opcodeMap.map fun row => row.1.toNat := rfl

/-- An opcode is assigned exactly when it is some command's. -/
theorem toNat_mem_assignedOpcodes_iff (o : BitVec 8) : o.toNat ∈ assignedOpcodes ↔ ∃ i : Instr, o = i.opcode := by
  rw [assignedOpcodes_eq_map, List.mem_map]
  constructor
  · rintro ⟨row, mem, value⟩
    exact ⟨row.2, (BitVec.eq_of_toNat_eq value).symm.trans (fst_eq_opcode_of_mem_opcodeMap mem)⟩
  · rintro ⟨i, rfl⟩
    exact ⟨_, opcode_mem_opcodeMap i, rfl⟩

/-- A word is legal exactly when it is the word of a command (30_encoding.md R91). -/
theorem commandWordLegal_iff (v : Word) : commandWordLegal v = true ↔ ∃ i, v = encode i := by
  rw [commandWordLegal, Bool.and_eq_true, decide_eq_true_iff, List.contains_iff_mem, ← rsvField_eq_zero_iff,
    ← toNat_opcField, toNat_mem_assignedOpcodes_iff]
  simp only [eq_encode_iff, exists_and_left]

/-! ### The decoder (30_encoding.md R92) -/

theorem decode_of_reserved_bits {v : Word} (h : rsvField v ≠ 0) : decode v = .error .reservedBitsSet := if_pos h

theorem decode_of_unassigned {v : Word} (rsv : rsvField v = 0) (h : opcodeMap.lookup (opcField v) = none) :
    decode v = .error .opcodeNotAssigned := by
  rw [decode, if_neg (not_not.mpr rsv), h]

theorem decode_of_assigned {v : Word} {i : Instr} (rsv : rsvField v = 0) (h : opcodeMap.lookup (opcField v) = some i) :
    decode v = .ok i := by
  rw [decode, if_neg (not_not.mpr rsv), h]

@[simp] theorem decode_encode (i : Instr) : decode (encode i) = .ok i :=
  decode_of_assigned (rsvField_encode i) (by rw [opcField_encode, lookup_opcode])

/-- The decoder reads a command from that command's word only. -/
theorem decode_eq_ok_iff (v : Word) (i : Instr) : decode v = .ok i ↔ v = encode i := by
  constructor
  · intro decoded
    by_cases rsv : rsvField v = 0
    · cases found : opcodeMap.lookup (opcField v) with
      | none => cases (decode_of_unassigned rsv found).symm.trans decoded
      | some j =>
        obtain rfl : j = i := Except.ok.inj ((decode_of_assigned rsv found).symm.trans decoded)
        exact (eq_encode_iff v j).mpr ⟨rsv, (lookup_opcodeMap_eq_some_iff _ j).mp found⟩
    · cases (decode_of_reserved_bits rsv).symm.trans decoded
  · rintro rfl
    exact decode_encode i

/-- An ILLEGAL word is refused, for one reason or the other (30_encoding.md R92, R94). -/
theorem decode_of_illegal {v : Word} (h : commandWordLegal v = false) : ∃ why, decode v = .error why := by
  cases decoded : decode v with
  | error why => exact ⟨why, rfl⟩
  | ok i =>
    have legal := (commandWordLegal_iff v).mpr ⟨i, (decode_eq_ok_iff v i).mp decoded⟩
    cases h.symm.trans legal

/-- Settles O3: the two fields determine the word, and the map's opcodes are the commands' own. -/
theorem decodeAcceptsExactlyLegalWords : Obligations.DecodeAcceptsExactlyLegalWords := by
  refine ⟨decode_eq_ok_iff, fun v => ?_⟩
  simp only [decode_eq_ok_iff, commandWordLegal_iff]

/-- Settles O2: the fields of the command's word are 0 and its opcode, which the map holds. -/
theorem encodeThenDecodeGivesCommand : Obligations.EncodeThenDecodeGivesCommand := decode_encode

/-- Settles O1: each of the nine words is its command's; of the three others, one has a reserved bit set and two an
opcode the map does not hold. -/
theorem decodeReadsSpecWords : Obligations.DecodeReadsSpecWords :=
  ⟨decode_encode .nop, decode_encode .gfAdd, decode_encode .gfDiv, decode_encode .sort32, decode_encode .sort64,
    decode_encode .minpoly, decode_encode .transpose64, decode_encode .geExtract, decode_encode .zero,
    decode_of_reserved_bits (by decide), decode_of_unassigned rfl rfl, decode_of_unassigned rfl rfl⟩

end Sys2Proof

namespace Sys2Proof.Machine

/-! ### An ILLEGAL word in flight (30_encoding.md R92, R94) -/

theorem wordEnd_of_illegal {v : Word} (h : commandWordLegal v = false) (s : State) : wordEnd v s = .error .eill := by
  obtain ⟨why, refused⟩ := decode_of_illegal h
  rw [wordEnd, refused]

/-- On the sequencer's turn the word in flight ends as `wordEnd` says. -/
theorem step_of_inflight {s : State} {l : InFlight} {rest : List Event} (h : s.inflight = some l)
    (turn : s.sequencerMoves rest) :
    step s = .next ((s.withAgenda rest).finish (wordEnd l.word (s.withAgenda rest))) := by
  rw [turn.step_eq, State.sequencerTurn_of_inflight (s := s.withAgenda rest) h, State.complete_eq_finish_wordEnd]

/-- How a command ended does not depend on the events that were still to come when it began to. -/
theorem EndedAs.of_withAgenda {s t : State} {rest : List Event} {failed err : Bool} {code : BitVec 8}
    (h : EndedAs (s.withAgenda rest) t failed err code) : EndedAs s t failed err code :=
  { h with }

/-- Settles O5: the decoder refuses the word, so it ends with EILL, and an error changes STATUS alone. -/
theorem illegalWordEndsWithEill : Obligations.IllegalWordEndsWithEill := by
  intro s l rest inflight illegal turn
  obtain ⟨ended, kept⟩ := (s.withAgenda rest).finish_error .eill
  refine ⟨_, ?_, ended.of_withAgenda, kept⟩
  rw [step_of_inflight inflight turn, wordEnd_of_illegal illegal]

end Sys2Proof.Machine
end

section
/-! PROOFS. The arithmetic of GF(2^m): an element is its image in Mathlib's quotient, so the laws of gf_mul are those of a
commutative ring; the powers by repeated gf_mul; and a generator of the nonzero elements, which makes every one of them
invertible (spec/40_field.md R111 to R113, R121). -/

namespace Sys2Proof.Spec

open Sys2Proof.Machine Sys2Proof.Config Polynomial

/-! ### An element is its image in the quotient -/

theorem eq_of_toPoly_eq {a b : Nat} (ha : a < 2 ^ 32) (hb : b < 2 ^ 32) (h : toPoly a = toPoly b) : a = b := by
  refine Nat.eq_of_testBit_eq fun i => ?_
  by_cases hi : i < 32
  · have coeffs := congrArg (coeff · i) h
    simp only [coeff_toPoly, hi, true_and] at coeffs
    cases hai : a.testBit i <;> cases hbi : b.testBit i <;> simp_all
  · have above : 2 ^ 32 ≤ 2 ^ i := Nat.pow_le_pow_right (by omega) (by omega)
    rw [Nat.testBit_lt_two_pow (ha.trans_le above), Nat.testBit_lt_two_pow (hb.trans_le above)]

@[simp] theorem toPoly_one : toPoly 1 = 1 := by
  ext i
  rw [coeff_toPoly, coeff_one]
  cases i with
  | zero => simp
  | succ i => simp [Nat.testBit_succ]

@[simp] theorem toField_one (F : FieldSpec) : toField F 1 = 1 := by simp [toField]

theorem FieldOk.one_lt_two_pow {F : FieldSpec} (hF : FieldOk F) : 1 < 2 ^ F.m := Nat.one_lt_two_pow hF.m_pos.ne'

section
variable {F : FieldSpec} (hF : FieldOk F) {a b : Nat} (ha : a < 2 ^ F.m)
include hF ha

/-- Two elements of the same class are equal: their polynomials lie below the modulus's degree. -/
theorem toField_inj (hb : b < 2 ^ F.m) : toField F a = toField F b ↔ a = b := by
  refine ⟨fun h => ?_, congrArg _⟩
  have small : (toPoly a - toPoly b).degree < (toPoly F.modulus).degree := by
    rw [hF.degree_modulus]
    exact (degree_sub_le _ _).trans_lt (max_lt (degree_toPoly_lt ha) (degree_toPoly_lt hb))
  have bound : 2 ^ F.m ≤ 2 ^ 32 := Nat.pow_le_pow_right (by omega) (hF.m_le.trans (by omega))
  exact eq_of_toPoly_eq (ha.trans_le bound) (hb.trans_le bound)
    (sub_eq_zero.mp (eq_zero_of_dvd_of_degree_lt (AdjoinRoot.mk_eq_mk.mp h) small))

theorem toField_eq_zero_iff : toField F a = 0 ↔ a = 0 := by
  rw [← toField_zero, toField_inj hF ha (Nat.two_pow_pos _)]

theorem toField_eq_one_iff : toField F a = 1 ↔ a = 1 := by
  rw [← toField_one, toField_inj hF ha hF.one_lt_two_pow]

end

/-! ### The ring laws (40_field.md R121) -/

section
variable {F : FieldSpec} (hF : FieldOk F) {a b c : Nat} (ha : a < 2 ^ F.m) (hb : b < 2 ^ F.m)
include hF ha hb

theorem gfMul_comm : gfMul F a b = gfMul F b a := by
  rw [← toField_inj hF (gfMul_lt hF ha hb) (gfMul_lt hF hb ha), toField_gfMul hF ha hb, toField_gfMul hF hb ha, mul_comm]

theorem gfMul_assoc (hc : c < 2 ^ F.m) : gfMul F (gfMul F a b) c = gfMul F a (gfMul F b c) := by
  have hab := gfMul_lt hF ha hb
  have hbc := gfMul_lt hF hb hc
  rw [← toField_inj hF (gfMul_lt hF hab hc) (gfMul_lt hF ha hbc), toField_gfMul hF hab hc, toField_gfMul hF ha hb,
    toField_gfMul hF ha hbc, toField_gfMul hF hb hc, mul_assoc]

theorem gfMul_gfAdd (hc : c < 2 ^ F.m) : gfMul F a (gfAdd b c) = gfAdd (gfMul F a b) (gfMul F a c) := by
  have hab := gfMul_lt hF ha hb
  have hac := gfMul_lt hF ha hc
  rw [← toField_inj hF (gfMul_lt hF ha (gfAdd_lt hb hc)) (gfAdd_lt hab hac), toField_gfMul hF ha (gfAdd_lt hb hc),
    toField_gfAdd, toField_gfAdd, toField_gfMul hF ha hb, toField_gfMul hF ha hc, mul_add]

end

/-- Settles O45: the laws of Mathlib's quotient ring, since an element is its image there. -/
theorem gfMulCommutesAssociatesDistributes : Obligations.GfMulCommutesAssociatesDistributes := by
  intro F hF a b c ha hb hc
  have ok := fieldOk_of_mem hF
  exact ⟨gfMul_comm ok ha hb, (gfMul_assoc ok ha hb hc).symm, gfMul_one_right F ok.m_pos ha, gfMul_gfAdd ok ha hb hc⟩

/-! ### Powers (40_field.md R113) -/

/-- The element v is a^n. -/
structure IsPower (F : FieldSpec) (a v n : Nat) : Prop where
  lt : v < 2 ^ F.m
  toField_eq : toField F v = toField F a ^ n

theorem IsPower.self {F : FieldSpec} {a : Nat} (ha : a < 2 ^ F.m) : IsPower F a a 1 := ⟨ha, (pow_one _).symm⟩

section
variable {F : FieldSpec} (hF : FieldOk F) {a : Nat}
include hF

theorem IsPower.one : IsPower F a 1 0 := ⟨hF.one_lt_two_pow, by simp⟩

variable {v w n k : Nat}

theorem IsPower.mul (hv : IsPower F a v n) (hw : IsPower F a w k) : IsPower F a (gfMul F v w) (n + k) :=
  ⟨gfMul_lt hF hv.lt hw.lt, by rw [toField_gfMul hF hv.lt hw.lt, hv.toField_eq, hw.toField_eq, pow_add]⟩

/-- There is one n-th power. -/
theorem IsPower.unique (hv : IsPower F a v n) (hw : IsPower F a w n) : v = w :=
  (toField_inj hF hv.lt hw.lt).mp (hv.toField_eq.trans hw.toField_eq.symm)

end

theorem power_succ (F : FieldSpec) (a n : Nat) : power F a (n + 1) = gfMul F (power F a n) a :=
  Function.iterate_succ_apply' _ n 1

theorem power_isPower {F : FieldSpec} (hF : FieldOk F) {a : Nat} (ha : a < 2 ^ F.m) (n : Nat) :
    IsPower F a (power F a n) n := by
  induction n with
  | zero => exact .one hF
  | succ n ih =>
    rw [power_succ]
    exact ih.mul hF (.self ha)

theorem power_zero_base {F : FieldSpec} {n : Nat} (hn : n ≠ 0) : power F 0 n = 0 := by
  obtain ⟨k, rfl⟩ := Nat.exists_eq_succ_of_ne_zero hn
  rw [power_succ, gfMul_zero_right]

/-- One step of `gfPow`: the square, and a factor a where bit i of the exponent is 1. -/
def powBit (F : FieldSpec) (a e acc i : Nat) : Nat := if e.testBit i then gfMul F (gfSq F acc) a else gfSq F acc

theorem gfPow_eq_foldl (F : FieldSpec) (a e : Nat) :
    gfPow F a e = (List.range F.m).reverse.foldl (powBit F a e) 1 := rfl

section
variable {F : FieldSpec} (hF : FieldOk F) {a : Nat} (ha : a < 2 ^ F.m)
include hF ha

/-- The step moves bit i of e into the exponent from below. -/
theorem powBit_isPower (e i : Nat) {acc k : Nat} (hacc : IsPower F a acc k) :
    IsPower F a (powBit F a e acc i) (k + k + (e.testBit i).toNat) := by
  have square : IsPower F a (gfSq F acc) (k + k) := hacc.mul hF hacc
  cases bit : e.testBit i with
  | false => simpa [powBit, bit] using square
  | true => simpa [powBit, bit] using square.mul hF (.self ha)

theorem foldl_powBit_isPower (e n : Nat) {acc k : Nat} (hacc : IsPower F a acc k) :
    IsPower F a ((List.range n).reverse.foldl (powBit F a e) acc) (k * 2 ^ n + e % 2 ^ n) := by
  induction n generalizing acc k with
  | zero => simpa [Nat.mod_one] using hacc
  | succ n ih =>
    rw [List.range_succ, List.reverse_concat, List.foldl_cons]
    have exponent : (k + k + (e.testBit n).toNat) * 2 ^ n + e % 2 ^ n = k * 2 ^ (n + 1) + e % 2 ^ (n + 1) := by
      rw [Nat.mod_pow_succ, Nat.toNat_testBit, pow_succ]
      ring
    exact exponent ▸ ih (powBit_isPower hF ha e n hacc)

/-- Square and multiply computes the power, for every exponent of m bits (log 16). -/
theorem gfPow_isPower {e : Nat} (he : e < 2 ^ F.m) : IsPower F a (gfPow F a e) e := by
  rw [gfPow_eq_foldl]
  simpa [Nat.mod_eq_of_lt he] using foldl_powBit_isPower hF ha e F.m (.one hF)

theorem gfInv_isPower : IsPower F a (gfInv F a) (2 ^ F.m - 2) :=
  gfPow_isPower hF ha (Nat.sub_lt (Nat.two_pow_pos _) (by omega))

/-- The inverse by square and multiply is the one by repeated gf_mul (40_field.md R113). -/
theorem gfInv_eq_power : gfInv F a = power F a (2 ^ F.m - 2) :=
  (gfInv_isPower hF ha).unique hF (power_isPower hF ha _)

/-- The fourth power by two squarings is the one by repeated gf_mul (40_field.md R112). -/
theorem gfSq4_eq_power : gfSq4 F a = power F a 4 := by
  have self := IsPower.self ha
  have square : IsPower F a (gfSq F a) 2 := self.mul hF self
  have fourth : IsPower F a (gfSq4 F a) 4 := square.mul hF square
  exact fourth.unique hF (power_isPower hF ha 4)

end

/-! ### A generator of the nonzero elements -/

/-- The element g has order 2^m - 1: that power is 1, and no quotient of the exponent by a prime gives 1. -/
structure Generator (F : FieldSpec) (g : Nat) : Prop where
  lt : g < 2 ^ F.m
  power_eq_one : gfPow F g (2 ^ F.m - 1) = 1
  power_div_ne_one : ∀ p ∈ (2 ^ F.m - 1).primeFactors, gfPow F g ((2 ^ F.m - 1) / p) ≠ 1

theorem generator_gf12 : Generator gf12 3 := ⟨by decide, by decide +kernel, by decide +kernel⟩

theorem generator_gf13 : Generator gf13 3 := ⟨by decide, by decide +kernel, by decide +kernel⟩

theorem generator_of_mem {F : FieldSpec} (hF : F ∈ [gf12, gf13]) : Generator F 3 := by
  rcases List.mem_pair.mp hF with rfl | rfl
  · exact generator_gf12
  · exact generator_gf13

section
variable {F : FieldSpec} (hF : FieldOk F) {g : Nat} (hg : Generator F g)
include hF hg

theorem Generator.orderOf_toField : orderOf (toField F g) = 2 ^ F.m - 1 := by
  have one_lt := hF.one_lt_two_pow
  have pow_eq_one_iff {e : Nat} (he : e ≤ 2 ^ F.m - 1) : toField F g ^ e = 1 ↔ gfPow F g e = 1 := by
    have isPower := gfPow_isPower hF hg.lt (show e < 2 ^ F.m by omega)
    rw [← isPower.toField_eq, toField_eq_one_iff hF isPower.lt]
  refine orderOf_eq_of_pow_and_pow_div_prime (by omega) ((pow_eq_one_iff le_rfl).mpr hg.power_eq_one) fun p hp hdvd => ?_
  rw [ne_eq, pow_eq_one_iff (Nat.div_le_self _ _)]
  exact hg.power_div_ne_one p (Nat.mem_primeFactors.mpr ⟨hp, hdvd, by omega⟩)

theorem Generator.power_ne_zero (n : Nat) : power F g n ≠ 0 := by
  have := hF.nontrivial_quotientField
  have unit : IsUnit (toField F g) := by
    refine IsUnit.of_pow_eq_one (pow_orderOf_eq_one _) ?_
    rw [hg.orderOf_toField hF]
    exact (Nat.sub_pos_of_lt hF.one_lt_two_pow).ne'
  have isPower := power_isPower hF hg.lt n
  rw [ne_eq, ← toField_eq_zero_iff hF isPower.lt, isPower.toField_eq]
  exact (unit.pow n).ne_zero

/-- The 2^m - 1 powers of g below its order differ, so they are all the nonzero elements. -/
theorem Generator.exists_power_eq {a : Nat} (ha : a < 2 ^ F.m) (ha0 : a ≠ 0) : ∃ n, power F g n = a := by
  have surj : Set.SurjOn (power F g) (Finset.range (2 ^ F.m - 1)) ((Finset.range (2 ^ F.m)).erase 0) := by
    refine Finset.surjOn_of_injOn_of_card_le _ (fun n _ => ?_) (fun n hn k hk h => ?_) (by simp)
    · simpa using ⟨(power_isPower hF hg.lt n).lt, hg.power_ne_zero hF n⟩
    · have images := congrArg (toField F) h
      rw [(power_isPower hF hg.lt n).toField_eq, (power_isPower hF hg.lt k).toField_eq] at images
      exact pow_injOn_Iio_orderOf (by simpa [hg.orderOf_toField hF] using hn)
        (by simpa [hg.orderOf_toField hF] using hk) images
  obtain ⟨n, _, eq⟩ := surj (show a ∈ _ by simpa using ⟨ha, ha0⟩)
  exact ⟨n, eq⟩

/-- Fermat's little theorem for the field: a = g^n, and g^(2^m - 1) = 1. -/
theorem Generator.pow_eq_one {a : Nat} (ha : a < 2 ^ F.m) (ha0 : a ≠ 0) : toField F a ^ (2 ^ F.m - 1) = 1 := by
  obtain ⟨n, rfl⟩ := hg.exists_power_eq hF ha ha0
  rw [(power_isPower hF hg.lt n).toField_eq, pow_right_comm, ← hg.orderOf_toField hF, pow_orderOf_eq_one, one_pow]

/-- A nonzero element times its inverse is a^(2^m - 1), which is 1 (40_field.md R113). -/
theorem Generator.gfMul_gfInv {a : Nat} (ha : a < 2 ^ F.m) (ha0 : a ≠ 0) : gfMul F a (gfInv F a) = 1 := by
  have one_lt := hF.one_lt_two_pow
  have product := (IsPower.self ha).mul hF (gfInv_isPower hF ha)
  rw [← toField_eq_one_iff hF product.lt, product.toField_eq, show 1 + (2 ^ F.m - 2) = 2 ^ F.m - 1 by omega]
  exact hg.pow_eq_one hF ha ha0

end

/-- The inverse of 0 is 0, since the exponent 2^m - 2 is not 0 (40_field.md R113). -/
theorem gfInv_zero {F : FieldSpec} (hF : F ∈ [gf12, gf13]) : gfInv F 0 = 0 := by
  have exponent : 2 ^ F.m - 2 ≠ 0 := by
    rcases List.mem_pair.mp hF with rfl | rfl <;> decide
  rw [gfInv_eq_power (fieldOk_of_mem hF) (Nat.two_pow_pos _), power_zero_base exponent]

theorem gfDiv_zero {F : FieldSpec} (hF : F ∈ [gf12, gf13]) (a : Nat) : gfDiv F a 0 = 0 := by
  rw [gfDiv, gfInv_zero hF, gfMul_zero_right]

/-- Settles O46: gf_inv is the power by square and multiply, and a nonzero element is a power of the generator. -/
theorem gfInvIsInverse : Obligations.GfInvIsInverse := by
  intro F hF a ha
  have ok := fieldOk_of_mem hF
  exact ⟨gfInv_eq_power ok ha, gfInv_zero hF, (generator_of_mem hF).gfMul_gfInv ok ha, fun _ => rfl, gfDiv_zero hF a⟩

end Sys2Proof.Spec
end

section
/-! PROOFS. The field commands on operands of the field: each ends normally with the value of its field operation in RES
(spec/40_field.md R114 to R120). -/

namespace Sys2Proof.Machine

open Sys2Proof.Config Sys2Proof.Spec

/-! ### The templates without an error (40_field.md R114) -/

/-- An element of a parameter set's field fits RES. -/
theorem State.fieldDone_finish_result (s : State) {p : BitVec 3} {P : ParamSet} (hP : paramRow p = some P) {v : Nat}
    (hv : v < 2 ^ P.field.m) : FieldDone s (s.finish (.result (BitVec.ofNat 32 v))) v := by
  obtain ⟨ended, res, lmem, _⟩ := s.finish_result (BitVec.ofNat 32 v)
  have bound : 2 ^ P.field.m ≤ 2 ^ 32 :=
    Nat.pow_le_pow_right (by omega) ((field_m_le_of_paramRow hP).trans (by omega))
  exact ⟨ended, s.finish_operandsKept _, lmem, by rw [res, BitVec.toNat_ofNat, Nat.mod_eq_of_lt (hv.trans_le bound)]⟩

section
variable (s : State) {P : ParamSet} (hP : paramRow s.lpset = some P) (ha : s.opa.toNat < 2 ^ P.field.m)
include hP ha

/-- A unary field command whose operand is an element; OPB is not read. -/
theorem State.fieldUnary_done {body : FieldSpec → Nat → Nat}
    (hbody : ∀ {F : FieldSpec}, FieldOk F → ∀ {a}, a < 2 ^ F.m → body F a < 2 ^ F.m) :
    FieldDone s (s.finish (s.fieldUnary body)) (body P.field s.opa.toNat) := by
  have result : s.fieldUnary body = .result (BitVec.ofNat 32 (body P.field s.opa.toNat)) :=
    (s.withParams_of_some hP _).trans (if_pos (by simpa [canonical] using ha))
  rw [result]
  exact s.fieldDone_finish_result hP (hbody (paramsOk_of_paramRow hP).field ha)

/-- A binary field command whose operands are elements. -/
theorem State.fieldBinary_done (hb : s.opb.toNat < 2 ^ P.field.m) {body : FieldSpec → Nat → Nat → Nat}
    (hbody : ∀ {F : FieldSpec}, FieldOk F → ∀ {a b}, a < 2 ^ F.m → b < 2 ^ F.m → body F a b < 2 ^ F.m) :
    FieldDone s (s.finish (s.fieldBinary body)) (body P.field s.opa.toNat s.opb.toNat) := by
  have result : s.fieldBinary body = .result (BitVec.ofNat 32 (body P.field s.opa.toNat s.opb.toNat)) :=
    (s.withParams_of_some hP _).trans (if_pos (by simpa [canonical] using ⟨ha, hb⟩))
  rw [result]
  exact s.fieldDone_finish_result hP (hbody (paramsOk_of_paramRow hP).field ha hb)

end

/-- The field of a parameter set is one of the two (40_field.md R110). -/
theorem field_mem_of_paramRow {p : BitVec 3} {P : ParamSet} (h : paramRow p = some P) : P.field ∈ [gf12, gf13] := by
  rcases paramRow_eq_some h with rfl | rfl | rfl | rfl | rfl <;> decide

/-! ### The commands (40_field.md R115 to R120) -/

/-- Settles O39: gf_add is exclusive-or by definition, and it stays below 2^m. -/
theorem gfAddIsExclusiveOr : Obligations.GfAddIsExclusiveOr := by
  intro s P hP ha hb
  have done := s.fieldBinary_done hP ha hb (body := fun _ => gfAdd) fun _ _ _ => gfAdd_lt
  refine ⟨_, exec_eq_finish .gfAdd s, BitVec.eq_of_toNat_eq ?_, ?_, done.res ▸ done⟩
  · rw [BitVec.toNat_xor]
    exact done.res
  · exact done.res ▸ gfAdd_lt ha hb

/-- Settles O40: the operands are canonical, so the template ends with the product in RES. -/
theorem gfMulWritesProduct : Obligations.GfMulWritesProduct := by
  intro s P hP ha hb
  exact ⟨_, exec_eq_finish .gfMul s, s.fieldBinary_done hP ha hb gfMul_lt⟩

/-- Settles O41: the square is one gf_mul, and two squarings are the fourth power. -/
theorem gfSquaresWritePowers : Obligations.GfSquaresWritePowers := by
  intro s P hP ha
  refine ⟨⟨_, exec_eq_finish .gfSq s, s.fieldUnary_done hP ha gfSq_lt⟩, _, exec_eq_finish .gfSq4 s, ?_⟩
  rw [← gfSq4_eq_power (paramsOk_of_paramRow hP).field ha]
  exact s.fieldUnary_done hP ha gfSq4_lt

/-- Settles O42: square and multiply is the repeated gf_mul, and it gives 0 for 0. -/
theorem gfInvWritesInverse : Obligations.GfInvWritesInverse := by
  intro s P hP ha
  have done := s.fieldUnary_done hP ha gfInv_lt
  refine ⟨_, exec_eq_finish .gfInv s, ?_, fun zero => BitVec.eq_of_toNat_eq ?_⟩
  · rw [← gfInv_eq_power (paramsOk_of_paramRow hP).field ha]
    exact done
  · refine done.res.trans ?_
    rw [zero]
    exact gfInv_zero (field_mem_of_paramRow hP)

/-- Settles O43: the quotient is the product with the inverse, which is 0 for 0. -/
theorem gfDivWritesQuotient : Obligations.GfDivWritesQuotient := by
  intro s P hP ha hb
  have done := s.fieldBinary_done hP ha hb gfDiv_lt
  refine ⟨_, exec_eq_finish .gfDiv s, ?_, fun zero => BitVec.eq_of_toNat_eq ?_⟩
  · rw [← gfInv_eq_power (paramsOk_of_paramRow hP).field hb]
    exact done
  · refine done.res.trans ?_
    rw [zero]
    exact gfDiv_zero (field_mem_of_paramRow hP) _

end Sys2Proof.Machine
end

section
/-! PROOFS. The sorter: what a sort command without an error stores, for any function that permutes its list, and the
order of the two arrays stored (spec/41_sort.md R130 to R132). -/

namespace Sys2Proof.Machine

open Sys2Proof.Spec

/-! ### The elements of a region (20_memory.md R67) -/

theorem State.lt_of_mem_readElems {s : State} {a size n v : Nat} (h : v ∈ s.readElems a size n) : v < 256 ^ size := by
  rw [State.readElems_eq_map] at h
  obtain ⟨i, _, rfl⟩ := List.mem_map.mp h
  exact s.memRead_lt _ _

/-- A rearrangement of the elements of a region, stored back there, reads back uncut: each element still fits. -/
theorem State.readElems_storeBytes_of_perm {s : State} {a size n : Nat} {vs : List Nat}
    (perm : vs.Perm (s.readElems a size n)) : (s.storeBytes a (elemBytes size vs)).readElems a size n = vs := by
  have length_vs : vs.length = n := perm.length_eq.trans (s.length_readElems a size n)
  have uncut : vs.map (· % 256 ^ size) = vs :=
    (List.map_congr_left (g := id) fun v hv => Nat.mod_eq_of_lt (State.lt_of_mem_readElems (perm.mem_iff.mp hv))).trans
      vs.map_id
  have stored := s.readElems_storeBytes_elemBytes a size vs
  rwa [length_vs, uncut] at stored

/-! ### The template without an error (41_sort.md R131, R132) -/

theorem State.finish_store_storedOnly (s : State) (a : Nat) (bs : List Byte) :
    StoredOnly s (s.finish (.store a bs)) a bs.length := by
  obtain ⟨ended, res, _, outside⟩ := s.finish_store a bs
  exact ⟨ended, s.finish_operandsKept _, res, outside⟩

theorem State.sortCommand_of_checks {s : State} {size : Nat} (align : s.addr0.toNat % size = 0)
    (inside : s.addr0.toNat + size * s.len.toNat ≤ 0x400000) (sort : List Nat → List Nat) :
    s.sortCommand size sort =
      .store s.addr0.toNat (elemBytes size (sort (s.readElems s.addr0.toNat size s.len.toNat))) :=
  (if_pos (decide_eq_true align)).trans (if_pos (decide_eq_true inside))

/-- With the checks met, a sort command replaces the elements of its region by their rearrangement. -/
theorem State.finish_sortCommand {s : State} {size : Nat} (align : s.addr0.toNat % size = 0)
    (inside : s.addr0.toNat + size * s.len.toNat ≤ 0x400000) {sort : List Nat → List Nat}
    (perm : ∀ vs, (sort vs).Perm vs) :
    StoredOnly s (s.finish (s.sortCommand size sort)) s.addr0.toNat (size * s.len.toNat) ∧
      (s.finish (s.sortCommand size sort)).readElems s.addr0.toNat size s.len.toNat =
        sort (s.readElems s.addr0.toNat size s.len.toNat) := by
  rw [State.sortCommand_of_checks align inside]
  constructor
  · have stored := s.finish_store_storedOnly s.addr0.toNat
      (elemBytes size (sort (s.readElems s.addr0.toNat size s.len.toNat)))
    rwa [length_elemBytes, (perm _).length_eq, State.length_readElems] at stored
  · rw [State.finish_store_readElems]
    exact State.readElems_storeBytes_of_perm (perm _)

/-! ### The two orders (41_sort.md R130) -/

theorem sortSigned32_perm (vs : List Nat) : (sortSigned32 vs).Perm vs := List.perm_insertionSort _ vs

theorem sortUnsigned_perm (vs : List Nat) : (sortUnsigned vs).Perm vs := List.perm_insertionSort _ vs

/-- The words compare as the integers they encode, and the integers are totally ordered. -/
theorem pairwise_sortSigned32 (vs : List Nat) :
    (sortSigned32 vs).Pairwise fun x y => (BitVec.ofNat 32 x).toInt ≤ (BitVec.ofNat 32 y).toInt :=
  have : Std.Total fun x y : Nat => toSigned32 x ≤ toSigned32 y := ⟨fun _ _ => le_total _ _⟩
  have : IsTrans Nat fun x y => toSigned32 x ≤ toSigned32 y := ⟨fun _ _ _ => le_trans⟩
  List.pairwise_insertionSort _ vs

theorem pairwise_sortUnsigned (vs : List Nat) : (sortUnsigned vs).Pairwise (fun x y => x ≤ y) :=
  List.pairwise_insertionSort _ vs

/-! ### The commands (41_sort.md R131, R132) -/

/-- Settles O47: the elements after are the signed sort of the elements before. -/
theorem sort32SortsSigned : Obligations.Sort32SortsSigned := by
  intro s align inside
  obtain ⟨stored, elems⟩ := State.finish_sortCommand align inside sortSigned32_perm
  refine ⟨_, exec_eq_finish .sort32 s, stored, ?_⟩
  rw [commandEnd, elems]
  exact ⟨sortSigned32_perm _, pairwise_sortSigned32 _⟩

/-- Settles O48: the elements after are the unsigned sort of the elements before. -/
theorem sort64SortsUnsigned : Obligations.Sort64SortsUnsigned := by
  intro s align inside
  obtain ⟨stored, elems⟩ := State.finish_sortCommand align inside sortUnsigned_perm
  refine ⟨_, exec_eq_finish .sort64 s, stored, ?_⟩
  rw [commandEnd, elems]
  exact ⟨sortUnsigned_perm _, pairwise_sortUnsigned _⟩

end Sys2Proof.Machine
end

section
/-! PROOFS. MINPOLY. An elimination step is an invertible operation on the columns, so it keeps which linear
combinations of the rows vanish; after t steps the first t rows are the unit vectors, and the last row is the one
solution (spec/42_minpoly.md R152, R153, R155; log 15). -/

namespace Sys2Proof.Spec

open Sys2Proof.Machine Sys2Proof.Config Polynomial

/-! ### A combination of rows, as a linear functional on the columns -/

/-- A linear functional on columns, a column being the polynomial of its entries (`toRingPoly`). -/
abbrev ColumnFunctional (F : FieldSpec) : Type := (QuotientField F)[X] →ₗ[QuotientField F] QuotientField F

/-- The sum of d[k] · q[k], for a column q: what the combination of the rows with the factors d has there. -/
noncomputable def rowCombination (F : FieldSpec) (d : List Nat) : ColumnFunctional F :=
  ∑ k ∈ Finset.range d.length, toField F (d.getD k 0) • lcoeff _ k

theorem rowCombination_apply (F : FieldSpec) (d q : List Nat) : rowCombination F d (toRingPoly F q) =
    ∑ k ∈ Finset.range d.length, toField F (d.getD k 0) * toField F (q.getD k 0) := by
  simp [rowCombination, LinearMap.sum_apply, coeff_toRingPoly]

theorem rowCombination_cons_cons (F : FieldSpec) (a b : Nat) (d q : List Nat) :
    rowCombination F (a :: d) (toRingPoly F (b :: q)) =
      toField F a * toField F b + rowCombination F d (toRingPoly F q) := by
  simp only [rowCombination_apply, List.length_cons, Finset.sum_range_succ', List.getD_cons_succ, List.getD_cons_zero]
  exact add_comm _ _

theorem rowCombination_concat (F : FieldSpec) (d : List Nat) (a : Nat) :
    rowCombination F (d ++ [a]) = rowCombination F d + toField F a • lcoeff _ d.length := by
  rw [rowCombination, rowCombination, List.length_append, List.length_singleton, Finset.sum_range_succ]
  refine congrArg₂ (· + ·) ?_ ?_
  · refine Finset.sum_congr rfl fun k hk => ?_
    rw [List.getD_append _ _ _ _ (Finset.mem_range.mp hk)]
  · simp

theorem rowCombination_append_zeros (F : FieldSpec) (d : List Nat) (n : Nat) :
    rowCombination F (d ++ List.replicate n 0) = rowCombination F d := by
  induction n with
  | zero => simp
  | succ n ih => rw [List.replicate_succ', ← List.append_assoc, rowCombination_concat, ih]; simp

/-- Only the first entries of a column count. -/
theorem rowCombination_append_right (F : FieldSpec) {d u : List Nat} (h : d.length ≤ u.length) (v : List Nat) :
    rowCombination F d (toRingPoly F (u ++ v)) = rowCombination F d (toRingPoly F u) := by
  rw [rowCombination_apply, rowCombination_apply]
  refine Finset.sum_congr rfl fun k hk => ?_
  rw [List.getD_append _ _ _ _ ((Finset.mem_range.mp hk).trans_le h)]

/-- A column whose first entries are those of the unit column i gives the factor of row i. -/
theorem rowCombination_unit {F : FieldSpec} {d q : List Nat} {i : Nat}
    (unit : ∀ k < d.length, q.getD k 0 = if k = i then 1 else 0) :
    rowCombination F d (toRingPoly F q) = toField F (d.getD i 0) := by
  have term : ∀ k ∈ Finset.range d.length, toField F (d.getD k 0) * toField F (q.getD k 0) =
      if k = i then toField F (d.getD i 0) else 0 := by
    intro k hk
    rw [unit k (Finset.mem_range.mp hk)]
    split
    next h => rw [h, toField_one, mul_one]
    next => rw [toField_zero, mul_zero]
  rw [rowCombination_apply, Finset.sum_congr rfl term, Finset.sum_ite_eq']
  split
  · rfl
  next h => rw [List.getD_eq_default _ _ (by simpa using h), toField_zero]

/-- The sum of two equal elements is 0, and of no others. -/
theorem quotientField_add_eq_zero_iff (F : FieldSpec) (x y : QuotientField F) : x + y = 0 ↔ x = y := by
  rw [← quotientField_add_self F y, add_left_inj]

/-- The combination of the statement, entry by entry, is the functional on the column of these entries. -/
theorem combination_spec {F : FieldSpec} (hF : FieldOk F) {d : List Nat} (hd : Canonical F d) (rows : List (List Nat))
    (hrows : ∀ row ∈ rows, Canonical F row) (j : Nat) :
    combination F d rows j < 2 ^ F.m ∧
      toField F (combination F d rows j) = rowCombination F d (toRingPoly F (rows.map fun row => row.getD j 0)) := by
  induction d generalizing rows with
  | nil => simp [combination, rowCombination]
  | cons a d ih =>
    obtain ⟨ha, hd⟩ := canonical_cons.mp hd
    cases rows with
    | nil => simp [combination, rowCombination_apply]
    | cons row rows =>
      obtain ⟨hrow, hrows⟩ := List.forall_mem_cons.mp hrows
      obtain ⟨lt, eq⟩ := ih hd rows hrows
      have first := gfMul_lt hF ha (hrow.getD_lt j)
      have unfolded : combination F (a :: d) (row :: rows) j =
          gfAdd (gfMul F a (row.getD j 0)) (combination F d rows j) := rfl
      rw [unfolded, List.map_cons, rowCombination_cons_cons, toField_gfAdd, toField_gfMul hF ha (hrow.getD_lt j), eq]
      exact ⟨gfAdd_lt first lt, rfl⟩

/-! ### The columns of M (42_minpoly.md R152) -/

theorem canonical_replicate_zero (F : FieldSpec) (n : Nat) : Canonical F (List.replicate n 0) := fun x hx => by
  rw [List.eq_of_mem_replicate hx]
  exact Nat.two_pow_pos _

theorem isVector.getD_lt {P : ParamSet} {d : List Nat} (hd : isVector P d) (i : Nat) : d.getD i 0 < 2 ^ P.field.m :=
  Canonical.getD_lt hd.2 i

theorem powersFrom_ringPow (P : ParamSet) (f : List Nat) (k n : Nat) :
    powersFrom P f (ringPow P f k) n = (List.range' k (n + 1)).map (ringPow P f) := by
  induction n generalizing k with
  | zero => rfl
  | succ n ih => rw [powersFrom, List.range'_succ, List.map_cons, ← ih (k + 1)]; rfl

theorem generatorMatrix_eq (P : ParamSet) (f : List Nat) :
    generatorMatrix P f = powers P f ++ [ringPow P f P.sysT] := by
  have rows := powersFrom_ringPow P f 0 P.sysT
  rw [← List.range_eq_range', List.range_succ, List.map_append] at rows
  exact rows

/-- Column j of M. -/
def generatorColumn (P : ParamSet) (f : List Nat) (j : Nat) : List Nat :=
  (generatorMatrix P f).map fun row => row.getD j 0

theorem matrixColumns_eq (P : ParamSet) (f : List Nat) :
    matrixColumns P (generatorMatrix P f) = (List.range P.sysT).map (generatorColumn P f) := rfl

theorem generatorColumn_eq (P : ParamSet) (f : List Nat) (j : Nat) : generatorColumn P f j =
    ((powers P f).map fun row => row.getD j 0) ++ [(ringPow P f P.sysT).getD j 0] := by
  rw [generatorColumn, generatorMatrix_eq, List.map_append, List.map_singleton]

@[simp] theorem length_powers (P : ParamSet) (f : List Nat) : (powers P f).length = P.sysT := by simp [powers]

section
variable {P : ParamSet} (hP : ParamsOk P) {f : List Nat} (hf : isVector P f)
include hP hf

theorem ringPow_isVector (k : Nat) : isVector P (ringPow P f k) := by
  induction k with
  | zero =>
    have pos := hP.sysT_pos
    refine ⟨by simp [ringPow, ringOne]; omega, ?_⟩
    exact canonical_cons.mpr ⟨hP.field.one_lt_two_pow, canonical_replicate_zero _ _⟩
  | succ k ih => exact (polyMulMod_spec hP ih hf).1

theorem canonical_of_mem_powers {row : List Nat} (h : row ∈ powers P f) : Canonical P.field row := by
  obtain ⟨k, _, rfl⟩ := List.mem_map.mp h
  exact (ringPow_isVector hP hf k).2

theorem canonical_generatorColumn (j : Nat) : Canonical P.field (generatorColumn P f j) := by
  intro x hx
  rw [generatorColumn, generatorMatrix_eq] at hx
  obtain ⟨row, hrow, rfl⟩ := List.mem_map.mp hx
  rcases List.mem_append.mp hrow with hrow | hrow
  · exact (canonical_of_mem_powers hP hf hrow).getD_lt j
  · rw [List.mem_singleton.mp hrow]
    exact (ringPow_isVector hP hf P.sysT).getD_lt j

/-- With the factor a for row t, column j of M gives the combination of rows 0 to t - 1 plus a · pow(f, t)[j]. -/
theorem rowCombination_generatorColumn {d : List Nat} (hd : isVector P d) (a j : Nat) :
    rowCombination P.field (d ++ [a]) (toRingPoly P.field (generatorColumn P f j)) =
      toField P.field (combination P.field d (powers P f) j) +
        toField P.field a * toField P.field ((ringPow P f P.sysT).getD j 0) := by
  have last : (generatorColumn P f j).getD d.length 0 = (ringPow P f P.sysT).getD j 0 := by
    rw [generatorColumn_eq, hd.1]
    simp
  rw [(combination_spec hP.field hd.2 _ (fun _ => canonical_of_mem_powers hP hf) j).2, rowCombination_concat,
    LinearMap.add_apply, LinearMap.smul_apply, lcoeff_apply, coeff_toRingPoly, last, smul_eq_mul, generatorColumn_eq,
    rowCombination_append_right _ (by simp [hd.1])]

end

/-! ### One step of the elimination (42_minpoly.md R153) -/

/-- The functional vanishes on every column. -/
def Annihilates {F : FieldSpec} (φ : ColumnFunctional F) (cols : List (List Nat)) : Prop :=
  ∀ q ∈ cols, φ (toRingPoly F q) = 0

theorem getElem?_eq_some_getD {cols : List (List Nat)} {j : Nat} (hj : j < cols.length) :
    cols[j]? = some (cols.getD j []) := by simp [hj]

/-- The later columns are those of a higher index. -/
theorem mem_drop_succ_iff {cols : List (List Nat)} {j : Nat} {q : List Nat} :
    q ∈ cols.drop (j + 1) ↔ ∃ i, j < i ∧ cols[i]? = some q := by
  simp only [List.mem_iff_getElem?, List.getElem?_drop]
  exact ⟨fun ⟨i, hi⟩ => ⟨j + 1 + i, by omega, hi⟩, fun ⟨i, hji, hi⟩ => ⟨i - (j + 1), by rwa [Nat.add_sub_cancel' hji]⟩⟩

/-- The column step j pivots on: column j with later columns added. -/
def pivotColumn (cols : List (List Nat)) (j : Nat) : List Nat :=
  columnPivot j (cols.getD j []) (cols.drop (j + 1))

/-- The pivot column divided by its entry j. -/
def scaledPivot (F : FieldSpec) (cols : List (List Nat)) (j : Nat) : List Nat :=
  polyScale F (gfInv F ((pivotColumn cols j).getD j 0)) (pivotColumn cols j)

/-- The columns after step j, where its pivot is not zero. -/
def clearedColumns (F : FieldSpec) (cols : List (List Nat)) (j : Nat) : List (List Nat) :=
  (cols.map (columnClear F j (scaledPivot F cols j))).set j (scaledPivot F cols j)

theorem columnStep_eq (F : FieldSpec) {cols : List (List Nat)} {j : Nat} (hj : j < cols.length) :
    columnStep F cols j =
      if (pivotColumn cols j).getD j 0 = 0 then none else some (clearedColumns F cols j) := by
  have shape : clearedColumns F cols j = (cols.take j).map (columnClear F j (scaledPivot F cols j)) ++
      scaledPivot F cols j :: (cols.drop (j + 1)).map (columnClear F j (scaledPivot F cols j)) := by
    rw [clearedColumns, List.set_eq_take_append_cons_drop, if_pos (by simpa using hj), List.map_take, List.map_drop]
  have column : cols[j] = cols.getD j [] := by simp [hj]
  rw [columnStep, List.drop_eq_getElem_cons hj, shape, column]
  rfl

@[simp] theorem length_clearedColumns (F : FieldSpec) (cols : List (List Nat)) (j : Nat) :
    (clearedColumns F cols j).length = cols.length := by simp [clearedColumns]

theorem getElem?_clearedColumns_self (F : FieldSpec) {cols : List (List Nat)} {j : Nat} (hj : j < cols.length) :
    (clearedColumns F cols j)[j]? = some (scaledPivot F cols j) := by
  simp [clearedColumns, hj]

theorem getElem?_clearedColumns_of_ne (F : FieldSpec) (cols : List (List Nat)) {i j : Nat} (h : i ≠ j) :
    (clearedColumns F cols j)[i]? = cols[i]?.map (columnClear F j (scaledPivot F cols j)) := by
  simp [clearedColumns, h.symm]

/-- What holds of the column and is kept when a later column is added holds of the pivot. -/
theorem columnPivot_induction {motive : List Nat → Prop} {j : Nat} {col : List Nat} {later : List (List Nat)}
    (start : motive col) (add : ∀ q ∈ later, ∀ p, motive p → motive (polyAdd p q)) :
    motive (columnPivot j col later) := by
  refine List.foldlRecOn later _ start fun p hp q hq => ?_
  split
  · exact add q hq p hp
  · exact hp

/-- The pivot is zero only where entry j of the column and of every later one is. -/
theorem getD_eq_zero_of_columnPivot {j : Nat} {col : List Nat} {later : List (List Nat)}
    (h : (columnPivot j col later).getD j 0 = 0) : ∀ q ∈ col :: later, q.getD j 0 = 0 := by
  induction later generalizing col with
  | nil => simpa [columnPivot] using h
  | cons q later ih =>
    rw [columnPivot, List.foldl_cons, ← columnPivot] at h
    by_cases hcol : col.getD j 0 = 0
    · rw [if_pos hcol] at h
      obtain ⟨hsum, hlater⟩ := List.forall_mem_cons.mp (ih h)
      rw [getD_polyAdd, hcol, gfAdd_zero_left] at hsum
      exact List.forall_mem_cons.mpr ⟨hcol, List.forall_mem_cons.mpr ⟨hsum, hlater⟩⟩
    · rw [if_neg hcol] at h
      exact absurd (List.forall_mem_cons.mp (ih h)).1 hcol

/-- After the steps below j: canonical entries, and the first j rows are those of the unit columns. -/
structure Reduced (F : FieldSpec) (j : Nat) (cols : List (List Nat)) : Prop where
  canonical : ∀ q ∈ cols, Canonical F q
  unit : ∀ {i : Nat} {q : List Nat}, cols[i]? = some q → ∀ k < j, q.getD k 0 = if k = i then 1 else 0

theorem Reduced.zero {F : FieldSpec} {cols : List (List Nat)} (h : ∀ q ∈ cols, Canonical F q) : Reduced F 0 cols :=
  ⟨h, fun _ k hk => absurd hk k.not_lt_zero⟩

section
variable {F : FieldSpec} {cols : List (List Nat)} {j : Nat} (red : Reduced F j cols) (hj : j < cols.length)
include red

theorem Reduced.getD_lt {i : Nat} {q : List Nat} (hq : cols[i]? = some q) (k : Nat) : q.getD k 0 < 2 ^ F.m :=
  (red.canonical q (List.mem_of_getElem? hq)).getD_lt k

theorem Reduced.getD_eq_zero {i k : Nat} {q : List Nat} (hq : cols[i]? = some q) (hk : k < j) (hi : k ≠ i) :
    q.getD k 0 = 0 := (red.unit hq k hk).trans (if_neg hi)

include hj

theorem Reduced.canonical_pivotColumn : Canonical F (pivotColumn cols j) := by
  refine columnPivot_induction ?_ fun q hq p hp => hp.polyAdd (red.canonical q (List.mem_of_mem_drop hq))
  exact red.canonical _ (List.mem_of_getElem? (getElem?_eq_some_getD hj))

/-- The pivot column is 0 above row j, as the columns it sums are. -/
theorem Reduced.getD_pivotColumn {k : Nat} (hk : k < j) : (pivotColumn cols j).getD k 0 = 0 := by
  refine columnPivot_induction (motive := fun p => p.getD k 0 = 0) ?_ fun q hq p hp => ?_
  · exact red.getD_eq_zero (getElem?_eq_some_getD hj) hk hk.ne
  · obtain ⟨i, hji, hi⟩ := mem_drop_succ_iff.mp hq
    rw [getD_polyAdd, hp, red.getD_eq_zero hi hk (by omega), gfAdd_zero_left]

end

/-- Where the later columns vanish under a functional, the pivot and column j have the same value. -/
theorem map_pivotColumn {F : FieldSpec} (φ : ColumnFunctional F) {cols : List (List Nat)} {j : Nat}
    (later : ∀ q ∈ cols.drop (j + 1), φ (toRingPoly F q) = 0) :
    φ (toRingPoly F (pivotColumn cols j)) = φ (toRingPoly F (cols.getD j [])) := by
  refine columnPivot_induction (motive := fun p => φ (toRingPoly F p) = φ (toRingPoly F (cols.getD j []))) rfl
    fun q hq p hp => ?_
  rw [toRingPoly_polyAdd, map_add, hp, later q hq, add_zero]

section
variable {F : FieldSpec} (hF : F ∈ [gf12, gf13]) {cols : List (List Nat)} {j : Nat} (red : Reduced F j cols)
  (hj : j < cols.length)
include hF red hj

theorem Reduced.gfInv_pivot_lt : gfInv F ((pivotColumn cols j).getD j 0) < 2 ^ F.m :=
  gfInv_lt (fieldOk_of_mem hF) ((red.canonical_pivotColumn hj).getD_lt j)

theorem Reduced.canonical_scaledPivot : Canonical F (scaledPivot F cols j) :=
  (red.canonical_pivotColumn hj).polyScale (fieldOk_of_mem hF) (red.gfInv_pivot_lt hF hj)

theorem Reduced.getD_scaledPivot (pivot : (pivotColumn cols j).getD j 0 ≠ 0) {k : Nat} (hk : k < j + 1) :
    (scaledPivot F cols j).getD k 0 = if k = j then 1 else 0 := by
  rw [scaledPivot, getD_polyScale]
  split
  next h =>
    have lt := (red.canonical_pivotColumn hj).getD_lt j
    have ok := fieldOk_of_mem hF
    rw [h, gfMul_comm ok (red.gfInv_pivot_lt hF hj) lt, (generator_of_mem hF).gfMul_gfInv ok lt pivot]
  next h => rw [red.getD_pivotColumn hj (k := k) (by omega), gfMul_zero_right]

theorem Reduced.canonical_columnClear {i : Nat} {q : List Nat} (hq : cols[i]? = some q) :
    Canonical F (columnClear F j (scaledPivot F cols j) q) :=
  (red.canonical q (List.mem_of_getElem? hq)).polyAdd
    ((red.canonical_scaledPivot hF hj).polyScale (fieldOk_of_mem hF) (red.getD_lt hq j))

theorem Reduced.getD_columnClear (pivot : (pivotColumn cols j).getD j 0 ≠ 0) {i : Nat} {q : List Nat}
    (hq : cols[i]? = some q) {k : Nat} (hk : k < j + 1) :
    (columnClear F j (scaledPivot F cols j) q).getD k 0 = if k = j then 0 else q.getD k 0 := by
  rw [columnClear, getD_polyAdd, getD_polyScale, red.getD_scaledPivot hF hj pivot hk]
  split
  next h => rw [h, gfMul_one_right F (fieldOk_of_mem hF).m_pos (red.getD_lt hq j), gfAdd, Nat.xor_self]
  next => rw [gfMul_zero_right, gfAdd_zero_right]

/-- The step makes row j a unit row and keeps those above. -/
theorem Reduced.step (pivot : (pivotColumn cols j).getD j 0 ≠ 0) :
    Reduced F (j + 1) (clearedColumns F cols j) := by
  have column {i : Nat} {q : List Nat} (hq : (clearedColumns F cols j)[i]? = some q) :
      Canonical F q ∧ ∀ k < j + 1, q.getD k 0 = if k = i then 1 else 0 := by
    by_cases hi : i = j
    · subst hi
      obtain rfl := Option.some.inj ((getElem?_clearedColumns_self F hj).symm.trans hq)
      exact ⟨red.canonical_scaledPivot hF hj, fun k hk => red.getD_scaledPivot hF hj pivot hk⟩
    · rw [getElem?_clearedColumns_of_ne F cols hi] at hq
      obtain ⟨q, hcol, rfl⟩ := Option.map_eq_some_iff.mp hq
      refine ⟨red.canonical_columnClear hF hj hcol, fun k hk => ?_⟩
      rw [red.getD_columnClear hF hj pivot hcol hk]
      split
      · rw [if_neg (by omega)]
      · exact red.unit hcol k (by omega)
  refine ⟨fun q hq => ?_, fun hq => (column hq).2⟩
  obtain ⟨i, hi⟩ := List.mem_iff_getElem?.mp hq
  exact (column hi).1

variable (φ : ColumnFunctional F)

theorem Reduced.map_scaledPivot_eq_zero_iff (pivot : (pivotColumn cols j).getD j 0 ≠ 0) :
    φ (toRingPoly F (scaledPivot F cols j)) = 0 ↔ φ (toRingPoly F (pivotColumn cols j)) = 0 := by
  have ok := fieldOk_of_mem hF
  have lt := (red.canonical_pivotColumn hj).getD_lt j
  have unit : IsUnit (toField F (gfInv F ((pivotColumn cols j).getD j 0))) := by
    refine .of_mul_eq_one_right (toField F ((pivotColumn cols j).getD j 0)) ?_
    rw [← toField_gfMul ok lt (red.gfInv_pivot_lt hF hj), (generator_of_mem hF).gfMul_gfInv ok lt pivot, toField_one]
  rw [scaledPivot, toRingPoly_polyScale ok (red.gfInv_pivot_lt hF hj) (red.canonical_pivotColumn hj), ← smul_eq_C_mul,
    map_smul, smul_eq_mul, unit.mul_right_eq_zero]

theorem Reduced.map_columnClear {i : Nat} {q : List Nat} (hq : cols[i]? = some q)
    (pivot : φ (toRingPoly F (scaledPivot F cols j)) = 0) :
    φ (toRingPoly F (columnClear F j (scaledPivot F cols j) q)) = φ (toRingPoly F q) := by
  rw [columnClear, toRingPoly_polyAdd, toRingPoly_polyScale (fieldOk_of_mem hF) (red.getD_lt hq j)
    (red.canonical_scaledPivot hF hj), ← smul_eq_C_mul, map_add, map_smul, pivot, smul_zero, add_zero]

theorem Reduced.annihilates_of_annihilates_clearedColumns (pivot : (pivotColumn cols j).getD j 0 ≠ 0)
    (zero : Annihilates φ (clearedColumns F cols j)) : Annihilates φ cols := by
  have scaled := zero _ (List.mem_of_getElem? (getElem?_clearedColumns_self F hj))
  have other {i : Nat} {q : List Nat} (hi : i ≠ j) (hq : cols[i]? = some q) : φ (toRingPoly F q) = 0 := by
    rw [← red.map_columnClear hF hj φ hq scaled]
    exact zero _ (List.mem_of_getElem? (i := i) (by rw [getElem?_clearedColumns_of_ne F cols hi, hq]; rfl))
  have later : ∀ q ∈ cols.drop (j + 1), φ (toRingPoly F q) = 0 := fun q hq =>
    have ⟨_, hji, hi⟩ := mem_drop_succ_iff.mp hq
    other hji.ne' hi
  intro q hq
  obtain ⟨i, hi⟩ := List.mem_iff_getElem?.mp hq
  by_cases hij : i = j
  · subst hij
    rw [← Option.some.inj ((getElem?_eq_some_getD hj).symm.trans hi), ← map_pivotColumn φ later]
    exact (red.map_scaledPivot_eq_zero_iff hF hj φ pivot).mp scaled
  · exact other hij hi

theorem Reduced.annihilates_clearedColumns (pivot : (pivotColumn cols j).getD j 0 ≠ 0) (zero : Annihilates φ cols) :
    Annihilates φ (clearedColumns F cols j) := by
  have scaled : φ (toRingPoly F (scaledPivot F cols j)) = 0 := by
    rw [red.map_scaledPivot_eq_zero_iff hF hj φ pivot, map_pivotColumn φ fun q hq => zero q (List.mem_of_mem_drop hq)]
    exact zero _ (List.mem_of_getElem? (getElem?_eq_some_getD hj))
  intro q hq
  rcases List.mem_or_eq_of_mem_set hq with hq | rfl
  · obtain ⟨p, hp, rfl⟩ := List.mem_map.mp hq
    obtain ⟨i, hi⟩ := List.mem_iff_getElem?.mp hp
    rw [red.map_columnClear hF hj φ hi scaled]
    exact zero p hp
  · exact scaled

/-- The step can be undone, so it keeps which functionals vanish on every column. -/
theorem Reduced.annihilates_clearedColumns_iff (pivot : (pivotColumn cols j).getD j 0 ≠ 0) :
    Annihilates φ (clearedColumns F cols j) ↔ Annihilates φ cols :=
  ⟨red.annihilates_of_annihilates_clearedColumns hF hj φ pivot, red.annihilates_clearedColumns hF hj φ pivot⟩

end

/-! ### The whole elimination -/

/-- A combination of the rows that these columns begin with, not all its factors 0, vanishes. -/
def Dependent (F : FieldSpec) (cols : List (List Nat)) : Prop :=
  ∃ d, d.length = cols.length ∧ Canonical F d ∧ (∃ x ∈ d, x ≠ 0) ∧ Annihilates (rowCombination F d) cols

/-- The factors under which row j of a reduced matrix cancels, where its pivot is zero: the entries of row j left of the
diagonal, 1, and zeros. -/
def dependency (cols : List (List Nat)) (j : Nat) : List Nat :=
  (cols.take j).map (fun q => q.getD j 0) ++ 1 :: List.replicate (cols.length - (j + 1)) 0

theorem rowCombination_dependency (F : FieldSpec) {cols : List (List Nat)} {j : Nat} (hj : j < cols.length) :
    rowCombination F (dependency cols j) =
      rowCombination F ((cols.take j).map fun q => q.getD j 0) + lcoeff _ j := by
  rw [dependency, ← List.singleton_append, ← List.append_assoc, rowCombination_append_zeros, rowCombination_concat,
    toField_one, one_smul, List.length_map, List.length_take, Nat.min_eq_left hj.le]

/-- Where the pivot is zero, row j depends on the rows above it. -/
theorem Reduced.dependent {F : FieldSpec} (hF : FieldOk F) {cols : List (List Nat)} {j : Nat} (red : Reduced F j cols)
    (hj : j < cols.length) (pivot : (pivotColumn cols j).getD j 0 = 0) : Dependent F cols := by
  refine ⟨dependency cols j, by simp [dependency]; omega, fun x hx => ?_, ⟨1, by simp [dependency], one_ne_zero⟩,
    fun q hq => ?_⟩
  · rcases List.mem_append.mp hx with hx | hx
    · obtain ⟨q, hq, rfl⟩ := List.mem_map.mp hx
      exact (red.canonical q (List.mem_of_mem_take hq)).getD_lt j
    · exact canonical_cons.mpr ⟨hF.one_lt_two_pow, canonical_replicate_zero F _⟩ x hx
  · obtain ⟨i, hi⟩ := List.mem_iff_getElem?.mp hq
    have factor : ((cols.take j).map fun q => q.getD j 0).getD i 0 = q.getD j 0 := by
      by_cases hij : i < j
      · simp [List.getD_eq_getElem?_getD, hij, hi]
      · have zeros := getD_eq_zero_of_columnPivot pivot
        rw [List.getD_eq_default _ _ (by simp; omega)]
        rcases Nat.eq_or_lt_of_le (not_lt.mp hij) with rfl | hlt
        · rw [← Option.some.inj ((getElem?_eq_some_getD hj).symm.trans hi), zeros _ List.mem_cons_self]
        · exact (zeros q (List.mem_cons_of_mem _ (mem_drop_succ_iff.mpr ⟨i, hlt, hi⟩))).symm
    have unit := rowCombination_unit (F := F) (d := (cols.take j).map fun q => q.getD j 0) fun k hk =>
      red.unit hi k (by simp at hk; omega)
    rw [rowCombination_dependency F hj, LinearMap.add_apply, unit, factor, lcoeff_apply, coeff_toRingPoly,
      quotientField_add_self]

/-- What n steps make of the columns: as many, n unit rows, and the same functionals vanish. -/
structure Eliminated (F : FieldSpec) (n : Nat) (cols cols' : List (List Nat)) : Prop where
  length_eq : cols'.length = cols.length
  reduced : Reduced F n cols'
  annihilates_iff : ∀ φ : ColumnFunctional F, Annihilates φ cols' ↔ Annihilates φ cols

theorem Dependent.of_eliminated {F : FieldSpec} {n : Nat} {cols cols' : List (List Nat)}
    (h : Eliminated F n cols cols') (dependent : Dependent F cols') : Dependent F cols := by
  obtain ⟨d, length, canonical, nonzero, zero⟩ := dependent
  exact ⟨d, length.trans h.length_eq, canonical, nonzero, (h.annihilates_iff _).mp zero⟩

theorem Eliminated.step {F : FieldSpec} (hF : F ∈ [gf12, gf13]) {n : Nat} {cols cols' : List (List Nat)}
    (h : Eliminated F n cols cols') (hn : n < cols'.length) (pivot : (pivotColumn cols' n).getD n 0 ≠ 0) :
    Eliminated F (n + 1) cols (clearedColumns F cols' n) where
  length_eq := (length_clearedColumns F cols' n).trans h.length_eq
  reduced := h.reduced.step hF hn pivot
  annihilates_iff φ := (h.reduced.annihilates_clearedColumns_iff hF hn φ pivot).trans (h.annihilates_iff φ)

/-- The elimination stops at a zero pivot only where the rows are dependent. -/
theorem foldlM_columnStep_cases {F : FieldSpec} (hF : F ∈ [gf12, gf13]) {cols : List (List Nat)}
    (canonical : ∀ q ∈ cols, Canonical F q) {n : Nat} (hn : n ≤ cols.length) :
    ((List.range n).foldlM (columnStep F) cols = none ∧ Dependent F cols) ∨
      ∃ cols', (List.range n).foldlM (columnStep F) cols = some cols' ∧ Eliminated F n cols cols' := by
  induction n with
  | zero => exact .inr ⟨cols, rfl, rfl, .zero canonical, fun _ => Iff.rfl⟩
  | succ n ih =>
    rw [List.range_succ, List.foldlM_append]
    rcases ih (by omega) with ⟨stopped, dependent⟩ | ⟨cols', reached, eliminated⟩
    · exact .inl ⟨by rw [stopped]; rfl, dependent⟩
    · have hn' : n < cols'.length := by rw [eliminated.length_eq]; omega
      have last : [n].foldlM (columnStep F) cols' = columnStep F cols' n := bind_pure (columnStep F cols' n)
      rw [reached, Option.bind_eq_bind, Option.bind_some, last, columnStep_eq F hn']
      split
      next pivot =>
        exact .inl ⟨rfl, .of_eliminated eliminated (eliminated.reduced.dependent (fieldOk_of_mem hF) hn' pivot)⟩
      next pivot => exact .inr ⟨_, rfl, eliminated.step hF hn' pivot⟩

/-! ### The minimal polynomial (42_minpoly.md R152, R155) -/

/-- The last row of the columns. -/
def lastRow (cols : List (List Nat)) : List Nat := cols.map fun q => q.getD cols.length 0

@[simp] theorem length_lastRow (cols : List (List Nat)) : (lastRow cols).length = cols.length := List.length_map _

section
variable {F : FieldSpec} {cols : List (List Nat)} (red : Reduced F cols.length cols)
include red

theorem Reduced.canonical_lastRow : Canonical F (lastRow cols) := by
  intro x hx
  obtain ⟨q, hq, rfl⟩ := List.mem_map.mp hx
  exact (red.canonical q hq).getD_lt _

/-- After all the steps a combination cancels where each factor is that of the last row times the last row's entry. -/
theorem Reduced.annihilates_concat_iff {d : List Nat} (hd : d.length = cols.length) (a : Nat) :
    Annihilates (rowCombination F (d ++ [a])) cols ↔
      ∀ i < cols.length, toField F (d.getD i 0) = toField F a * toField F ((lastRow cols).getD i 0) := by
  have column {i : Nat} {q : List Nat} (hq : cols[i]? = some q) :
      rowCombination F (d ++ [a]) (toRingPoly F q) = 0 ↔
        toField F (d.getD i 0) = toField F a * toField F ((lastRow cols).getD i 0) := by
    have last : (lastRow cols).getD i 0 = q.getD d.length 0 := by
      simp [lastRow, List.getD_eq_getElem?_getD, hq, hd]
    rw [rowCombination_concat, LinearMap.add_apply, rowCombination_unit fun k hk => red.unit hq k (hd ▸ hk),
      LinearMap.smul_apply, lcoeff_apply, coeff_toRingPoly, smul_eq_mul, last, quotientField_add_eq_zero_iff]
  refine ⟨fun zero i hi => ?_, fun eq q hq => ?_⟩
  · exact (column (List.getElem?_eq_getElem hi)).mp (zero _ (List.getElem_mem hi))
  · obtain ⟨i, hi, rfl⟩ := List.getElem_of_mem hq
    exact (column (List.getElem?_eq_getElem hi)).mpr (eq i hi)

end

section
variable {P : ParamSet} (hP : ParamsOk P) {f : List Nat} (hf : isVector P f) {d : List Nat} (hd : isVector P d)
include hP hf hd

theorem annihilates_matrixColumns_iff (a : Nat) :
    Annihilates (rowCombination P.field (d ++ [a])) (matrixColumns P (generatorMatrix P f)) ↔
      ∀ j < P.sysT, toField P.field (combination P.field d (powers P f) j) =
        toField P.field a * toField P.field ((ringPow P f P.sysT).getD j 0) := by
  simp only [Annihilates, matrixColumns_eq, List.forall_mem_map, List.mem_range,
    rowCombination_generatorColumn hP hf hd, quotientField_add_eq_zero_iff]

theorem combination_powers_lt (j : Nat) : combination P.field d (powers P f) j < 2 ^ P.field.m :=
  (combination_spec hP.field hd.2 _ (fun _ => canonical_of_mem_powers hP hf) j).1

/-- The dependencies of `singular` are the combinations without row t that vanish on every column of M. -/
theorem annihilates_concat_zero_iff :
    Annihilates (rowCombination P.field (d ++ [0])) (matrixColumns P (generatorMatrix P f)) ↔
      ∀ j < P.sysT, combination P.field d (powers P f) j = 0 := by
  simp only [annihilates_matrixColumns_iff hP hf hd, toField_zero, zero_mul,
    toField_eq_zero_iff hP.field (combination_powers_lt hP hf hd _)]

/-- The solutions of `solves` are the combinations with row t itself that vanish on every column of M. -/
theorem annihilates_concat_one_iff :
    Annihilates (rowCombination P.field (d ++ [1])) (matrixColumns P (generatorMatrix P f)) ↔
      ∀ j < P.sysT, combination P.field d (powers P f) j = (ringPow P f P.sysT).getD j 0 := by
  have top := (ringPow_isVector hP hf P.sysT).getD_lt
  simp only [annihilates_matrixColumns_iff hP hf hd, toField_one, one_mul,
    toField_inj hP.field (combination_powers_lt hP hf hd _) (top _)]

end

section
variable {P : ParamSet} (hP : ParamsOk P) {f : List Nat} (hf : isVector P f)
include hP hf

theorem singular_of_dependent (h : Dependent P.field (matrixColumns P (generatorMatrix P f))) : singular P f := by
  obtain ⟨d, length, canonical, nonzero, zero⟩ := h
  have hd : isVector P d := ⟨length.trans (by simp [matrixColumns_eq]), canonical⟩
  refine ⟨d, hd, nonzero, (annihilates_concat_zero_iff hP hf hd).mp ?_⟩
  rwa [← List.replicate_one, rowCombination_append_zeros]

end

section
variable {P : ParamSet} {f : List Nat} {cols : List (List Nat)}
  (done : Eliminated P.field P.sysT (matrixColumns P (generatorMatrix P f)) cols)
include done

theorem Eliminated.length_cols : cols.length = P.sysT := done.length_eq.trans (by simp [matrixColumns_eq])

theorem Eliminated.reduced_length : Reduced P.field cols.length cols := done.length_cols ▸ done.reduced

theorem Eliminated.isVector_lastRow : isVector P (lastRow cols) :=
  ⟨(length_lastRow cols).trans done.length_cols, done.reduced_length.canonical_lastRow⟩

theorem Eliminated.annihilates_concat_iff {d : List Nat} (hd : isVector P d) (a : Nat) :
    Annihilates (rowCombination P.field (d ++ [a])) (matrixColumns P (generatorMatrix P f)) ↔
      ∀ i < P.sysT, toField P.field (d.getD i 0) = toField P.field a * toField P.field ((lastRow cols).getD i 0) := by
  rw [← done.annihilates_iff, done.reduced_length.annihilates_concat_iff (hd.1.trans done.length_cols.symm),
    done.length_cols]

variable (hP : ParamsOk P) (hf : isVector P f)
include hP hf

/-- The eliminated columns leave no dependency: each factor would be 0. -/
theorem Eliminated.not_singular : ¬ singular P f := by
  rintro ⟨d, hd, ⟨x, hx, nonzero⟩, zero⟩
  obtain ⟨i, hi, rfl⟩ := List.getElem_of_mem hx
  have factors := (done.annihilates_concat_iff hd 0).mp ((annihilates_concat_zero_iff hP hf hd).mpr zero)
  have factor := factors i (hd.1 ▸ hi)
  rw [toField_zero, zero_mul, toField_eq_zero_iff hP.field (hd.getD_lt i), List.getD_eq_getElem _ _ hi] at factor
  exact nonzero factor

/-- The eliminated columns say what each coefficient of a solution is. -/
theorem Eliminated.solves_iff (c : List Nat) : solves P f c ↔ c = lastRow cols := by
  have last := done.isVector_lastRow
  have solves_iff_coefficients (hc : isVector P c) : (∀ j < P.sysT, combination P.field c (powers P f) j =
      (ringPow P f P.sysT).getD j 0) ↔ ∀ i < P.sysT, c.getD i 0 = (lastRow cols).getD i 0 := by
    rw [← annihilates_concat_one_iff hP hf hc, done.annihilates_concat_iff hc]
    simp only [toField_one, one_mul, toField_inj hP.field (hc.getD_lt _) (last.getD_lt _)]
  constructor
  · rintro ⟨hc, eq⟩
    refine List.ext_getElem (hc.1.trans last.1.symm) fun i hi hi' => ?_
    have coefficient := (solves_iff_coefficients hc).mp eq i (hc.1 ▸ hi)
    rwa [List.getD_eq_getElem _ _ hi, List.getD_eq_getElem _ _ hi'] at coefficient
  · rintro rfl
    exact ⟨last, (solves_iff_coefficients last).mpr fun _ _ => rfl⟩

end

/-- The elimination finds the one solution, or none where the rows are dependent. -/
theorem minimalPolynomial_cases {P : ParamSet} (hP : ParamsOk P) (hF : P.field ∈ [gf12, gf13]) {f : List Nat}
    (hf : isVector P f) :
    (minimalPolynomial P f = none ∧ singular P f) ∨
      ∃ c, minimalPolynomial P f = some c ∧ ¬ singular P f ∧ ∀ c', solves P f c' ↔ c' = c := by
  have canonical : ∀ q ∈ matrixColumns P (generatorMatrix P f), Canonical P.field q := by
    intro q hq
    obtain ⟨j, _, rfl⟩ := List.mem_map.mp hq
    exact canonical_generatorColumn hP hf j
  have length : P.sysT ≤ (matrixColumns P (generatorMatrix P f)).length := by simp [matrixColumns_eq]
  rcases foldlM_columnStep_cases hF canonical length with ⟨stopped, dependent⟩ | ⟨cols, reached, done⟩
  · exact .inl ⟨by rw [minimalPolynomial, stopped]; rfl, singular_of_dependent hP hf dependent⟩
  · refine .inr ⟨lastRow cols, ?_, done.not_singular hP hf, done.solves_iff hP hf⟩
    rw [minimalPolynomial, reached, lastRow, done.length_cols]
    rfl

end Sys2Proof.Spec

namespace Sys2Proof.Machine

open Sys2Proof.Config Sys2Proof.Spec

/-! ### The command (42_minpoly.md R152) -/

theorem State.minpolyCommand_of_checks {s : State} {P : ParamSet} (hP : paramRow s.lpset = some P)
    (align0 : s.addr0.toNat % 2 = 0) (align1 : s.addr1.toNat % 2 = 0)
    (inside0 : s.addr0.toNat + 2 * P.sysT ≤ 0x400000) (inside1 : s.addr1.toNat + 2 * P.sysT ≤ 0x400000) :
    s.minpolyCommand = minpolyOn P (s.readElems s.addr0.toNat 2 P.sysT) s.addr1.toNat := by
  have align : (aligned s.addr0.toNat 2 && aligned s.addr1.toNat 2) = true := by simp [aligned, align0, align1]
  have inside : (inRange s.addr0.toNat (2 * P.sysT) && inRange s.addr1.toNat (2 * P.sysT)) = true := by
    simp [lmemBytes, inside0, inside1]
  exact (s.withParams_of_some hP _).trans ((if_pos align).trans (if_pos inside))

section
variable {P : ParamSet} {f : List Nat} (hf : isVector P f) (b : Nat)
include hf

theorem all_canonical_of_isVector : f.all (canonical P.field) = true :=
  List.all_eq_true.mpr fun x hx => decide_eq_true (hf.2 x hx)

theorem minpolyOn_of_none (h : minimalPolynomial P f = none) : minpolyOn P f b = .fail := by
  rw [minpolyOn, if_pos (all_canonical_of_isVector hf), h]

theorem minpolyOn_of_some {c : List Nat} (h : minimalPolynomial P f = some c) :
    minpolyOn P f b = .store b (elemBytes 2 c) := by
  rw [minpolyOn, if_pos (all_canonical_of_isVector hf), h]

end

/-- An array of t field elements, stored in two bytes each, reads back uncut. -/
theorem State.readElems_storeBytes_of_isVector (s : State) (a : Nat) {P : ParamSet} (hm : P.field.m ≤ 13)
    {c : List Nat} (hc : isVector P c) : (s.storeBytes a (elemBytes 2 c)).readElems a 2 P.sysT = c := by
  have uncut : c.map (· % 256 ^ 2) = c :=
    (List.map_congr_left (g := id) fun x hx => Nat.mod_eq_of_lt
      ((hc.2 x hx).trans_le ((Nat.pow_le_pow_right (by omega) hm).trans (by decide)))).trans c.map_id
  rw [← hc.1, State.readElems_storeBytes_elemBytes, uncut]

/-- Settles O49: the elimination ends with the one solution as its last row, or stops at a row that depends on those
above. -/
theorem minpolySolvesOrFails : Obligations.MinpolySolvesOrFails := by
  intro s P hP align0 align1 inside0 inside1 domain
  have input : isVector P (s.readElems s.addr0.toNat 2 P.sysT) := ⟨s.length_readElems _ _ _, domain⟩
  refine ⟨_, exec_eq_finish .minpoly s, ?_⟩
  rw [commandEnd, State.minpolyCommand_of_checks hP align0 align1 inside0 inside1]
  rcases minimalPolynomial_cases (paramsOk_of_paramRow hP) (field_mem_of_paramRow hP) input with
    ⟨stopped, dependent⟩ | ⟨c, found, independent, unique⟩
  · rw [minpolyOn_of_none input _ stopped]
    exact ⟨fun _ => s.finish_fail, fun independent => absurd dependent independent⟩
  · rw [minpolyOn_of_some input _ found]
    have vector : isVector P c := ((unique c).mpr rfl).1
    have stored := s.finish_store_storedOnly s.addr1.toNat (elemBytes 2 c)
    rw [length_elemBytes, vector.1] at stored
    refine ⟨fun dependent => absurd dependent independent, fun _ => ⟨stored, ?_⟩⟩
    rw [State.finish_store_readElems, s.readElems_storeBytes_of_isVector _ (field_m_le_of_paramRow hP) vector]
    exact unique

end Sys2Proof.Machine
end

section
/-! PROOFS. BENES: a stage exchanges disjoint pairs of wires, so each bit of its result is one bit of its input, at the
wire `wireBefore` names; the network chains the stages backwards (spec/43_benes.md R170 to R172). -/

namespace Sys2Proof.Machine

open Sys2Proof.Config Sys2Proof.Spec

/-! ### The pairs at a gap (43_benes.md R170)

The wires p with p / g even are the lower ones, those with p / g odd the upper ones. -/

/-- The number of the swap that wire p belongs to at gap g. -/
def swapIndex (g p : Nat) : Nat := p % g + g * (p / (2 * g))

/-- The other wire of p's swap at gap g. -/
def swapPartner (g p : Nat) : Nat := if p / g % 2 = 0 then p + g else p - g

/-- The lower wire of swap j at gap g. -/
def swapLower (g j : Nat) : Nat := j % g + 2 * g * (j / g)

theorem benesLo_eq_swapLower (w i j : Nat) : benesLo w i j = swapLower (benesGap w i) j := rfl

theorem benesHi_eq_swapLower_add (w i j : Nat) : benesHi w i j = swapLower (benesGap w i) j + benesGap w i := rfl

theorem swapIndex_mod (g p : Nat) : swapIndex g p % g = p % g := by
  rw [swapIndex, Nat.add_mul_mod_self_left, Nat.mod_mod]

section
variable {g : Nat} (hg : 0 < g)
include hg

theorem swapIndex_div (p : Nat) : swapIndex g p / g = p / (2 * g) := by
  rw [swapIndex, Nat.add_mul_div_left _ _ hg, Nat.div_eq_of_lt (Nat.mod_lt p hg), Nat.zero_add]

theorem swapLower_div_mod_two (j : Nat) : swapLower g j / g % 2 = 0 := by
  rw [swapLower, Nat.mul_right_comm, Nat.mul_comm (2 * (j / g)), Nat.add_mul_div_left _ _ hg,
    Nat.div_eq_of_lt (Nat.mod_lt j hg)]
  omega

theorem swapUpper_div_mod_two (j : Nat) : (swapLower g j + g) / g % 2 = 1 := by
  have lower := swapLower_div_mod_two hg j
  rw [Nat.add_div_right _ hg]
  omega

theorem swapIndex_swapLower (j : Nat) : swapIndex g (swapLower g j) = j := by
  have mod : swapLower g j % g = j % g := by
    rw [swapLower, Nat.mul_comm 2, Nat.mul_assoc, Nat.add_mul_mod_self_left, Nat.mod_mod]
  have div : swapLower g j / (2 * g) = j / g := by
    rw [swapLower, Nat.add_mul_div_left _ _ (by omega), Nat.div_eq_of_lt (by have := Nat.mod_lt j hg; omega),
      Nat.zero_add]
  rw [swapIndex, mod, div, Nat.mod_add_div]

theorem swapIndex_swapUpper (j : Nat) : swapIndex g (swapLower g j + g) = j := by
  have mod : (swapLower g j + g) % g = j % g := by
    rw [Nat.add_mod_right, ← swapIndex_mod, swapIndex_swapLower hg]
  have div : (swapLower g j + g) / (2 * g) = j / g := by
    rw [swapLower, Nat.add_right_comm, Nat.add_mul_div_left _ _ (by omega),
      Nat.div_eq_of_lt (by have := Nat.mod_lt j hg; omega), Nat.zero_add]
  rw [swapIndex, mod, div, Nat.mod_add_div]

/-- A wire is the lower wire of its swap, a gap further where it is an upper one. -/
theorem swapLower_swapIndex_add (p : Nat) : swapLower g (swapIndex g p) + g * (p / g % 2) = p := by
  have half : p / (2 * g) = p / g / 2 := by rw [Nat.div_div_eq_div_mul, Nat.mul_comm]
  rw [swapLower, swapIndex_mod, swapIndex_div hg, half, Nat.mul_comm 2, Nat.mul_assoc, Nat.add_assoc, ← Nat.mul_add,
    Nat.div_add_mod, Nat.mod_add_div]

theorem eq_swapLower_or_eq_swapUpper (p : Nat) :
    p = swapLower g (swapIndex g p) ∨ p = swapLower g (swapIndex g p) + g := by
  have whole := swapLower_swapIndex_add hg p
  rcases Nat.mod_two_eq_zero_or_one (p / g) with lower | upper
  · rw [lower, Nat.mul_zero, Nat.add_zero] at whole
    exact .inl whole.symm
  · rw [upper, Nat.mul_one] at whole
    exact .inr whole.symm

theorem swapPartner_swapLower (j : Nat) : swapPartner g (swapLower g j) = swapLower g j + g :=
  if_pos (swapLower_div_mod_two hg j)

theorem swapPartner_swapUpper (j : Nat) : swapPartner g (swapLower g j + g) = swapLower g j := by
  rw [swapPartner, if_neg (by rw [swapUpper_div_mod_two hg]; decide), Nat.add_sub_cancel]

theorem swapIndex_swapPartner (p : Nat) : swapIndex g (swapPartner g p) = swapIndex g p := by
  rcases eq_swapLower_or_eq_swapUpper hg p with lower | upper
  · rw [lower, swapPartner_swapLower hg, swapIndex_swapUpper hg, swapIndex_swapLower hg]
  · rw [upper, swapPartner_swapUpper hg, swapIndex_swapLower hg, swapIndex_swapUpper hg]

theorem swapPartner_swapPartner (p : Nat) : swapPartner g (swapPartner g p) = p := by
  rcases eq_swapLower_or_eq_swapUpper hg p with lower | upper
  · rw [lower, swapPartner_swapLower hg, swapPartner_swapUpper hg]
  · rw [upper, swapPartner_swapUpper hg, swapPartner_swapLower hg]

/-- The swaps below q·g are those of the wires below 2·q·g. -/
theorem swapIndex_lt_iff (q p : Nat) : swapIndex g p < q * g ↔ p < q * (2 * g) := by
  rw [← Nat.div_lt_iff_lt_mul hg, swapIndex_div hg, Nat.div_lt_iff_lt_mul (by omega)]

end

/-! ### Exchanging pairs, as a function of the wire -/

/-- The values f at the wires after swap j alone, done where its control c holds. -/
def exchangeAt (g : Nat) (c : Bool) (j : Nat) (f : Nat → Bool) (p : Nat) : Bool :=
  if swapIndex g p = j ∧ c = true then f (swapPartner g p) else f p

/-- The values f at the wires after the swaps below n, each under its own control. -/
def exchangeBelow (g : Nat) (ctl : Nat → Bool) (n : Nat) (f : Nat → Bool) (p : Nat) : Bool :=
  if swapIndex g p < n ∧ ctl (swapIndex g p) = true then f (swapPartner g p) else f p

@[simp] theorem exchangeAt_false (g j : Nat) (f : Nat → Bool) : exchangeAt g false j f = f := by
  funext p
  simp [exchangeAt]

/-- A swap that is done, wire by wire. -/
theorem exchangeAt_true {g : Nat} (hg : 0 < g) (j : Nat) (f : Nat → Bool) (p : Nat) : exchangeAt g true j f p =
    if p = swapLower g j then f (swapLower g j + g) else if p = swapLower g j + g then f (swapLower g j) else f p := by
  by_cases lower : p = swapLower g j
  · rw [if_pos lower, exchangeAt, lower, if_pos ⟨swapIndex_swapLower hg j, rfl⟩, swapPartner_swapLower hg]
  by_cases upper : p = swapLower g j + g
  · rw [if_neg lower, if_pos upper, exchangeAt, upper, if_pos ⟨swapIndex_swapUpper hg j, rfl⟩,
      swapPartner_swapUpper hg]
  · have other : swapIndex g p ≠ j := by
      rintro rfl
      exact (eq_swapLower_or_eq_swapUpper hg p).elim lower upper
    rw [if_neg lower, if_neg upper, exchangeAt, if_neg fun h => other h.1]

theorem exchangeBelow_zero (g : Nat) (ctl : Nat → Bool) (f : Nat → Bool) : exchangeBelow g ctl 0 f = f := by
  funext p
  simp [exchangeBelow]

/-- The pairs are disjoint: swap n finds its two wires as they were at the start. -/
theorem exchangeAt_exchangeBelow {g : Nat} (hg : 0 < g) (ctl : Nat → Bool) (n : Nat) (f : Nat → Bool) :
    exchangeAt g (ctl n) n (exchangeBelow g ctl n f) = exchangeBelow g ctl (n + 1) f := by
  funext p
  by_cases here : swapIndex g p = n
  · simp [exchangeAt, exchangeBelow, swapIndex_swapPartner hg, here]
  · have below : swapIndex g p < n + 1 ↔ swapIndex g p < n := by omega
    simp [exchangeAt, exchangeBelow, here, below]

/-- A fold whose step j does swap j on what `see` shows of the state does all the swaps below n. The steps may rely on
an invariant they keep. -/
theorem foldl_exchangeAt {σ : Type} {g : Nat} (hg : 0 < g) {ctl : Nat → Bool} {see : σ → Nat → Bool} {inv : σ → Prop}
    {next : σ → Nat → σ} {n : Nat} (keeps : ∀ x, ∀ j < n, inv x → inv (next x j))
    (swaps : ∀ x, ∀ j < n, inv x → see (next x j) = exchangeAt g (ctl j) j (see x)) {x : σ} (hx : inv x) :
    inv ((List.range n).foldl next x) ∧ see ((List.range n).foldl next x) = exchangeBelow g ctl n (see x) := by
  induction n with
  | zero => exact ⟨hx, (exchangeBelow_zero g ctl (see x)).symm⟩
  | succ n ih =>
    obtain ⟨invBefore, seen⟩ := ih (fun x j hj => keeps x j (by omega)) fun x j hj => swaps x j (by omega)
    rw [List.range_succ, List.foldl_append, List.foldl_cons, List.foldl_nil]
    exact ⟨keeps _ n (by omega) invBefore, by
      rw [swaps _ n (by omega) invBefore, seen, exchangeAt_exchangeBelow hg]⟩

/-! ### One stage (43_benes.md R172) -/

theorem testBit_swapBits (d p q x : Nat) : (swapBits d p q).testBit x =
    if x = p then d.testBit q else if x = q then d.testBit p else d.testBit x := by
  unfold swapBits
  by_cases same : d.testBit p = d.testBit q
  · rw [if_pos same]
    split_ifs with hp hq
    · rw [hp, same]
    · rw [hq, same]
    · rfl
  · have apart : p ≠ q := fun h => same (by rw [h])
    have flipped : d.testBit q = !d.testBit p := by simpa [Bool.eq_not_iff] using Ne.symm same
    rw [if_neg same, Nat.testBit_xor, Nat.testBit_xor, Nat.testBit_two_pow, Nat.testBit_two_pow]
    split_ifs with hp hq
    · simp [hp, apart.symm, flipped]
    · simp [hq, apart, flipped]
    · simp [Ne.symm hp, Ne.symm hq]

theorem benesGap_pos (w i : Nat) : 0 < benesGap w i := Nat.two_pow_pos _

theorem testBit_benesSwap (w ctrl i d j : Nat) : (benesSwap w ctrl i d j).testBit =
    exchangeAt (benesGap w i) (ctrl.testBit (benesControl w i j)) j d.testBit := by
  unfold benesSwap
  split_ifs with control
  · funext p
    rw [control, exchangeAt_true (benesGap_pos w i), testBit_swapBits]
    rfl
  · rw [Bool.eq_false_of_not_eq_true control, exchangeAt_false]

theorem testBit_benesStage (w ctrl d i : Nat) : (benesStage w ctrl d i).testBit =
    exchangeBelow (benesGap w i) (fun j => ctrl.testBit (benesControl w i j)) (2 ^ w / 2) d.testBit :=
  (foldl_exchangeAt (inv := fun _ => True) (benesGap_pos w i) (fun _ _ _ _ => trivial)
    (fun d j _ _ => testBit_benesSwap w ctrl i d j) trivial).2

theorem two_pow_div_two {w : Nat} (hw : 0 < w) : 2 ^ w / 2 = 2 ^ (w - 1) := by
  rw [← Nat.sub_add_cancel hw, Nat.pow_succ, Nat.mul_div_cancel _ (by decide), Nat.add_sub_cancel]

/-- The stages of a network on 2^w wires have gaps that divide 2^(w-1), so every wire has its partner among them. -/
theorem swapIndex_benesGap_lt_iff {w : Nat} (hw : 0 < w) (i p : Nat) :
    swapIndex (benesGap w i) p < 2 ^ w / 2 ↔ p < 2 ^ w := by
  obtain ⟨q, hq⟩ : benesGap w i ∣ 2 ^ (w - 1) := Nat.pow_dvd_pow 2 (by omega)
  have half : 2 ^ w / 2 = q * benesGap w i := by rw [two_pow_div_two hw, hq, Nat.mul_comm]
  have wires : 2 ^ w = q * (2 * benesGap w i) := by
    rw [Nat.mul_left_comm, ← half, Nat.mul_div_cancel' (dvd_pow_self 2 hw.ne')]
  rw [half, swapIndex_lt_iff (benesGap_pos w i), wires]

/-! ### The wires of a network, traced backwards -/

/-- Swap j of stage i reads a control bit of the buffer (43_benes.md R171). -/
theorem control_lt {w i j : Nat} (hi : i < 2 * w - 1) (hj : j < 2 ^ (w - 1)) :
    i * 2 ^ (w - 1) + j < (2 * w - 1) * 2 ^ (w - 1) :=
  calc i * 2 ^ (w - 1) + j < (i + 1) * 2 ^ (w - 1) := by rw [Nat.succ_mul]; omega
    _ ≤ (2 * w - 1) * 2 ^ (w - 1) := Nat.mul_le_mul_right _ hi

/-- `wireBefore` in the words of the pairs. -/
theorem wireBefore_eq (w : Nat) (ctl : Nat → Bool) (i p : Nat) : wireBefore w ctl i p =
    if ctl (i * 2 ^ (w - 1) + swapIndex (benesGap w i) p) then swapPartner (benesGap w i) p else p := by
  have lower : swapIndex (benesGap w i) (if p / benesGap w i % 2 = 0 then p else p - benesGap w i) =
      swapIndex (benesGap w i) p := by
    split_ifs with even
    · rfl
    · rw [← swapIndex_swapPartner (benesGap_pos w i) p, swapPartner, if_neg even]
  rw [← lower]
  rfl

section
variable {w : Nat} (hw : 0 < w)
include hw

theorem wireBefore_lt (ctl : Nat → Bool) (i : Nat) {p : Nat} (hp : p < 2 ^ w) : wireBefore w ctl i p < 2 ^ w := by
  rw [wireBefore_eq]
  split_ifs
  · rwa [← swapIndex_benesGap_lt_iff hw i, swapIndex_swapPartner (benesGap_pos w i), swapIndex_benesGap_lt_iff hw]
  · exact hp

/-- A stage takes the bit at each wire from the wire before, and leaves any further bit alone. -/
theorem testBit_benesStage_eq_wireBefore (ctrl d i p : Nat) : (benesStage w ctrl d i).testBit p =
    d.testBit (if p < 2 ^ w then wireBefore w ctrl.testBit i p else p) := by
  simp only [testBit_benesStage, exchangeBelow, swapIndex_benesGap_lt_iff hw]
  by_cases inside : p < 2 ^ w
  · simp only [inside, true_and, if_true, wireBefore_eq, benesControl, two_pow_div_two hw]
    split_ifs <;> rfl
  · simp only [inside, false_and, if_false]

theorem foldr_wireBefore_lt (ctl : Nat → Bool) (stages : List Nat) {p : Nat} (hp : p < 2 ^ w) :
    stages.foldr (wireBefore w ctl) p < 2 ^ w := by
  induction stages with
  | nil => exact hp
  | cons i stages ih => exact wireBefore_lt hw ctl i ih

theorem networkSource_lt (ctl : Nat → Bool) {p : Nat} (hp : p < 2 ^ w) : networkSource w ctl p < 2 ^ w :=
  foldr_wireBefore_lt hw ctl _ hp

theorem testBit_foldl_benesStage (ctrl d : Nat) (stages : List Nat) (p : Nat) :
    (stages.foldl (benesStage w ctrl) d).testBit p =
      d.testBit (if p < 2 ^ w then stages.foldr (wireBefore w ctrl.testBit) p else p) := by
  induction stages generalizing d with
  | nil => simp
  | cons i stages ih =>
    rw [List.foldl_cons, ih, testBit_benesStage_eq_wireBefore hw]
    by_cases inside : p < 2 ^ w
    · rw [if_pos inside, if_pos (foldr_wireBefore_lt hw _ stages inside), if_pos inside]
      rfl
    · rw [if_neg inside, if_neg inside, if_neg inside]

/-- The network's result at a wire is the bit before at the wire its stages trace it back to. -/
theorem testBit_benesApply (ctrl d : Nat) {p : Nat} (hp : p < 2 ^ w) :
    (benesApply w ctrl d).testBit p = d.testBit (networkSource w ctrl.testBit p) := by
  rw [benesApply, testBit_foldl_benesStage hw, if_pos hp]
  rfl

theorem testBit_benesApply_of_le (ctrl d : Nat) {p : Nat} (hp : 2 ^ w ≤ p) :
    (benesApply w ctrl d).testBit p = d.testBit p := by
  rw [benesApply, testBit_foldl_benesStage hw, if_neg (by omega)]

/-- The network reads the control bits of its own stages only. -/
theorem networkSource_congr {ctl ctl' : Nat → Bool} (same : ∀ k < (2 * w - 1) * 2 ^ (w - 1), ctl k = ctl' k) {p : Nat}
    (hp : p < 2 ^ w) : networkSource w ctl p = networkSource w ctl' p := by
  have trace (stages : List Nat) (bound : ∀ i ∈ stages, i < 2 * w - 1) :
      stages.foldr (wireBefore w ctl) p = stages.foldr (wireBefore w ctl') p := by
    induction stages with
    | nil => rfl
    | cons i stages ih =>
      have wire := foldr_wireBefore_lt hw ctl' stages hp
      have swap := (swapIndex_benesGap_lt_iff hw i _).mpr wire
      rw [two_pow_div_two hw] at swap
      rw [List.foldr_cons, List.foldr_cons, ih fun k hk => bound k (.tail _ hk), wireBefore_eq, wireBefore_eq,
        same _ (control_lt (bound i (.head _)) swap)]
  exact trace _ fun i hi => List.mem_range.mp hi

end

theorem wireBefore_wireBefore (w : Nat) (ctl : Nat → Bool) (i p : Nat) :
    wireBefore w ctl i (wireBefore w ctl i p) = p := by
  rw [wireBefore_eq w ctl i p]
  split_ifs with control
  · rw [wireBefore_eq, swapIndex_swapPartner (benesGap_pos w i), if_pos control,
      swapPartner_swapPartner (benesGap_pos w i)]
  · rw [wireBefore_eq, if_neg control]

theorem networkSource_injective (w : Nat) (ctl : Nat → Bool) : Function.Injective (networkSource w ctl) := by
  have trace (stages : List Nat) : Function.Injective fun p => stages.foldr (wireBefore w ctl) p := by
    induction stages with
    | nil => exact Function.injective_id
    | cons i stages ih => exact (Function.LeftInverse.injective (wireBefore_wireBefore w ctl i)).comp ih
  exact trace _

theorem networkSource_of_zero_control (w p : Nat) : networkSource w (fun _ => false) p = p := by
  have trace (stages : List Nat) : stages.foldr (wireBefore w fun _ => false) p = p := by
    induction stages with
    | nil => rfl
    | cons i stages ih =>
      rw [List.foldr_cons, ih, wireBefore_eq]
      rfl
  exact trace _

/-- The network permutes the wires. -/
theorem map_networkSource_perm {w : Nat} (hw : 0 < w) (ctl : Nat → Bool) :
    ((List.range (2 ^ w)).map (networkSource w ctl)).Perm (List.range (2 ^ w)) := by
  have distinct := (List.nodup_range (n := 2 ^ w)).map (networkSource_injective w ctl)
  have among : (List.range (2 ^ w)).map (networkSource w ctl) ⊆ List.range (2 ^ w) := by
    intro q hq
    obtain ⟨p, hp, rfl⟩ := List.mem_map.mp hq
    exact List.mem_range.mpr (networkSource_lt hw ctl (List.mem_range.mp hp))
  exact (distinct.subperm among).perm_of_length_le (by simp)

/-! ### The command (43_benes.md R172) -/

/-- The network of a parameter set fills its data and control buffers (43_benes.md R170, R171). -/
theorem benesSizes_of_paramRow {p : BitVec 3} {P : ParamSet} (h : paramRow p = some P) :
    0 < P.field.m ∧ 8 * (benesWires P / 8) = 2 ^ P.field.m ∧
      8 * controlBytes P = (2 * P.field.m - 1) * 2 ^ (P.field.m - 1) := by
  have field := field_mem_of_paramRow h
  simp only [List.mem_cons, List.not_mem_nil, or_false] at field
  unfold controlBytes benesWires
  rcases field with field | field <;> rw [field] <;> decide

/-- What BENES stores where no check fails: the data buffer as the network leaves it. -/
def State.benesResult (s : State) (P : ParamSet) : CommandEnd :=
  .store s.addr0.toNat (natToBytes (benesWires P / 8)
    (benesApply P.field.m (s.memRead s.addr1.toNat (controlBytes P)) (s.memRead s.addr0.toNat (benesWires P / 8))))

theorem State.benesCommand_of_checks {s : State} {P : ParamSet} (hP : paramRow s.lpset = some P)
    (align0 : s.addr0.toNat % 8 = 0) (align1 : s.addr1.toNat % 8 = 0)
    (inside0 : s.addr0.toNat + benesWires P / 8 ≤ 0x400000) (inside1 : s.addr1.toNat + controlBytes P ≤ 0x400000)
    (apart : s.addr0.toNat + benesWires P / 8 ≤ s.addr1.toNat ∨ s.addr1.toNat + controlBytes P ≤ s.addr0.toNat) :
    s.benesCommand = s.benesResult P := by
  have align : (aligned s.addr0.toNat 8 && aligned s.addr1.toNat 8) = true := by simp [aligned, align0, align1]
  have inside : (inRange s.addr0.toNat (benesWires P / 8) && inRange s.addr1.toNat (controlBytes P)) = true := by
    simp [lmemBytes, inside0, inside1]
  have disjoint : ¬ overlap s.addr0.toNat (benesWires P / 8) s.addr1.toNat (controlBytes P) = true := by
    simp only [overlap, Bool.and_eq_true, decide_eq_true_eq]
    omega
  exact (s.withParams_of_some hP _).trans ((if_pos align).trans ((if_pos inside).trans (if_neg disjoint)))

theorem State.benesCommand_cases {s : State} {P : ParamSet} (hP : paramRow s.lpset = some P) :
    (∃ c, s.benesCommand = .error c) ∨ s.benesCommand = s.benesResult P := by
  rw [State.benesCommand, s.withParams_of_some hP]
  dsimp only
  split_ifs
  · exact .inl ⟨_, rfl⟩
  · exact .inr rfl
  · exact .inl ⟨_, rfl⟩
  · exact .inl ⟨_, rfl⟩

theorem State.finish_benesResult_storedOnly (s : State) (P : ParamSet) :
    StoredOnly s (s.finish (s.benesResult P)) s.addr0.toNat (benesWires P / 8) := by
  have stored := s.finish_store_storedOnly s.addr0.toNat (natToBytes (benesWires P / 8)
    (benesApply P.field.m (s.memRead s.addr1.toNat (controlBytes P)) (s.memRead s.addr0.toNat (benesWires P / 8))))
  rwa [length_natToBytes] at stored

theorem State.memBit_finish_benesResult {s : State} {P : ParamSet} (hP : paramRow s.lpset = some P) {p : Nat}
    (hp : p < 2 ^ P.field.m) : (s.finish (s.benesResult P)).memBit s.addr0.toNat p =
      s.memBit s.addr0.toNat (networkSource P.field.m (s.memBit s.addr1.toNat) p) := by
  obtain ⟨hm, data, control⟩ := benesSizes_of_paramRow hP
  have controls : ∀ k < (2 * P.field.m - 1) * 2 ^ (P.field.m - 1),
      (s.memRead s.addr1.toNat (controlBytes P)).testBit k = s.memBit s.addr1.toNat k := fun k hk => by
    rw [State.testBit_memRead, control, decide_eq_true hk, Bool.true_and]
  have source := networkSource_lt hm (s.memBit s.addr1.toNat) hp
  rw [State.benesResult, State.finish_store_memBit, State.memBit_storeBytes_natToBytes _ _ _ _ (by omega),
    testBit_benesApply hm _ _ hp, networkSource_congr hm controls hp, State.testBit_memRead, data,
    decide_eq_true source, Bool.true_and]

/-- Settles O50: the bytes stored are the result of the network, bit by bit the wire it is traced back to. -/
theorem benesMovesBitsThroughNetwork : Obligations.BenesMovesBitsThroughNetwork := by
  intro s P hP align0 align1 inside0 inside1 apart
  refine ⟨_, exec_eq_finish .benes s, ?_⟩
  rw [commandEnd, State.benesCommand_of_checks hP align0 align1 inside0 inside1 apart]
  exact ⟨s.finish_benesResult_storedOnly P, fun p hp => State.memBit_finish_benesResult hP hp⟩

/-! ### The ones and the zero control buffer (43_benes.md R172) -/

theorem State.memBit_congr {s t : State} (kept : LmemKept s t) (a k : Nat) : t.memBit a k = s.memBit a k := by
  rw [State.memBit, State.memBit, kept]

theorem LmemKept.of_lmem_eq {s t : State} (lmem : t.lmem = s.lmem) (lmemGen : t.lmemGen = s.lmemGen) :
    LmemKept s t := fun x => by
  rw [State.byteAt, State.byteAt, State.fill, State.fill, lmem, lmemGen]

theorem OnlyStatusChanged.lmemKept {s t : State} (h : OnlyStatusChanged s t) : LmemKept s t :=
  .of_lmem_eq h.lmem h.lmemGen

/-- Bytes with the same bits are the same bytes. -/
theorem LmemKept.of_memBit {s t : State} {a n : Nat} (outside : LmemKeptOutside s t a n)
    (bits : ∀ k < 8 * n, t.memBit a k = s.memBit a k) : LmemKept s t := by
  intro x
  by_cases inside : a ≤ x ∧ x < a + n
  · obtain ⟨d, rfl⟩ := Nat.exists_eq_add_of_le inside.1
    refine BitVec.eq_of_getLsbD_eq fun i hi => ?_
    have bit := bits (8 * d + i) (by omega)
    rwa [State.memBit, State.memBit, show (8 * d + i) / 8 = d by omega, show (8 * d + i) % 8 = i by omega] at bit
  · exact outside x (by omega)

theorem length_filter_networkSource {w : Nat} (hw : 0 < w) (ctl f : Nat → Bool) :
    ((List.range (2 ^ w)).filter fun p => f (networkSource w ctl p)).length =
      ((List.range (2 ^ w)).filter f).length := by
  rw [← ((map_networkSource_perm hw ctl).filter f).length_eq, List.filter_map, List.length_map]
  rfl

/-- Settles O51: the network permutes the wires, and with no control bit set every stage is the identity. -/
theorem benesPreservesNumberOfOnes : Obligations.BenesPreservesNumberOfOnes := by
  intro s t P hP run
  obtain rfl : s.finish s.benesCommand = t := Host.Outcome.next.inj ((exec_eq_finish .benes s).symm.trans run)
  rcases State.benesCommand_cases hP with ⟨c, eq⟩ | eq <;> rw [eq]
  · have kept := (s.finish_error c).2.lmemKept
    exact ⟨by rw [funext (State.memBit_congr kept _)], fun _ => kept⟩
  · obtain ⟨hm, data, control⟩ := benesSizes_of_paramRow hP
    constructor
    · rw [← length_filter_networkSource hm (s.memBit s.addr1.toNat) (s.memBit s.addr0.toNat)]
      congr 1
      exact List.filter_congr fun p hp => State.memBit_finish_benesResult hP (List.mem_range.mp hp)
    · intro zero
      rw [control] at zero
      refine .of_memBit (s.finish_benesResult_storedOnly P).outside fun p hp => ?_
      rw [data] at hp
      rw [State.memBit_finish_benesResult hP hp, networkSource_congr hm zero hp, networkSource_of_zero_control]

end Sys2Proof.Machine
end

section
/-! PROOFS. TRANSPOSE64: bit j of output lane i is bit i of input lane j, and doing that twice gives each bit back
(spec/43_benes.md R174). -/

namespace Sys2Proof.Machine

open Sys2Proof.Config Sys2Proof.Spec

/-! ### The lanes -/

/-- The one bit a lane gives. -/
theorem testBit_shiftRight_and_one (lane i k : Nat) :
    ((lane >>> i) &&& 1).testBit k = (decide (k = 0) && lane.testBit i) := by
  have one : (lane >>> i) &&& 1 = (lane.testBit i).toNat := by
    rw [Nat.and_one_is_mod, Nat.toNat_testBit, Nat.shiftRight_eq_div_pow]
  rw [one]
  cases lane.testBit i <;> cases k <;> simp [Nat.testBit_succ]

theorem testBit_transposeLane (i j : Nat) (lanes : List Nat) (k : Nat) :
    (transposeLane i j lanes).testBit k = (decide (j ≤ k) && (lanes.getD (k - j) 0).testBit i) := by
  induction lanes generalizing j with
  | nil => simp [transposeLane]
  | cons lane lanes ih =>
    rw [transposeLane, Nat.testBit_xor, ih, Nat.testBit_shiftLeft, testBit_shiftRight_and_one]
    rcases Nat.lt_trichotomy k j with above | rfl | below
    · simp [Nat.not_le.mpr above, show ¬ j + 1 ≤ k by omega]
    · simp
    · obtain ⟨d, rfl⟩ : ∃ d, k = j + 1 + d := ⟨k - (j + 1), by omega⟩
      simp [show j + 1 + d - j = d + 1 by omega, show j ≤ j + 1 + d by omega]

@[simp] theorem length_transpose64 (lanes : List Nat) : (transpose64 lanes).length = 64 := by simp [transpose64]

theorem testBit_getElem_transpose64 (lanes : List Nat) {i : Nat} (h : i < (transpose64 lanes).length) (j : Nat) :
    (transpose64 lanes)[i].testBit j = (lanes.getD j 0).testBit i := by
  simp [transpose64, testBit_transposeLane]

theorem State.testBit_getD_readElems (s : State) (a : Nat) {size n r c : Nat} (hr : r < n) (hc : c < 8 * size) :
    ((s.readElems a size n).getD r 0).testBit c = s.memBit (a + size * r) c := by
  rw [List.getD_eq_getElem _ _ (by simpa using hr)]
  simp [State.readElems_eq_map, State.testBit_memRead, hc]

/-! ### The command (43_benes.md R174) -/

/-- The checks of TRANSPOSE64. -/
def State.transposeChecked (s : State) : Prop := s.addr0.toNat % 8 = 0 ∧ s.addr0.toNat + 512 ≤ 0x400000

theorem State.transposeCommand_of_checked {s : State} (checked : s.transposeChecked) : s.transposeCommand =
    .store s.addr0.toNat (elemBytes 8 (transpose64 (s.readElems s.addr0.toNat 8 64))) :=
  (if_pos (decide_eq_true checked.1)).trans (if_pos (decide_eq_true checked.2))

theorem State.transposeCommand_of_not_checked {s : State} (failed : ¬ s.transposeChecked) :
    ∃ c, s.transposeCommand = .error c := by
  unfold State.transposeCommand
  split_ifs with align inside
  · exact absurd ⟨of_decide_eq_true align, of_decide_eq_true inside⟩ failed
  · exact ⟨_, rfl⟩
  · exact ⟨_, rfl⟩

/-- Settles O53: output lane i gathers bit i of every input lane. -/
theorem transposeExchangesLaneAndBit : Obligations.TransposeExchangesLaneAndBit := by
  intro s align inside
  refine ⟨_, exec_eq_finish .transpose64 s, ?_⟩
  rw [commandEnd, State.transposeCommand_of_checked ⟨align, inside⟩]
  constructor
  · have stored := s.finish_store_storedOnly s.addr0.toNat
      (elemBytes 8 (transpose64 (s.readElems s.addr0.toNat 8 64)))
    rwa [length_elemBytes, length_transpose64] at stored
  · intro i hi j hj
    rw [State.finish_store_memBit, State.memBit_storeBytes_elemBytes _ _ _ _ (by simpa using hi) hj,
      testBit_getElem_transpose64, State.testBit_getD_readElems _ _ hj hi]

theorem State.exec_transpose64_of_not_checked {s t : State} (failed : ¬ s.transposeChecked)
    (run : exec .transpose64 s = .next t) : OnlyStatusChanged s t := by
  obtain ⟨c, eq⟩ := State.transposeCommand_of_not_checked failed
  obtain rfl : s.finish s.transposeCommand = t := Host.Outcome.next.inj ((exec_eq_finish .transpose64 s).symm.trans run)
  rw [eq]
  exact (s.finish_error c).2

/-! ### Twice -/

/-- Bit j of the 8-byte lane i of a region is bit 64·i + j of the region. -/
theorem State.memBit_lane (s : State) (a i j : Nat) : s.memBit (a + 8 * i) j = s.memBit a (64 * i + j) := by
  rw [State.memBit, State.memBit, show a + 8 * i + j / 8 = a + (64 * i + j) / 8 by omega,
    show (64 * i + j) % 8 = j % 8 by omega]

theorem State.transposeChecked_congr {s t : State} (addr0 : t.addr0 = s.addr0) :
    t.transposeChecked ↔ s.transposeChecked := by
  rw [State.transposeChecked, State.transposeChecked, addr0]

/-- Settles O54: the two exchanges cancel; where a check fails, it fails both times and nothing is written. -/
theorem transposeTwiceIsIdentity : Obligations.TransposeTwiceIsIdentity := by
  intro s t u first second
  by_cases checked : s.transposeChecked
  · obtain ⟨_, run, stored, bits⟩ := transposeExchangesLaneAndBit s checked.1 checked.2
    obtain rfl := Host.Outcome.next.inj (run.symm.trans first)
    have checked' := (State.transposeChecked_congr stored.operands.addr0).mpr checked
    obtain ⟨_, run', stored', bits'⟩ := transposeExchangesLaneAndBit _ checked'.1 checked'.2
    obtain rfl := Host.Outcome.next.inj (run'.symm.trans second)
    rw [stored.operands.addr0] at bits'
    have outside' := stored'.outside
    rw [stored.operands.addr0] at outside'
    refine .of_memBit (fun x hx => (outside' x hx).trans (stored.outside x hx)) fun k hk => ?_
    have row : k / 64 < 64 := by omega
    have column : k % 64 < 64 := Nat.mod_lt k (by decide)
    have twice := (bits' _ row _ column).trans (bits _ column _ row)
    rwa [State.memBit_lane, State.memBit_lane, Nat.div_add_mod] at twice
  · have kept := State.exec_transpose64_of_not_checked checked first
    have failed := mt (State.transposeChecked_congr kept.addr0).mp checked
    exact fun x => ((State.exec_transpose64_of_not_checked failed second).lmemKept x).trans (kept.lmemKept x)

end Sys2Proof.Machine
end

section
/-! PROOFS. The bit-sliced procedure for w = 12: it keeps the 4096 wires in 64 lanes of 64 bits, by rows or by columns,
and in either layout one layer does the swaps of one stage of the network (spec/43_benes.md R173). -/

namespace Sys2Proof.Machine

/-! ### A layer exchanges lanes -/

/-- Bit b of each lane. -/
def laneBit (b : Nat) (X : List Nat) (l : Nat) : Bool := (X.getD l 0).testBit b

/-- The lanes whose bit s is 0 are the lower lanes of the 32 swaps at gap 2^s, in order. -/
theorem zipIdx_layerLanes : ∀ s < 6, (layerLanes s).zipIdx = (List.range 32).map fun k => (swapLower (2 ^ s) k, k) := by
  decide

/-- The 64 lanes are paired as the wires of a network with w = 6. -/
theorem swapIndex_lane_lt_iff {s : Nat} (hs : s < 6) (l : Nat) : swapIndex (2 ^ s) l < 32 ↔ l < 64 := by
  have gap : benesGap 6 s = 2 ^ s := by rw [benesGap, Nat.min_eq_left (by omega)]
  rw [← gap]
  exact swapIndex_benesGap_lt_iff (by decide) s l

/-- Step k of a layer. -/
def layerStep (cond : List Nat) (s : Nat) (X : List Nat) (k : Nat) : List Nat :=
  layerPair cond s X (swapLower (2 ^ s) k, k)

theorem slicedLayer_eq_foldl (X cond : List Nat) {s : Nat} (hs : s < 6) :
    slicedLayer X cond s = (List.range 32).foldl (layerStep cond s) X := by
  rw [slicedLayer, zipIdx_layerLanes s hs, List.foldl_map]
  rfl

theorem length_layerStep (cond : List Nat) (s : Nat) (X : List Nat) (k : Nat) :
    (layerStep cond s X k).length = X.length := by
  simp [layerStep, layerPair]

theorem laneBit_modify_xor (b d : Nat) {X : List Nat} {a : Nat} (ha : a < X.length) (l : Nat) :
    laneBit b (X.modify a (· ^^^ d)) l = if l = a then laneBit b X a ^^ d.testBit b else laneBit b X l := by
  unfold laneBit
  split_ifs with here
  · subst here
    simp [ha]
  · simp [Ne.symm here]

/-- A pair of lanes under a condition word: the difference of the lanes, added to both, exchanges them. -/
theorem laneBit_layerPair (b : Nat) (cond : List Nat) (s : Nat) {X : List Nat} {a : Nat} (inside : a + 2 ^ s < X.length)
    (k l : Nat) : laneBit b (layerPair cond s X (a, k)) l =
      if laneBit b cond k then
        if l = a then laneBit b X (a + 2 ^ s) else if l = a + 2 ^ s then laneBit b X a else laneBit b X l
      else laneBit b X l := by
  have gap := Nat.two_pow_pos s
  have apart : a + 2 ^ s ≠ a := by omega
  rw [layerPair, laneBit_modify_xor _ _ (by simpa using inside), laneBit_modify_xor _ _ (by omega),
    laneBit_modify_xor _ _ (by omega), if_neg apart, Nat.testBit_and, Nat.testBit_xor]
  simp only [← laneBit.eq_def]
  by_cases upper : l = a + 2 ^ s
  · rw [upper, if_neg apart]
    cases laneBit b cond k <;> simp [Bool.xor_left_comm]
  by_cases lower : l = a
  · rw [lower]
    cases laneBit b cond k <;> simp
  · simp [upper, lower]

theorem laneBit_layerStep (b : Nat) (cond : List Nat) {s : Nat} (hs : s < 6) {X : List Nat} (lanes : X.length = 64)
    {k : Nat} (hk : k < 32) :
    laneBit b (layerStep cond s X k) = exchangeAt (2 ^ s) (laneBit b cond k) k (laneBit b X) := by
  have gap : 0 < 2 ^ s := Nat.two_pow_pos s
  have upper : swapLower (2 ^ s) k + 2 ^ s < X.length := by
    rwa [lanes, ← swapIndex_lane_lt_iff hs, swapIndex_swapUpper gap]
  funext l
  rw [layerStep, laneBit_layerPair b cond s upper]
  cases laneBit b cond k with
  | false => rw [exchangeAt_false]; rfl
  | true => rw [exchangeAt_true gap]; rfl

/-- A layer does every swap at its gap under the bits of its condition words. -/
theorem slicedLayer_spec {X : List Nat} (lanes : X.length = 64) (cond : List Nat) {s : Nat} (hs : s < 6) (b : Nat) :
    (slicedLayer X cond s).length = 64 ∧
      laneBit b (slicedLayer X cond s) = exchangeBelow (2 ^ s) (laneBit b cond) 32 (laneBit b X) := by
  rw [slicedLayer_eq_foldl X cond hs]
  exact foldl_exchangeAt (inv := fun X => X.length = 64) (Nat.two_pow_pos s)
    (fun X k _ lanes => (length_layerStep cond s X k).trans lanes)
    (fun X k hk lanes => laneBit_layerStep b cond hs lanes hk) lanes

/-! ### The wires in the lanes -/

/-- The wire at bit b of lane l, by rows: the order of the bytes in LMEM. -/
def rowWire (l b : Nat) : Nat := 64 * l + b

/-- The wire at bit b of lane l, by columns: the transposed order. -/
def columnWire (l b : Nat) : Nat := 64 * b + l

/-- The 64 lanes hold the data bits d, laid out by `wire`. -/
structure Holds (wire : Nat → Nat → Nat) (X : List Nat) (d : Nat) : Prop where
  lanes : X.length = 64
  bits : ∀ l < 64, ∀ b < 64, laneBit b X l = d.testBit (wire l b)

theorem laneBit_transpose64 (X : List Nat) (b : Nat) {l : Nat} (hl : l < 64) :
    laneBit b (transpose64 X) l = laneBit l X b := by
  rw [laneBit, List.getD_eq_getElem _ _ (by simpa using hl), testBit_getElem_transpose64, laneBit]

/-- The transpose goes from either layout to the other. -/
theorem Holds.transpose {wire : Nat → Nat → Nat} {X : List Nat} {d : Nat} (held : Holds wire X d) :
    Holds (fun l b => wire b l) (transpose64 X) d :=
  ⟨length_transpose64 X, fun l hl b hb => (laneBit_transpose64 X b hl).trans (held.bits b hb l hl)⟩

theorem Holds.transpose_rows {X : List Nat} {d : Nat} (held : Holds rowWire X d) :
    Holds columnWire (transpose64 X) d := held.transpose

theorem Holds.transpose_columns {X : List Nat} {d : Nat} (held : Holds columnWire X d) :
    Holds rowWire (transpose64 X) d := held.transpose

/-- A layer does stage i, if the layout takes the pairs of lanes to the pairs of wires of stage i, and the condition
words hold the control bits of stage i there. -/
theorem Holds.slicedLayer_stage {wire : Nat → Nat → Nat} {X : List Nat} {d : Nat} (held : Holds wire X d)
    {cond : List Nat} {s i ctrl : Nat} (hs : s < 6) (wires : ∀ l < 64, ∀ b < 64, wire l b < 4096)
    (partners : ∀ l, ∀ b < 64, swapPartner (benesGap 12 i) (wire l b) = wire (swapPartner (2 ^ s) l) b)
    (controls : ∀ l < 64, ∀ b < 64, laneBit b cond (swapIndex (2 ^ s) l) =
      ctrl.testBit (benesControl 12 i (swapIndex (benesGap 12 i) (wire l b)))) :
    Holds wire (slicedLayer X cond s) (benesStage 12 ctrl d i) := by
  refine ⟨(slicedLayer_spec held.lanes cond hs 0).1, fun l hl b hb => ?_⟩
  have lane := (swapIndex_lane_lt_iff hs l).mpr hl
  have wire_index := (swapIndex_benesGap_lt_iff (w := 12) (by decide) i _).mpr (wires l hl b hb)
  have partner : swapPartner (2 ^ s) l < 64 := by
    rwa [← swapIndex_lane_lt_iff hs, swapIndex_swapPartner (Nat.two_pow_pos s)]
  rw [(slicedLayer_spec held.lanes cond hs b).2, testBit_benesStage, exchangeBelow, exchangeBelow,
    controls l hl b hb, partners l b hb, held.bits l hl b hb, held.bits _ partner b hb]
  simp only [lane, wire_index, true_and]

/-! ### The two kinds of layer (43_benes.md R173) -/

section
variable {ctrl i k : Nat}

theorem laneBit_control32 (hk : k < 32) {b : Nat} (hb : b < 64) :
    laneBit k (control32 ctrl i) b = ctrl.testBit (benesControl 12 i (32 * b + k)) := by
  have here : 2048 * i + 32 * b + k = benesControl 12 i (32 * b + k) := by rw [benesControl]; omega
  rw [laneBit, List.getD_eq_getElem _ _ (by simpa [control32] using hb)]
  simp only [control32, List.getElem_map, List.getElem_range, Nat.testBit_mod_two_pow, Nat.testBit_shiftRight, here, hk,
    decide_true, Bool.true_and]

theorem laneBit_control64 (hk : k < 32) {b : Nat} (hb : b < 64) :
    laneBit b (control64 ctrl i) k = ctrl.testBit (benesControl 12 i (64 * k + b)) := by
  have here : 2048 * i + 64 * k + b = benesControl 12 i (64 * k + b) := by rw [benesControl]; omega
  rw [laneBit, List.getD_eq_getElem _ _ (by simpa [control64] using hk)]
  simp only [control64, List.getElem_map, List.getElem_range, Nat.testBit_mod_two_pow, Nat.testBit_shiftRight, here, hb,
    decide_true, Bool.true_and]

end

section
variable {g : Nat}

/-- An upper lane has a lane a gap below it. -/
theorem le_of_div_mod_two_ne_zero {l : Nat} (upper : l / g % 2 ≠ 0) : g ≤ l := by
  by_contra below
  exact upper (by rw [Nat.div_eq_of_lt (by omega)])

section
variable (hg : 0 < g)
include hg

/-- By columns a gap below 64 pairs bits b of two lanes. -/
theorem swapPartner_columnWire (small : g ∣ 32) (l b : Nat) :
    swapPartner g (columnWire l b) = columnWire (swapPartner g l) b := by
  obtain ⟨q, hq⟩ := small
  have div : (64 * b + l) / g = 2 * (q * b) + l / g := by
    rw [show 64 * b = g * (2 * (q * b)) by rw [show 64 = 2 * 32 by rfl, hq]; ring, Nat.mul_add_div hg]
  have parity : (64 * b + l) / g % 2 = l / g % 2 := by omega
  simp only [swapPartner, columnWire, parity]
  split_ifs with lower
  · omega
  · have := le_of_div_mod_two_ne_zero lower
    omega

theorem swapIndex_columnWire (small : g ∣ 32) (l b : Nat) :
    swapIndex g (columnWire l b) = 32 * b + swapIndex g l := by
  obtain ⟨q, hq⟩ := small
  have shift : 64 * b = 2 * g * (q * b) := by rw [show 64 = 2 * 32 by rfl, hq]; ring
  rw [swapIndex, swapIndex, columnWire, shift, Nat.mul_add_div (by omega), Nat.mul_add,
    Nat.mul_comm 2 g, Nat.mul_assoc, Nat.mul_add_mod, ← Nat.mul_assoc g q, ← hq]
  omega

end

/-- By rows a gap of 64·g pairs all bits of two lanes. -/
theorem swapPartner_rowWire (l : Nat) {b : Nat} (hb : b < 64) :
    swapPartner (64 * g) (rowWire l b) = rowWire (swapPartner g l) b := by
  have div : (64 * l + b) / (64 * g) = l / g := by rw [← Nat.div_div_eq_div_mul]; congr 1; omega
  simp only [swapPartner, rowWire, div]
  split_ifs with lower
  · omega
  · have := le_of_div_mod_two_ne_zero lower
    omega

theorem swapIndex_rowWire (l : Nat) {b : Nat} (hb : b < 64) :
    swapIndex (64 * g) (rowWire l b) = 64 * swapIndex g l + b := by
  have lane : (64 * l + b) / 64 = l := by omega
  have bit : (64 * l + b) % 64 = b := by omega
  rw [swapIndex, swapIndex, rowWire, Nat.mod_mul, Nat.mul_left_comm 2 64, ← Nat.div_div_eq_div_mul, lane, bit]
  ring

end

section
variable {X : List Nat} {d ctrl i s : Nat}

theorem Holds.outerLayer_stage (held : Holds columnWire X d) (hs : s < 6) (gap : benesGap 12 i = 2 ^ s) :
    Holds columnWire (outerLayer ctrl X (i, s)) (benesStage 12 ctrl d i) := by
  have small : 2 ^ s ∣ 32 := Nat.pow_dvd_pow 2 (by omega : s ≤ 5)
  have pos := Nat.two_pow_pos s
  refine held.slicedLayer_stage hs (fun l hl b hb => by rw [columnWire]; omega) (fun l b _ => ?_) fun l hl b hb => ?_
  · rw [gap, swapPartner_columnWire pos small]
  · have index := (swapIndex_lane_lt_iff hs l).mpr hl
    rw [gap, swapIndex_columnWire pos small, laneBit_transpose64 _ _ (index.trans (by decide)),
      laneBit_control32 index hb]

theorem Holds.innerLayer_stage (held : Holds rowWire X d) (hs : s < 6) (gap : benesGap 12 i = 64 * 2 ^ s) :
    Holds rowWire (innerLayer ctrl X (i, s)) (benesStage 12 ctrl d i) := by
  refine held.slicedLayer_stage hs (fun l hl b hb => by rw [rowWire]; omega) (fun l b hb => ?_) fun l hl b hb => ?_
  · rw [gap, swapPartner_rowWire l hb]
  · rw [gap, swapIndex_rowWire l hb, laneBit_control64 ((swapIndex_lane_lt_iff hs l).mpr hl) hb]

end

/-! ### The whole procedure (43_benes.md R173) -/

/-- A run of layers does its stages in order. -/
theorem Holds.foldl_layers {wire : Nat → Nat → Nat} {ctrl : Nat} {layer : List Nat → Nat × Nat → List Nat}
    {layers : List (Nat × Nat)}
    (one : ∀ a ∈ layers, ∀ X d, Holds wire X d → Holds wire (layer X a) (benesStage 12 ctrl d a.1)) {X : List Nat}
    {d : Nat} (held : Holds wire X d) :
    Holds wire (layers.foldl layer X) ((layers.map Prod.fst).foldl (benesStage 12 ctrl) d) := by
  induction layers generalizing X d with
  | nil => exact held
  | cons a layers ih =>
    rw [List.map_cons, List.foldl_cons, List.foldl_cons]
    exact ih (fun a ha => one a (.tail _ ha)) (one a (.head _) X d held)

theorem Holds.outerLayers_stages {ctrl : Nat} {layers : List (Nat × Nat)}
    (gaps : ∀ a ∈ layers, a.2 < 6 ∧ benesGap 12 a.1 = 2 ^ a.2) {X : List Nat} {d : Nat} (held : Holds columnWire X d) :
    Holds columnWire (layers.foldl (outerLayer ctrl) X) ((layers.map Prod.fst).foldl (benesStage 12 ctrl) d) :=
  held.foldl_layers fun a ha _ _ held => held.outerLayer_stage (gaps a ha).1 (gaps a ha).2

theorem Holds.innerLayers_stages {ctrl : Nat} {layers : List (Nat × Nat)}
    (gaps : ∀ a ∈ layers, a.2 < 6 ∧ benesGap 12 a.1 = 64 * 2 ^ a.2) {X : List Nat} {d : Nat}
    (held : Holds rowWire X d) :
    Holds rowWire (layers.foldl (innerLayer ctrl) X) ((layers.map Prod.fst).foldl (benesStage 12 ctrl) d) :=
  held.foldl_layers fun a ha _ _ held => held.innerLayer_stage (gaps a ha).1 (gaps a ha).2

/-- The 23 layers are the stages 0 to 22, by columns, by rows and by columns again. -/
theorem Holds.benesSliced_benesApply {X : List Nat} {d : Nat} (held : Holds rowWire X d) (ctrl : Nat) :
    Holds rowWire (benesSliced ctrl X) (benesApply 12 ctrl d) := by
  have first := held.transpose_rows.outerLayers_stages (ctrl := ctrl)
    (layers := [(0, 0), (1, 1), (2, 2), (3, 3), (4, 4), (5, 5)]) (by decide)
  have middle := first.transpose_columns.innerLayers_stages (ctrl := ctrl)
    (layers := [(6, 0), (7, 1), (8, 2), (9, 3), (10, 4), (11, 5), (12, 4), (13, 3), (14, 2), (15, 1), (16, 0)])
    (by decide)
  have last := middle.transpose_rows.outerLayers_stages (ctrl := ctrl)
    (layers := [(17, 5), (18, 4), (19, 3), (20, 2), (21, 1), (22, 0)]) (by decide)
  have stages : List.range (2 * 12 - 1) = [0, 1, 2, 3, 4, 5] ++ [6, 7, 8, 9, 10, 11, 12, 13, 14, 15, 16] ++
      [17, 18, 19, 20, 21, 22] := by decide
  rw [benesApply, stages, List.foldl_append, List.foldl_append]
  exact last.transpose_columns

/-! ### The bytes of the lanes (00_scope.md R13) -/

theorem bytesToNat_append (bs cs : List Byte) :
    bytesToNat (bs ++ cs) = bytesToNat bs + 256 ^ bs.length * bytesToNat cs := by
  induction bs with
  | nil => simp [bytesToNat]
  | cons b bs ih =>
    rw [List.cons_append, bytesToNat, bytesToNat, ih, List.length_cons, Nat.pow_succ]
    ring

/-- Bit p of the bytes of 8-byte lanes is bit p mod 64 of lane p / 64. -/
theorem testBit_bytesToNat_elemBytes (X : List Nat) (p : Nat) :
    (bytesToNat (elemBytes 8 X)).testBit p = laneBit (p % 64) X (p / 64) := by
  induction X generalizing p with
  | nil => simp [elemBytes, bytesToNat, laneBit]
  | cons x X ih =>
    have bytes : bytesToNat (elemBytes 8 (x :: X)) = 2 ^ 64 * bytesToNat (elemBytes 8 X) + x % 2 ^ 64 := by
      rw [elemBytes, List.flatMap_cons, ← elemBytes, bytesToNat_append, bytesToNat_natToBytes, length_natToBytes,
        Nat.add_comm]
      rfl
    rw [bytes, Nat.testBit_two_pow_mul_add _ (Nat.mod_lt x (by decide))]
    by_cases head : p < 64
    · rw [if_pos head, Nat.testBit_mod_two_pow, Nat.mod_eq_of_lt head, Nat.div_eq_of_lt head]
      simp [laneBit, head]
    · obtain ⟨q, rfl⟩ := Nat.exists_eq_add_of_le (Nat.not_lt.mp head)
      rw [if_neg head, ih, Nat.add_sub_cancel_left, Nat.add_mod_left, Nat.add_div_left _ (by decide)]
      simp [laneBit]

theorem holds_bytesToNat_elemBytes {X : List Nat} (lanes : X.length = 64) :
    Holds rowWire X (bytesToNat (elemBytes 8 X)) :=
  ⟨lanes, fun l _ b hb => by
    rw [testBit_bytesToNat_elemBytes, rowWire, Nat.mul_add_mod, Nat.mod_eq_of_lt hb, Nat.mul_add_div (by decide),
      Nat.div_eq_of_lt hb, Nat.add_zero]⟩

/-- No lane holds a wire from 4096 on. -/
theorem testBit_bytesToNat_elemBytes_of_le {X : List Nat} (lanes : X.length = 64) {p : Nat} (hp : 4096 ≤ p) :
    (bytesToNat (elemBytes 8 X)).testBit p = false := by
  rw [testBit_bytesToNat_elemBytes, laneBit, List.getD_eq_default _ _ (by omega), Nat.zero_testBit]

/-- Settles O52: both hold the same bit at each of the 4096 wires, and none beyond. -/
theorem bitSlicedProcedureAgreesWithNetwork : Obligations.BitSlicedProcedureAgreesWithNetwork := by
  intro ctrl lanes length_lanes _
  have held := (holds_bytesToNat_elemBytes length_lanes).benesSliced_benesApply ctrl
  refine Nat.eq_of_testBit_eq fun p => ?_
  by_cases inside : p < 4096
  · rw [testBit_bytesToNat_elemBytes, held.bits _ (by omega) _ (Nat.mod_lt p (by decide)), rowWire, Nat.div_add_mod]
  · rw [testBit_bytesToNat_elemBytes_of_le held.lanes (by omega),
      testBit_benesApply_of_le (by decide) _ _ (by simpa using inside),
      testBit_bytesToNat_elemBytes_of_le length_lanes (by omega)]

end Sys2Proof.Machine
end

section
/-! PROOFS. GE_REDUCE and GE_EXTRACT. A pivot step keeps the space the rows span, so the result is E · M for some E.
After the last step the left block is the identity, so E is the inverse of L; where a pivot bit is 0, L is singular
(spec/44_gauss.md R191 to R195; log 14). -/

namespace Sys2Proof.Machine

open Sys2Proof.Config Sys2Proof.Spec

/-! ### Rows as vectors over GF(2) (44_gauss.md R190) -/

/-- The row with the columns as its coordinates. -/
def rowVector (k c : Nat) : ZMod 2 := if k.testBit c then 1 else 0

theorem rowVector_xor (a b : Nat) : rowVector (a ^^^ b) = rowVector a + rowVector b := by
  funext c
  rw [Pi.add_apply, rowVector, rowVector, rowVector, Nat.testBit_xor]
  cases a.testBit c <;> cases b.testBit c <;> decide

/-- The space the rows span. -/
def rowSpace (rows : List Nat) : Submodule (ZMod 2) (Nat → ZMod 2) := Submodule.span _ (rowVector '' {k | k ∈ rows})

theorem rowSpace_le_iff {rows : List Nat} {S : Submodule (ZMod 2) (Nat → ZMod 2)} :
    rowSpace rows ≤ S ↔ ∀ k ∈ rows, rowVector k ∈ S := by
  rw [rowSpace, Submodule.span_le, Set.image_subset_iff]
  rfl

/-! ### One step of the elimination (44_gauss.md R192) -/

/-- The pivot row of step r: row r with later rows added. -/
def pivotRow (rows : List Nat) (r : Nat) : Nat := rowPivot r (rows.getD r 0) (rows.drop (r + 1))

/-- The rows after step r, where its pivot bit is 1. -/
def clearedRows (rows : List Nat) (r : Nat) : List Nat :=
  (rows.map (rowClear r (pivotRow rows r))).set r (pivotRow rows r)

section
variable {rows : List Nat} {r : Nat}

theorem getElem?_eq_some_getD_row (hr : r < rows.length) : rows[r]? = some (rows.getD r 0) := by simp [hr]

theorem take_append_row_cons_drop (hr : r < rows.length) :
    rows.take r ++ rows.getD r 0 :: rows.drop (r + 1) = rows := by
  rw [List.getD_eq_getElem _ _ hr, ← List.drop_eq_getElem_cons hr, List.take_append_drop]

theorem forall_mem_rows_iff (hr : r < rows.length) (q : Nat → Prop) :
    (∀ k ∈ rows, q k) ↔ (∀ k ∈ rows.take r, q k) ∧ q (rows.getD r 0) ∧ ∀ k ∈ rows.drop (r + 1), q k := by
  rw [← List.forall_mem_cons, ← List.forall_mem_append, take_append_row_cons_drop hr]

theorem clearedRows_eq_append (hr : r < rows.length) :
    clearedRows rows r = (rows.take r).map (rowClear r (pivotRow rows r)) ++
      pivotRow rows r :: (rows.drop (r + 1)).map (rowClear r (pivotRow rows r)) := by
  rw [clearedRows, List.set_eq_take_append_cons_drop, if_pos (by simpa using hr), List.map_take, List.map_drop]

theorem rowStep_eq (hr : r < rows.length) :
    rowStep rows r = if (pivotRow rows r).testBit r then some (clearedRows rows r) else none := by
  have row : rows[r] = rows.getD r 0 := by simp [hr]
  rw [rowStep, List.drop_eq_getElem_cons hr, clearedRows_eq_append hr, row]
  rfl

@[simp] theorem length_clearedRows (rows : List Nat) (r : Nat) : (clearedRows rows r).length = rows.length := by
  simp [clearedRows]

theorem getElem?_clearedRows_self (hr : r < rows.length) : (clearedRows rows r)[r]? = some (pivotRow rows r) := by
  simp [clearedRows, hr]

theorem getElem?_clearedRows_of_ne {i : Nat} (h : i ≠ r) :
    (clearedRows rows r)[i]? = rows[i]?.map (rowClear r (pivotRow rows r)) := by
  simp [clearedRows, h.symm]

end

/-- What holds of the row and is kept when a later row is added holds of the pivot row. -/
theorem rowPivot_induction {motive : Nat → Prop} {r row : Nat} {later : List Nat} (start : motive row)
    (add : ∀ k ∈ later, ∀ p, motive p → motive (p ^^^ k)) : motive (rowPivot r row later) := by
  refine List.foldlRecOn later _ start fun p hp k hk => ?_
  split
  · exact add k hk p hp
  · exact hp

/-- The pivot bit is 0 only where bit r of the row and of every later one is. -/
theorem testBit_eq_false_of_rowPivot {r row : Nat} {later : List Nat} (h : (rowPivot r row later).testBit r = false) :
    ∀ k ∈ row :: later, k.testBit r = false := by
  induction later generalizing row with
  | nil => simpa [rowPivot] using h
  | cons k later ih =>
    rw [rowPivot, List.foldl_cons, ← rowPivot] at h
    obtain ⟨first, hlater⟩ := List.forall_mem_cons.mp (ih h)
    by_cases differ : row.testBit r = k.testBit r
    · rw [if_neg (by simpa using differ)] at first
      exact List.forall_mem_cons.mpr ⟨first, List.forall_mem_cons.mpr ⟨differ ▸ first, hlater⟩⟩
    · rw [if_pos (by simpa using differ), Nat.testBit_xor] at first
      exact absurd (by simpa using first) differ

theorem testBit_rowClear {r p c : Nat} (k : Nat) (hp : p.testBit c = decide (c = r)) :
    (rowClear r p k).testBit c = (!decide (c = r) && k.testBit c) := by
  rw [rowClear]
  by_cases here : c = r
  · subst here
    split
    next bit => simp [bit, hp]
    next bit => simp [bit]
  · split <;> simp [here, hp]

section
variable {S : Submodule (ZMod 2) (Nat → ZMod 2)}

/-- Adding rows of a space to a row does not change whether that row lies in it. -/
theorem rowVector_rowPivot_mem_iff {later : List Nat} (hlater : ∀ k ∈ later, rowVector k ∈ S) (r row : Nat) :
    rowVector (rowPivot r row later) ∈ S ↔ rowVector row ∈ S := by
  refine rowPivot_induction (motive := fun p => rowVector p ∈ S ↔ rowVector row ∈ S) Iff.rfl fun k hk p hp => ?_
  rw [rowVector_xor, S.add_mem_iff_left (hlater k hk), hp]

theorem rowVector_rowClear_mem_iff {p : Nat} (hp : rowVector p ∈ S) (r k : Nat) :
    rowVector (rowClear r p k) ∈ S ↔ rowVector k ∈ S := by
  rw [rowClear]
  split
  · rw [rowVector_xor, S.add_mem_iff_left hp]
  · rfl

end

/-- A step keeps the space the rows span (44_gauss.md R195). -/
theorem rowSpace_clearedRows {rows : List Nat} {r : Nat} (hr : r < rows.length) :
    rowSpace (clearedRows rows r) = rowSpace rows := by
  refine eq_of_forall_ge_iff fun S => ?_
  rw [rowSpace_le_iff, rowSpace_le_iff, clearedRows_eq_append hr, forall_mem_rows_iff hr]
  simp only [List.forall_mem_append, List.forall_mem_cons, List.forall_mem_map]
  constructor
  · rintro ⟨before, pivot, later⟩
    simp only [rowVector_rowClear_mem_iff pivot] at before later
    exact ⟨before, (rowVector_rowPivot_mem_iff later r _).mp pivot, later⟩
  · rintro ⟨before, row, later⟩
    have pivot : rowVector (pivotRow rows r) ∈ S := (rowVector_rowPivot_mem_iff later r _).mpr row
    simp only [rowVector_rowClear_mem_iff pivot]
    exact ⟨before, pivot, later⟩

/-! ### The whole elimination -/

/-- The first j columns are unit columns. -/
def UnitColumns (j : Nat) (rows : List Nat) : Prop :=
  ∀ i k : Nat, rows[i]? = some k → ∀ c < j, k.testBit c = decide (c = i)

section
variable {rows : List Nat} {r : Nat} (unit : UnitColumns r rows) (hr : r < rows.length)
include unit hr

/-- The pivot row is 0 left of column r, as the rows it sums are. -/
theorem UnitColumns.testBit_pivotRow {c : Nat} (hc : c < r) : (pivotRow rows r).testBit c = false := by
  refine rowPivot_induction (motive := fun p => p.testBit c = false) ?_ fun k hk p hp => ?_
  · rw [unit r _ (getElem?_eq_some_getD_row hr) c hc, decide_eq_false hc.ne]
  · obtain ⟨i, hi⟩ := List.mem_iff_getElem?.mp hk
    rw [List.getElem?_drop] at hi
    rw [Nat.testBit_xor, hp, unit _ k hi c hc, decide_eq_false (by omega), Bool.false_xor]

/-- The step makes column r a unit column and keeps those left of it. -/
theorem UnitColumns.step (pivot : (pivotRow rows r).testBit r = true) : UnitColumns (r + 1) (clearedRows rows r) := by
  have pivot_bit {c : Nat} (hc : c < r + 1) : (pivotRow rows r).testBit c = decide (c = r) := by
    rcases Nat.lt_succ_iff_lt_or_eq.mp hc with left | rfl
    · rw [unit.testBit_pivotRow hr left, decide_eq_false left.ne]
    · simpa using pivot
  intro i k hk c hc
  by_cases hi : i = r
  · subst hi
    rw [← Option.some.inj ((getElem?_clearedRows_self hr).symm.trans hk), pivot_bit hc]
  · rw [getElem?_clearedRows_of_ne hi] at hk
    obtain ⟨row, hrow, rfl⟩ := Option.map_eq_some_iff.mp hk
    rw [testBit_rowClear row (pivot_bit hc)]
    rcases Nat.lt_succ_iff_lt_or_eq.mp hc with left | rfl
    · rw [unit i row hrow c left, decide_eq_false left.ne, Bool.not_false, Bool.true_and]
    · rw [decide_eq_true rfl, Bool.not_true, Bool.false_and, decide_eq_false (Ne.symm hi)]

end

/-- What n steps make of the rows: as many, n unit columns, and the same span. -/
structure RowReduced (n : Nat) (rows rows' : List Nat) : Prop where
  length_eq : rows'.length = rows.length
  unit : UnitColumns n rows'
  rowSpace_eq : rowSpace rows' = rowSpace rows

theorem RowReduced.zero (rows : List Nat) : RowReduced 0 rows rows :=
  ⟨rfl, fun _ _ _ c hc => absurd hc c.not_lt_zero, rfl⟩

theorem RowReduced.step {n : Nat} {rows rows' : List Nat} (h : RowReduced n rows rows') (hn : n < rows'.length)
    (pivot : (pivotRow rows' n).testBit n = true) : RowReduced (n + 1) rows (clearedRows rows' n) where
  length_eq := (length_clearedRows rows' n).trans h.length_eq
  unit := h.unit.step hn pivot
  rowSpace_eq := (rowSpace_clearedRows hn).trans h.rowSpace_eq

/-- The elimination does its steps, or it stops at a column whose pivot bit is 0. -/
theorem reduceMatrix_cases_of_le {rows : List Nat} {n : Nat} (hn : n ≤ rows.length) :
    (reduceMatrix n rows = none ∧ ∃ j < n, ∃ rows', RowReduced j rows rows' ∧ (pivotRow rows' j).testBit j = false) ∨
      ∃ rows', reduceMatrix n rows = some rows' ∧ RowReduced n rows rows' := by
  induction n with
  | zero => exact .inr ⟨rows, rfl, .zero rows⟩
  | succ n ih =>
    rw [reduceMatrix, List.range_succ, List.foldlM_append, ← reduceMatrix]
    rcases ih (by omega) with ⟨stopped, j, hj, zero_pivot⟩ | ⟨rows', reached, reduced⟩
    · exact .inl ⟨by rw [stopped]; rfl, j, by omega, zero_pivot⟩
    · have hn' : n < rows'.length := by rw [reduced.length_eq]; omega
      have last : [n].foldlM rowStep rows' = rowStep rows' n := bind_pure (rowStep rows' n)
      rw [reached, Option.bind_eq_bind, Option.bind_some, last, rowStep_eq hn']
      split
      next pivot => exact .inr ⟨_, rfl, reduced.step hn' pivot⟩
      next pivot => exact .inl ⟨rfl, n, n.lt_succ_self, rows', reduced, by simpa using pivot⟩

/-! ### The matrix of the rows -/

/-- The first m columns of n rows. -/
def bitMatrix (n m : Nat) (rows : List Nat) : Matrix (Fin n) (Fin m) (ZMod 2) :=
  Matrix.of fun i c => rowVector (rows.getD i 0) c

/-- Rows that lie in the span of others are combinations of them, with the same factors in every column. -/
theorem exists_bitMatrix_eq_mul {n : Nat} {rows rows' : List Nat} (length : rows.length = n)
    (length' : rows'.length = n) (le : rowSpace rows' ≤ rowSpace rows) :
    ∃ E : Matrix (Fin n) (Fin n) (ZMod 2), ∀ m, bitMatrix n m rows' = E * bitMatrix n m rows := by
  have combination (i : Fin n) : ∃ factors : Fin n → ZMod 2,
      ∑ k, factors k • rowVector (rows.getD k 0) = rowVector (rows'.getD i 0) := by
    rw [← Submodule.mem_span_range_iff_exists_fun]
    refine (le.trans (rowSpace_le_iff.mpr fun k hk => ?_)) (rowSpace_le_iff.mp le_rfl _ ?_)
    · obtain ⟨l, hl, rfl⟩ := List.getElem_of_mem hk
      exact Submodule.subset_span ⟨⟨l, length ▸ hl⟩, congrArg rowVector (List.getD_eq_getElem _ _ hl)⟩
    · rw [List.getD_eq_getElem _ _ (i.isLt.trans_eq length'.symm)]
      exact List.getElem_mem _
  choose E hE using combination
  refine ⟨Matrix.of E, fun m => Matrix.ext fun i c => ?_⟩
  have coordinate := congrFun (hE i) c
  simpa [bitMatrix, Matrix.mul_apply] using coordinate.symm

section
variable {n : Nat} {rows : List Nat} (length : rows.length = n)
include length

theorem bitMatrix_apply_of_unitColumns {j : Nat} (unit : UnitColumns j rows) (i : Fin n) {c : Fin n}
    (hc : (c : Nat) < j) : bitMatrix n n rows i c = (1 : Matrix (Fin n) (Fin n) (ZMod 2)) i c := by
  have row := getElem?_eq_some_getD_row (i.isLt.trans_eq length.symm)
  rw [bitMatrix, Matrix.of_apply, rowVector, unit i _ row c hc, Matrix.one_apply]
  exact if_congr (by rw [decide_eq_true_eq, Fin.ext_iff, eq_comm]) rfl rfl

theorem bitMatrix_eq_one (unit : UnitColumns n rows) : bitMatrix n n rows = 1 :=
  Matrix.ext fun i c => bitMatrix_apply_of_unitColumns length unit i c.isLt

theorem bitMatrix_eq_zero_of_pivot (j : Fin n) (pivot : (pivotRow rows j).testBit j = false) {i : Fin n} (hi : j ≤ i) :
    bitMatrix n n rows i j = 0 := by
  have hmem : rows.getD i 0 ∈ rows.getD j 0 :: rows.drop (j + 1) := by
    rcases hi.eq_or_lt with rfl | lt
    · exact List.mem_cons_self
    · refine List.mem_cons_of_mem _ (List.mem_iff_getElem?.mpr ⟨i - (j + 1), ?_⟩)
      rw [List.getElem?_drop, Nat.add_sub_cancel' lt, getElem?_eq_some_getD_row (i.isLt.trans_eq length.symm)]
  rw [bitMatrix, Matrix.of_apply, rowVector, testBit_eq_false_of_rowPivot pivot _ hmem]
  exact if_neg Bool.false_ne_true

end

/-- A matrix is singular where the columns left of column j are unit columns and column j is 0 from the diagonal down:
column j is then the sum of the columns left of it, its own entries being the factors. -/
theorem det_eq_zero_of_zero_pivot {n : Nat} {L : Matrix (Fin n) (Fin n) (ZMod 2)} {j : Fin n}
    (unit : ∀ i, ∀ c < j, L i c = (1 : Matrix (Fin n) (Fin n) (ZMod 2)) i c) (zero : ∀ i, j ≤ i → L i j = 0) :
    L.det = 0 := by
  have fixed : L.mulVec (L.col j) = L.col j := by
    have agree (i c : Fin n) : L i c * L.col j c = (1 : Matrix (Fin n) (Fin n) (ZMod 2)) i c * L.col j c := by
      rcases lt_or_ge c j with left | right
      · rw [unit i c left]
      · rw [Matrix.col_apply, zero c right, mul_zero, mul_zero]
    calc L.mulVec (L.col j) = (1 : Matrix (Fin n) (Fin n) (ZMod 2)).mulVec (L.col j) := by
          funext i
          simp only [Matrix.mulVec, dotProduct, agree]
      _ = L.col j := Matrix.one_mulVec _
  refine Matrix.exists_mulVec_eq_zero_iff.mp ⟨L.col j + Pi.single j 1, fun h => ?_, ?_⟩
  · have diagonal := congrFun h j
    simp [zero j le_rfl] at diagonal
  · rw [Matrix.mulVec_add, fixed, Matrix.mulVec_single_one]
    exact funext fun i => CharTwo.add_self_eq_zero _

/-- The elimination multiplies by the inverse of the left block, or it stops where that block is singular (44_gauss.md
R191). -/
theorem reduceMatrix_cases {n : Nat} {rows : List Nat} (length : rows.length = n) :
    (reduceMatrix n rows = none ∧ (bitMatrix n n rows).det = 0) ∨
      ∃ rows', reduceMatrix n rows = some rows' ∧ (bitMatrix n n rows).det ≠ 0 ∧
        ∀ m, bitMatrix n m rows' = (bitMatrix n n rows)⁻¹ * bitMatrix n m rows := by
  rcases reduceMatrix_cases_of_le length.ge with ⟨stopped, j, hj, rows', reduced, pivot⟩ | ⟨rows', reached, reduced⟩
  · have length' := reduced.length_eq.trans length
    obtain ⟨E, hE⟩ := exists_bitMatrix_eq_mul length' length reduced.rowSpace_eq.ge
    have singular : (bitMatrix n n rows').det = 0 :=
      det_eq_zero_of_zero_pivot (j := ⟨j, hj⟩) (fun i c hc => bitMatrix_apply_of_unitColumns length' reduced.unit i hc)
        fun i hi => bitMatrix_eq_zero_of_pivot length' ⟨j, hj⟩ pivot hi
    exact .inl ⟨stopped, by rw [hE, Matrix.det_mul, singular, mul_zero]⟩
  · have length' := reduced.length_eq.trans length
    obtain ⟨E, hE⟩ := exists_bitMatrix_eq_mul length length' reduced.rowSpace_eq.le
    have inverse : E * bitMatrix n n rows = 1 := by rw [← hE, bitMatrix_eq_one length' reduced.unit]
    refine .inr ⟨rows', reached, Matrix.det_ne_zero_of_left_inverse inverse, fun m => ?_⟩
    rw [Matrix.inv_eq_left_inv inverse, hE]

/-! ### The matrix in LMEM (44_gauss.md R190) -/

section
variable {p : BitVec 3} {P : ParamSet} (hP : paramRow p = some P)
include hP

/-- A matrix row fills its bytes. -/
theorem eight_mul_rowBytes_of_paramRow : 8 * rowBytes P = P.sysN := by
  rcases paramRow_eq_some hP with rfl | rfl | rfl | rfl | rfl <;> decide

theorem nRows_le_sysN_of_paramRow : nRows P ≤ P.sysN := by
  rcases paramRow_eq_some hP with rfl | rfl | rfl | rfl | rfl <;> decide

end

/-- The rows of the matrix at A. -/
def State.matrixRows (s : State) (P : ParamSet) (A : Nat) : List Nat := s.readElems A (rowBytes P) (nRows P)

section
variable {s : State} {P : ParamSet}

theorem length_matrixRows (A : Nat) : (s.matrixRows P A).length = nRows P := s.length_readElems _ _ _

theorem getElem_matrixRows (A : Nat) {r : Nat} (hr : r < (s.matrixRows P A).length) :
    (s.matrixRows P A)[r] = s.memRead (A + r * rowBytes P) (rowBytes P) := by
  simp [State.matrixRows, State.readElems_eq_map, Nat.mul_comm]

/-- Entry (r, c) is bit c of row r. -/
theorem entry_eq_rowVector (A : Nat) {r c : Nat} (hr : r < nRows P) (hc : c < 8 * rowBytes P) :
    entry P s A r c = rowVector ((s.matrixRows P A).getD r 0) c := by
  rw [List.getD_eq_getElem _ _ (by rwa [length_matrixRows]), getElem_matrixRows, rowVector, State.testBit_memRead,
    decide_eq_true hc, Bool.true_and, entry]

section
variable {p : BitVec 3} (hP : paramRow p = some P) (A : Nat)
include hP

theorem wholeMatrix_eq_bitMatrix : wholeMatrix P s A = bitMatrix (nRows P) P.sysN (s.matrixRows P A) :=
  Matrix.ext fun r c => entry_eq_rowVector A r.isLt (c.isLt.trans_eq (eight_mul_rowBytes_of_paramRow hP).symm)

theorem leftBlock_eq_bitMatrix : leftBlock P s A = bitMatrix (nRows P) (nRows P) (s.matrixRows P A) :=
  Matrix.ext fun r c => entry_eq_rowVector A r.isLt
    ((c.isLt.trans_le (nRows_le_sysN_of_paramRow hP)).trans_eq (eight_mul_rowBytes_of_paramRow hP).symm)

/-- Rows stored at A are the matrix at A. -/
theorem wholeMatrix_finish_store {rows : List Nat} (length : rows.length = nRows P) :
    wholeMatrix P (s.finish (.store A (elemBytes (rowBytes P) rows))) A = bitMatrix (nRows P) P.sysN rows := by
  ext r c
  have hr : (r : Nat) < rows.length := length.symm ▸ r.isLt
  have bit := s.memBit_storeBytes_elemBytes A (rowBytes P) rows hr
    (c.isLt.trans_eq (eight_mul_rowBytes_of_paramRow hP).symm)
  rw [wholeMatrix, Matrix.of_apply, entry, State.finish_store_memBit, Nat.mul_comm, bit, bitMatrix, Matrix.of_apply,
    List.getD_eq_getElem _ _ hr, rowVector]

end

end

/-! ### GE_REDUCE (44_gauss.md R191, R193) -/

theorem State.geReduceCommand_of_checks {s : State} {P : ParamSet} (hP : paramRow s.lpset = some P)
    (align : s.addr0.toNat % 8 = 0) (inside : s.addr0.toNat + nRows P * rowBytes P ≤ 0x400000) :
    s.geReduceCommand = (reduceMatrix (nRows P) (s.matrixRows P s.addr0.toNat)).elim
      (.failUnspecified s.addr0.toNat (nRows P * rowBytes P))
      fun rows => .store s.addr0.toNat (elemBytes (rowBytes P) rows) := by
  refine (s.withParams_of_some hP _).trans
    ((if_pos (decide_eq_true align)).trans ((if_pos (decide_eq_true inside)).trans ?_))
  rw [State.matrixRows]
  cases reduceMatrix (nRows P) (s.readElems s.addr0.toNat (rowBytes P) (nRows P)) <;> rfl

/-- Settles O55: the elimination ends with the left block the identity, or stops where it is singular. -/
theorem geReduceMultipliesByInverse : Obligations.GeReduceMultipliesByInverse := by
  intro s P hP align inside
  refine ⟨_, exec_eq_finish .geReduce s, ?_⟩
  rw [commandEnd, State.geReduceCommand_of_checks hP align inside, leftBlock_eq_bitMatrix hP,
    wholeMatrix_eq_bitMatrix (s := s) hP]
  rcases reduceMatrix_cases (length_matrixRows s.addr0.toNat) with
    ⟨stopped, singular⟩ | ⟨rows, reached, regular, product⟩
  · rw [stopped, Option.elim_none]
    obtain ⟨ended, res, outside⟩ := s.finish_failUnspecified s.addr0.toNat (nRows P * rowBytes P)
    exact ⟨fun _ => ⟨ended, s.finish_operandsKept _, res, outside⟩, fun regular => absurd singular regular⟩
  · have length : rows.length = nRows P := (length_reduceMatrix reached).trans (length_matrixRows _)
    have stored := s.finish_store_storedOnly s.addr0.toNat (elemBytes (rowBytes P) rows)
    rw [length_elemBytes, length, Nat.mul_comm] at stored
    rw [reached, Option.elim_some, ← product]
    exact ⟨fun singular => absurd singular regular, fun _ => ⟨stored, wholeMatrix_finish_store hP _ length⟩⟩

/-! ### GE_EXTRACT (44_gauss.md R194) -/

theorem testBit_publicRow (P : ParamSet) (row k : Nat) :
    (publicRow P row).testBit k = (decide (nRows P + k < P.sysN) && row.testBit (nRows P + k)) := by
  rw [publicRow, Nat.testBit_shiftRight, Nat.testBit_mod_two_pow]

/-- The public key of the matrix at A. -/
def State.publicRows (s : State) (P : ParamSet) (A : Nat) : List Nat := (s.matrixRows P A).map (publicRow P)

section
variable {s : State} {P : ParamSet}

theorem length_publicRows (A : Nat) : (s.publicRows P A).length = nRows P :=
  (List.length_map _).trans (length_matrixRows A)

/-- A matrix row holds every column that the public row takes a bit from. -/
theorem testBit_publicRows {p : BitVec 3} (hP : paramRow p = some P) (A : Nat) {r : Nat}
    (hr : r < (s.publicRows P A).length) (k : Nat) : (s.publicRows P A)[r].testBit k =
      (decide (nRows P + k < P.sysN) && s.memBit (A + r * rowBytes P) (nRows P + k)) := by
  simp only [State.publicRows, List.getElem_map, testBit_publicRow, getElem_matrixRows, State.testBit_memRead,
    eight_mul_rowBytes_of_paramRow hP, ← Bool.and_assoc, Bool.and_self]

theorem State.geExtractCommand_of_checks (hP : paramRow s.lpset = some P) (align0 : s.addr0.toNat % 8 = 0)
    (align1 : s.addr1.toNat % 8 = 0) (inside0 : s.addr0.toNat + nRows P * rowBytes P ≤ 0x400000)
    (inside1 : s.addr1.toNat + nRows P * pkRowBytes P ≤ 0x400000)
    (apart : s.addr0.toNat + nRows P * rowBytes P ≤ s.addr1.toNat ∨
      s.addr1.toNat + nRows P * pkRowBytes P ≤ s.addr0.toNat) :
    s.geExtractCommand = .store s.addr1.toNat (elemBytes (pkRowBytes P) (s.publicRows P s.addr0.toNat)) := by
  have align : (aligned s.addr0.toNat 8 && aligned s.addr1.toNat 8) = true := by simp [aligned, align0, align1]
  have inside : (inRange s.addr0.toNat (nRows P * rowBytes P) && inRange s.addr1.toNat (nRows P * pkRowBytes P)) =
      true := by simp [lmemBytes, inside0, inside1]
  have disjoint :
      ¬ overlap s.addr0.toNat (nRows P * rowBytes P) s.addr1.toNat (nRows P * pkRowBytes P) = true := by
    simp only [overlap, Bool.and_eq_true, decide_eq_true_eq]
    omega
  exact (s.withParams_of_some hP _).trans ((if_pos align).trans ((if_pos inside).trans (if_neg disjoint)))

end

/-- Settles O56: the public rows are computed from the matrix before the store, and stored one after the other. -/
theorem geExtractCopiesRightBlock : Obligations.GeExtractCopiesRightBlock := by
  intro s P hP align0 align1 inside0 inside1 apart
  refine ⟨_, exec_eq_finish .geExtract s, ?_⟩
  rw [commandEnd, State.geExtractCommand_of_checks hP align0 align1 inside0 inside1 apart]
  have stored := s.finish_store_storedOnly s.addr1.toNat (elemBytes (pkRowBytes P) (s.publicRows P s.addr0.toNat))
  rw [length_elemBytes, length_publicRows, Nat.mul_comm] at stored
  refine ⟨stored, fun r hr k hk => ?_⟩
  have hr' : r < (s.publicRows P s.addr0.toNat).length := by rwa [length_publicRows]
  rw [State.finish_store_memBit, Nat.mul_comm r, State.memBit_storeBytes_elemBytes _ _ _ _ hr' hk,
    testBit_publicRows hP]

end Sys2Proof.Machine
end

section
/-! PROOFS. The housekeeping commands: NOP writes nothing, and ZERO stores LEN zero bytes where its one check is met
(spec/45_misc.md R210, R211). -/

namespace Sys2Proof.Machine

/-- Settles O38: a normal end that writes nothing. -/
theorem nopOnlyCompletes : Obligations.NopOnlyCompletes := fun s =>
  ⟨_, exec_eq_finish .nop s, s.finish_normal⟩

/-! ### ZERO (45_misc.md R211) -/

theorem State.zeroCommand_of_inside {s : State} (inside : s.addr0.toNat + s.len.toNat ≤ 0x400000) :
    s.zeroCommand = .store s.addr0.toNat (List.replicate s.len.toNat 0) := if_pos (decide_eq_true inside)

theorem State.zeroCommand_of_beyond {s : State} (beyond : ¬ s.addr0.toNat + s.len.toNat ≤ 0x400000) :
    s.zeroCommand = .error .eaddr := if_neg (mt of_decide_eq_true beyond)

theorem State.byteAt_storeBytes_replicate (s : State) (a n : Nat) (b : Byte) {x : Nat} (above : a ≤ x)
    (below : x < a + n) : (s.storeBytes a (List.replicate n b)).byteAt x = b := by
  rw [State.byteAt_storeBytes_inside _ _ _ above (by rwa [List.length_replicate]),
    List.getD_replicate _ (by omega)]

/-- Settles O57: inside LMEM the zero bytes are stored and read back; beyond it the command ends with EADDR. -/
theorem zeroClearsExactlyItsRegion : Obligations.ZeroClearsExactlyItsRegion := by
  intro s
  refine ⟨_, exec_eq_finish .zero s, ?_⟩
  rw [commandEnd]
  split_ifs with inside
  · rw [State.zeroCommand_of_inside inside]
    have stored := s.finish_store_storedOnly s.addr0.toNat (List.replicate s.len.toNat 0)
    rw [List.length_replicate] at stored
    exact ⟨stored, fun _ above below => s.byteAt_storeBytes_replicate _ _ 0 above below⟩
  · rw [State.zeroCommand_of_beyond inside]
    exact s.finish_error .eaddr

end Sys2Proof.Machine
end

section
/-! PROOFS. Exceptions: how a command ends and which error it reports (spec/60_exceptions.md R220 to R225), and the
launch, the completion and the drop of a command word (R226, R227, R229). -/

namespace Sys2Proof.Machine

open Sys2Proof.Config Sys2Proof.Spec

/-! ### What an ending reports (60_exceptions.md R220, R221) -/

/-- The code an ending records in STATUS.ERRCODE, if it is an error. -/
def CommandEnd.errorCode : CommandEnd → Option (BitVec 8)
  | .error c => some (errorValue c)
  | _ => none

/-- The ending is an expected-retry failure (60_exceptions.md R225). -/
def CommandEnd.fails : CommandEnd → Bool
  | .fail | .failUnspecified _ _ => true
  | _ => false

theorem errorValue_mem_range (c : ErrorCode) : 1 ≤ (errorValue c).toNat ∧ (errorValue c).toNat ≤ 6 := by
  cases c <;> decide

/-- An ending with a code is an error: STATUS records the code, and nothing else changes. -/
theorem State.finish_of_errorCode_eq_some (s : State) {e : CommandEnd} {c : BitVec 8} (h : e.errorCode = some c) :
    EndedAs s (s.finish e) false true c ∧ OnlyStatusChanged s (s.finish e) := by
  cases e with
  | error code => obtain rfl := Option.some.inj h; exact s.finish_error code
  | fail | failUnspecified | normal | result | store => cases h

theorem State.finish_err_of_errorCode_eq_none (s : State) {e : CommandEnd} (h : e.errorCode = none) :
    (s.finish e).status.err = false := by
  cases e with
  | error => cases h
  | fail | failUnspecified | normal | result | store => rfl

/-- An ending is a success, an expected-retry failure that keeps RES, or an error (60_exceptions.md R220). -/
theorem State.finish_outcome (s : State) (e : CommandEnd) :
    EndedAs s (s.finish e) false false 0 ∨
      (e.fails = true ∧ EndedAs s (s.finish e) true false 0 ∧ (s.finish e).res = s.res) ∨ ∃ c, e = .error c := by
  cases e with
  | error c => exact .inr (.inr ⟨c, rfl⟩)
  | fail => exact .inr (.inl ⟨rfl, s.finish_fail.1, rfl⟩)
  | failUnspecified a n => exact .inr (.inl ⟨rfl, (s.finish_failUnspecified a n).1, rfl⟩)
  | normal => exact .inl s.finish_normal.1
  | result v => exact .inl (s.finish_result v).1
  | store a bs => exact .inl (s.finish_store a bs).1

/-! ### The commands that can fail (60_exceptions.md R225) -/

theorem State.fails_withParams (s : State) {k : ParamSet → CommandEnd} (h : ∀ P, (k P).fails = false) :
    (s.withParams k).fails = false := by
  rcases s.withParams_cases k with ⟨_, eq⟩ | ⟨P, _, eq⟩ <;> rw [eq]
  · rfl
  · exact h P

theorem State.fails_fieldUnary (s : State) (body : FieldSpec → Nat → Nat) : (s.fieldUnary body).fails = false := by
  refine s.fails_withParams fun P => ?_
  split_ifs <;> rfl

theorem State.fails_fieldBinary (s : State) (body : FieldSpec → Nat → Nat → Nat) :
    (s.fieldBinary body).fails = false := by
  refine s.fails_withParams fun P => ?_
  split_ifs <;> rfl

theorem State.fails_sortCommand (s : State) (size : Nat) (sort : List Nat → List Nat) :
    (s.sortCommand size sort).fails = false := by
  rcases s.sortCommand_cases size sort with ⟨_, eq⟩ | ⟨_, _, eq⟩ | ⟨_, _, eq⟩ <;> rw [eq] <;> rfl

theorem State.fails_benesCommand (s : State) : s.benesCommand.fails = false := by
  refine s.fails_withParams fun P => ?_
  dsimp only
  split_ifs <;> rfl

theorem State.fails_transposeCommand (s : State) : s.transposeCommand.fails = false := by
  unfold State.transposeCommand
  split_ifs <;> rfl

theorem State.fails_geExtractCommand (s : State) : s.geExtractCommand.fails = false := by
  refine s.fails_withParams fun P => ?_
  dsimp only
  split_ifs <;> rfl

theorem State.fails_zeroCommand (s : State) : s.zeroCommand.fails = false := by
  unfold State.zeroCommand
  split_ifs <;> rfl

/-- Only MINPOLY and GE_REDUCE have an expected-retry failure. -/
theorem eq_of_commandEnd_fails {i : Instr} {s : State} (h : (commandEnd i s).fails = true) :
    i = .minpoly ∨ i = .geReduce := by
  by_contra other
  refine absurd h (ne_true_of_eq_false ?_)
  cases i with
  | minpoly | geReduce => simp at other
  | nop => rfl
  | gfAdd => exact s.fails_fieldBinary fun _ => gfAdd
  | gfMul => exact s.fails_fieldBinary gfMul
  | gfDiv => exact s.fails_fieldBinary gfDiv
  | gfSq => exact s.fails_fieldUnary gfSq
  | gfSq4 => exact s.fails_fieldUnary gfSq4
  | gfInv => exact s.fails_fieldUnary gfInv
  | sort32 | sort64 => exact s.fails_sortCommand _ _
  | benes => exact s.fails_benesCommand
  | transpose64 => exact s.fails_transposeCommand
  | geExtract => exact s.fails_geExtractCommand
  | zero => exact s.fails_zeroCommand

/-- Settles O35: the three outcomes of an ending; its failure is MINPOLY's or GE_REDUCE's, its error changes STATUS
alone. -/
theorem everyCommandEndsInOneOutcome : Obligations.EveryCommandEndsInOneOutcome := by
  intro i s
  refine ⟨_, exec_eq_finish i s, s.finish_operandsKept _, ?_⟩
  rcases s.finish_outcome (commandEnd i s) with success | ⟨fails, ended, res⟩ | ⟨c, error⟩
  · exact .inl success
  · exact .inr (.inl ⟨ended, eq_of_commandEnd_fails fails, res⟩)
  · obtain ⟨low, high⟩ := errorValue_mem_range c
    rw [error]
    exact .inr (.inr ⟨errorValue c, low, high, s.finish_error c⟩)

/-! ### The table of checks (60_exceptions.md R222, R223) -/

section
variable (a n k b m l : Nat)

/-- The alignment check of one region, and of two, in the table's words. -/
theorem any_misaligned_one : [(a, n, k)].any (fun r => decide (r.1 % r.2.2 ≠ 0)) = !aligned a k := by
  simp [aligned]

theorem any_misaligned_two :
    [(a, n, k), (b, m, l)].any (fun r => decide (r.1 % r.2.2 ≠ 0)) = !(aligned a k && aligned b l) := by
  simp [aligned, Bool.not_and]

theorem not_inRange : (!inRange a n) = decide (0x400000 < a + n) := by
  rw [inRange, ← decide_not, decide_eq_decide, not_le, lmemBytes]

/-- The range check of one region, and of two, in the table's words. -/
theorem any_beyond_one : [(a, n, k)].any (fun r => decide (0x400000 < r.1 + r.2.1)) = !inRange a n := by
  simp [not_inRange]

theorem any_beyond_two :
    [(a, n, k), (b, m, l)].any (fun r => decide (0x400000 < r.1 + r.2.1)) = !(inRange a n && inRange b m) := by
  simp [not_inRange]

theorem regionsMeet_two : regionsMeet [(a, n, k), (b, m, l)] = overlap a n b m := by
  simp [regionsMeet, overlap, Bool.and_assoc]

end

/-- The checks after EADDR: EOVERLAP, EDOMAIN. -/
def lastError (i : Instr) (P : ParamSet) (s : State) : Option (BitVec 8) :=
  if (i = .benes ∨ i = .geExtract) ∧ regionsMeet (regions i P s) = true then some 5
  else if domainError i P s then some 6
  else none

section
variable {i : Instr} {P : ParamSet} {s : State}

/-- A rule that checks alignment, then range, reports what the table does if its rest does. -/
theorem errorCode_of_checks {align inside : Bool} {e : CommandEnd}
    (misaligned : (regions i P s).any (fun r => decide (r.1 % r.2.2 ≠ 0)) = !align)
    (beyond : (regions i P s).any (fun r => decide (0x400000 < r.1 + r.2.1)) = !inside)
    (rest : e.errorCode = lastError i P s) :
    (if align then if inside then e else .error .eaddr else .error .ealign).errorCode = firstErrorWith i P s := by
  rw [firstErrorWith, misaligned, beyond]
  cases align with
  | false => rfl
  | true =>
    cases inside with
    | false => rfl
    | true => exact rest

/-- The commands that ask for disjoint regions check no domain. -/
theorem lastError_of_overlap (two : i = .benes ∨ i = .geExtract) :
    lastError i P s = if regionsMeet (regions i P s) then some 5 else none := by
  rcases two with rfl | rfl <;> simp [lastError, domainError]

theorem lastError_of_no_overlap (other : ¬ (i = .benes ∨ i = .geExtract)) :
    lastError i P s = if domainError i P s then some 6 else none := by
  rw [lastError, if_neg fun h => other h.1]

/-- A command without regions has neither an alignment nor a range to check. -/
theorem firstErrorWith_of_no_regions (empty : regions i P s = []) : firstErrorWith i P s = lastError i P s := by
  simp [firstErrorWith, lastError, empty]

/-- A command that uses a parameter set reports ECFG, or what its rule reports for the set. -/
theorem errorCode_withParams (uses : usesPset i = true) {k : ParamSet → CommandEnd}
    (h : ∀ P, (k P).errorCode = firstErrorWith i P s) : (s.withParams k).errorCode = firstError i s := by
  rw [firstError, uses]
  rcases s.withParams_cases k with ⟨row, eq⟩ | ⟨P, row, eq⟩ <;> rw [row, eq]
  · rfl
  · exact h P

theorem firstError_of_no_pset (unused : usesPset i = false) : firstError i s = firstErrorWith i params348864 s := by
  rw [firstError, unused]

/-- The end of a rule whose last check is EDOMAIN. -/
theorem errorCode_of_domain_check {inDomain : Bool} {e : CommandEnd} (rest : e.errorCode = none) :
    (if inDomain then e else .error .edomain).errorCode = if !inDomain then some 6 else none := by
  cases inDomain with
  | false => rfl
  | true => exact rest

theorem not_canonical (F : FieldSpec) (v : Nat) : (!canonical F v) = decide (2 ^ F.m ≤ v) := by
  rw [canonical, ← decide_not, decide_eq_decide, not_lt]

/-- The end of a rule whose last check is EOVERLAP. -/
theorem errorCode_overlap_store (meet : Bool) (a : Nat) (bs : List Byte) :
    (if meet then CommandEnd.error .eoverlap else .store a bs).errorCode = if meet then some 5 else none := by
  cases meet <;> rfl

end

/-! ### Each command reports the table's first error -/

section
variable (s : State)

theorem State.errorCode_fieldUnary {i : Instr} (unary : i = .gfSq ∨ i = .gfSq4 ∨ i = .gfInv)
    (body : FieldSpec → Nat → Nat) : (s.fieldUnary body).errorCode = firstError i s := by
  have uses : usesPset i = true := by rcases unary with rfl | rfl | rfl <;> rfl
  refine errorCode_withParams uses fun P => ?_
  have table : firstErrorWith i P s = if decide (2 ^ P.field.m ≤ s.opa.toNat) then some 6 else none := by
    rcases unary with rfl | rfl | rfl <;> exact firstErrorWith_of_no_regions rfl
  rw [table, errorCode_of_domain_check rfl, not_canonical]

theorem State.errorCode_fieldBinary {i : Instr} (binary : i = .gfAdd ∨ i = .gfMul ∨ i = .gfDiv)
    (body : FieldSpec → Nat → Nat → Nat) : (s.fieldBinary body).errorCode = firstError i s := by
  have uses : usesPset i = true := by rcases binary with rfl | rfl | rfl <;> rfl
  refine errorCode_withParams uses fun P => ?_
  have table : firstErrorWith i P s =
      if decide (2 ^ P.field.m ≤ s.opa.toNat ∨ 2 ^ P.field.m ≤ s.opb.toNat) then some 6 else none := by
    rcases binary with rfl | rfl | rfl <;> exact firstErrorWith_of_no_regions rfl
  rw [table, errorCode_of_domain_check rfl, Bool.not_and, not_canonical, not_canonical, Bool.decide_or]

/-- A rule on one region, without a parameter set: SORT32, SORT64, TRANSPOSE64. -/
theorem errorCode_of_one_region {i : Instr} (unused : usesPset i = false) {a n k : Nat}
    (region : regions i params348864 s = [(a, n, k)]) {e : CommandEnd}
    (rest : e.errorCode = lastError i params348864 s) :
    (if aligned a k then if inRange a n then e else .error .eaddr else .error .ealign).errorCode = firstError i s := by
  rw [firstError_of_no_pset unused]
  exact errorCode_of_checks (by rw [region, any_misaligned_one]) (by rw [region, any_beyond_one]) rest

/-- ZERO has no alignment requirement: every address is a multiple of 1. -/
theorem State.errorCode_zeroCommand : s.zeroCommand.errorCode = firstError .zero s := by
  have misaligned : (regions .zero params348864 s).any (fun r => decide (r.1 % r.2.2 ≠ 0)) = !true :=
    (any_misaligned_one _ _ _).trans (by simp [aligned, Nat.mod_one])
  rw [firstError_of_no_pset rfl]
  exact errorCode_of_checks misaligned (any_beyond_one _ _ _) rfl

/-- The domain check of MINPOLY, element by element. -/
theorem domainError_minpoly (P : ParamSet) :
    domainError .minpoly P s = !(s.readElems s.addr0.toNat 2 P.sysT).all (canonical P.field) := by
  rw [State.readElems_eq_map, List.all_map, List.not_all_eq_any_not]
  simp [domainError, not_canonical]

theorem errorCode_minpolyOn (P : ParamSet) (f : List Nat) (b : Nat) :
    (minpolyOn P f b).errorCode = if !f.all (canonical P.field) then some 6 else none := by
  refine errorCode_of_domain_check ?_
  cases minimalPolynomial P f <;> rfl

theorem State.errorCode_minpolyCommand : s.minpolyCommand.errorCode = firstError .minpoly s := by
  refine errorCode_withParams rfl fun P =>
    errorCode_of_checks (any_misaligned_two _ _ _ _ _ _) (any_beyond_two _ _ _ _ _ _) ?_
  rw [errorCode_minpolyOn, lastError_of_no_overlap (by decide), domainError_minpoly]

theorem State.errorCode_benesCommand : s.benesCommand.errorCode = firstError .benes s := by
  refine errorCode_withParams rfl fun P =>
    errorCode_of_checks (any_misaligned_two _ _ _ _ _ _) (any_beyond_two _ _ _ _ _ _) ?_
  rw [errorCode_overlap_store, lastError_of_overlap (.inl rfl), regions, regionsMeet_two]
  rfl

theorem State.errorCode_geReduceCommand : s.geReduceCommand.errorCode = firstError .geReduce s := by
  refine errorCode_withParams rfl fun P => errorCode_of_checks (any_misaligned_one _ _ _) (any_beyond_one _ _ _) ?_
  split <;> rfl

theorem State.errorCode_geExtractCommand : s.geExtractCommand.errorCode = firstError .geExtract s := by
  refine errorCode_withParams rfl fun P =>
    errorCode_of_checks (any_misaligned_two _ _ _ _ _ _) (any_beyond_two _ _ _ _ _ _) ?_
  rw [errorCode_overlap_store, lastError_of_overlap (.inr rfl), regions, regionsMeet_two]
  rfl

/-- Every command reports the first error of the table (60_exceptions.md R222, R223). -/
theorem errorCode_commandEnd (i : Instr) : (commandEnd i s).errorCode = firstError i s := by
  cases i with
  | nop => rfl
  | gfAdd => exact s.errorCode_fieldBinary (.inl rfl) fun _ => gfAdd
  | gfMul => exact s.errorCode_fieldBinary (.inr (.inl rfl)) gfMul
  | gfDiv => exact s.errorCode_fieldBinary (.inr (.inr rfl)) gfDiv
  | gfSq => exact s.errorCode_fieldUnary (.inl rfl) gfSq
  | gfSq4 => exact s.errorCode_fieldUnary (.inr (.inl rfl)) gfSq4
  | gfInv => exact s.errorCode_fieldUnary (.inr (.inr rfl)) gfInv
  | sort32 | sort64 | transpose64 => exact errorCode_of_one_region s rfl rfl rfl
  | minpoly => exact s.errorCode_minpolyCommand
  | benes => exact s.errorCode_benesCommand
  | geReduce => exact s.errorCode_geReduceCommand
  | geExtract => exact s.errorCode_geExtractCommand
  | zero => exact s.errorCode_zeroCommand

end

/-- Settles O36: an ending has the code the table gives, or none. -/
theorem firstErrorInPriorityIsReported : Obligations.FirstErrorInPriorityIsReported := by
  intro i s
  refine ⟨_, exec_eq_finish i s, ?_⟩
  have reported := errorCode_commandEnd s i
  cases table : firstError i s with
  | some c => exact s.finish_of_errorCode_eq_some (reported.trans table)
  | none => exact s.finish_err_of_errorCode_eq_none (reported.trans table)

/-! ### Completion, launch and overflow (60_exceptions.md R226, R227, R229) -/

theorem State.complete_of_decode (s : State) {v : Word} {i : Instr} (h : decode v = .ok i) : s.complete v = exec i s := by
  rw [State.complete, h]

/-- Settles O4: the turn completes the word in flight, and a word that decodes completes as its command. -/
theorem stepRunsDecodedCommand : Obligations.StepRunsDecodedCommand := by
  intro s l i rest inflight decoded _ turn
  rw [turn.step_eq, State.sequencerTurn_of_inflight (s := s.withAgenda rest) inflight,
    State.complete_of_decode _ decoded]

theorem State.writeReg_cmd_of_idle {s : State} (idle : s.busy = false) (v : Word) : s.writeReg .cmd v = s.launch v := by
  rw [State.writeReg, idle]; rfl

theorem State.writeReg_cmd_of_busy {s : State} (busy : s.busy = true) (v : Word) :
    s.writeReg .cmd v = s.withStatus (statusOverflow s.status) := by
  rw [State.writeReg, if_pos busy]

/-- Settles O23: an idle CMD write is `launch`, which changes the command in flight and STATUS. -/
theorem launchLatchesCommandAndPset : Obligations.LaunchLatchesCommandAndPset := by
  intro s v rest idle h
  have write := step_of_asmWr h
  rw [State.writeReg_cmd_of_idle (s := s.withAgenda rest) idle] at write
  exact ⟨_, write, rfl, rfl, rfl, rfl⟩

/-- Settles O24: a busy CMD write is `statusOverflow`. -/
theorem busyCommandWriteIsDropped : Obligations.BusyCommandWriteIsDropped := by
  intro s v rest busy h
  have write := step_of_asmWr h
  rw [State.writeReg_cmd_of_busy (s := s.withAgenda rest) busy] at write
  exact write

end Sys2Proof.Machine
end

section
/-! PROOFS. Hazards: a launched command reaches its completion, and the error codes that no secret decides
(spec/70_reset_and_hazards.md R257, R258). -/

namespace Sys2Proof.Machine

open Sys2Proof.Config Sys2Proof.Spec

/-! ### A busy block keeps its command until the sequencer's turn (70_reset_and_hazards.md R257) -/

theorem RegEffect.agenda_eq {s t : State} {v : Word} {r : Reg} (h : RegEffect s v r t) : t.agenda = s.agenda := by
  cases h <;> simp [State.launch]

theorem HostEffect.agenda_eq {s t : State} {a : HostAccess} (h : HostEffect s a t) : t.agenda = s.agenda := by
  cases h with
  | register effect => exact effect.agenda_eq
  | answered | blocked | stored => rfl

/-- Of the register writes only an idle CMD write sets the command in flight. -/
theorem RegEffect.inflight_eq_of_busy {s t : State} {v : Word} {r : Reg} (h : RegEffect s v r t)
    (busy : s.busy = true) : t.inflight = s.inflight := by
  cases h with
  | launched idle => exact absurd busy (ne_true_of_eq_false idle)
  | stored => exact State.storeOperand_inflight ..
  | ignored | dropped | irqen | cleared | overflowed => rfl

theorem HostEffect.inflight_eq_of_busy {s t : State} {a : HostAccess} (h : HostEffect s a t)
    (busy : s.busy = true) : t.inflight = s.inflight := by
  cases h with
  | register effect => exact effect.inflight_eq_of_busy busy
  | answered | blocked | stored => rfl

/-- An access of the aperture leaves the command in flight and the events received after it. -/
theorem step_access_of_inflight {s : State} {l : InFlight} {a : HostAccess} {rest : List Event}
    (inflight : s.inflight = some l) (received : s.agenda = .access a :: rest) (inside : a.offset < 0x800000) :
    ∃ t, step s = .next t ∧ t.inflight = some l ∧ t.agenda = rest := by
  obtain ⟨t, access⟩ := (s.withAgenda rest).hostAccess_inside inside
  have effect := State.hostAccess_effect access
  have busy : (s.withAgenda rest).busy = true := State.busy_of_inflight inflight
  exact ⟨t, (step_of_access received).trans access, (effect.inflight_eq_of_busy busy).trans inflight, effect.agenda_eq⟩

theorem run_succ_of_step {s t : State} (h : step s = .next t) (k : Nat) :
    Host.Core.run core (k + 1) s = Host.Core.run core k t := by
  have next : core.step s = .next t := h
  simp only [Host.Core.run, next]

/-- With accesses of the aperture and no reset to come, the sequencer's turn comes, and the command is in flight. -/
theorem exists_run_sequencerMoves {s : State} {l : InFlight} (inflight : s.inflight = some l)
    (safe : s.safeToRun = true) (noReset : Event.rst ∉ s.agenda) :
    ∃ k t rest, k ≤ s.agenda.length ∧ Host.Core.run core k s = .next t ∧ t.inflight = some l ∧
      t.sequencerMoves rest := by
  unfold State.safeToRun at safe
  induction agenda : s.agenda generalizing s with
  | nil => exact ⟨0, s, [], Nat.le_refl 0, rfl, inflight, .inl ⟨agenda, rfl⟩⟩
  | cons e rest ih =>
    rw [agenda] at safe noReset
    cases e with
    | sequencer => exact ⟨0, s, rest, Nat.zero_le _, rfl, inflight, .inr agenda⟩
    | rst => exact absurd List.mem_cons_self noReset
    | access a =>
      obtain ⟨inside, safe⟩ := Bool.and_eq_true_iff.mp safe
      obtain ⟨u, next, inflight, rfl⟩ := step_access_of_inflight inflight agenda (of_decide_eq_true inside)
      obtain ⟨k, t, later, bound, run, turn⟩ := ih inflight safe (List.not_mem_of_not_mem_cons noReset) rfl
      exact ⟨k + 1, t, later, Nat.succ_le_succ bound, (run_succ_of_step next k).trans run, turn⟩

/-- Settles O8: the turn is reached with the command in flight, and the turn's step is its `finish`. -/
theorem launchedCommandAlwaysCompletes : Obligations.LaunchedCommandAlwaysCompletes := by
  intro s l inflight safe noReset
  obtain ⟨k, t, rest, bound, run, inflight, turn⟩ := exists_run_sequencerMoves inflight safe noReset
  exact ⟨k, t, _, rest, bound, run, inflight, turn, step_of_inflight inflight turn, State.finish_busy _ _,
    State.finish_done _ _⟩

/-! ### The error codes of the non-secret registers (70_reset_and_hazards.md R258) -/

/-- ERRCODE is the code of the ending, 0 without an error (60_exceptions.md R221). -/
theorem State.finish_errcode (s : State) (e : CommandEnd) : (s.finish e).status.errcode = e.errorCode.getD 0 := by
  cases e <;> rfl

theorem errcode_of_exec {i : Instr} {s t : State} (h : exec i s = .next t) :
    t.status.errcode = (firstError i s).getD 0 := by
  obtain rfl := Host.Outcome.next.inj ((exec_eq_finish i s).symm.trans h)
  rw [State.finish_errcode, errorCode_commandEnd]

section
variable {i : Instr} {s s' : State}

theorem regions_congr (P : ParamSet) (addr0 : s'.addr0 = s.addr0) (addr1 : s'.addr1 = s.addr1)
    (len : s'.len = s.len) : regions i P s' = regions i P s := by
  simp only [regions, addr0, addr1, len]

/-- Of the checks after ECFG, all that come before EDOMAIN look at the regions only. -/
theorem firstErrorWith_eq_some_of_regions_eq {P : ParamSet} {c : BitVec 8} (same : regions i P s' = regions i P s)
    (notDomain : c ≠ 6) (h : firstErrorWith i P s = some c) : firstErrorWith i P s' = some c := by
  unfold firstErrorWith at h ⊢
  rw [same]
  split_ifs at h with misaligned beyond meet domain
  · rwa [if_pos misaligned]
  · rwa [if_neg misaligned, if_pos beyond]
  · rwa [if_neg misaligned, if_neg beyond, if_pos meet]
  · exact absurd (Option.some.inj h).symm notDomain

/-- An error other than EDOMAIN is a matter of LPSET and the regions. -/
theorem firstError_eq_some_of_regions_eq {c : BitVec 8} (lpset : s'.lpset = s.lpset)
    (same : ∀ P, regions i P s' = regions i P s) (notDomain : c ≠ 6) (h : firstError i s = some c) :
    firstError i s' = some c := by
  cases uses : usesPset i with
  | false =>
    rw [firstError_of_no_pset uses] at h ⊢
    exact firstErrorWith_eq_some_of_regions_eq (same _) notDomain h
  | true =>
    rw [firstError, uses] at h ⊢
    rw [lpset]
    cases row : paramRow s.lpset with
    | none => rwa [row] at h
    | some P =>
      rw [row] at h
      exact firstErrorWith_eq_some_of_regions_eq (same P) notDomain h

end

/-- Settles O37: the code is the table's first error, and of its codes only EDOMAIN looks past the regions. -/
theorem nonSecretErrorCodesIgnoreData : Obligations.NonSecretErrorCodesIgnoreData := by
  intro i s s' t t' lpset addr0 addr1 len run run' code
  rw [errcode_of_exec run] at code ⊢
  rw [errcode_of_exec run']
  cases table : firstError i s with
  | none => rw [table] at code; exact absurd code (by decide)
  | some c =>
    rw [table] at code
    have notDomain : c ≠ 6 := by rintro rfl; exact absurd code (by decide)
    rw [firstError_eq_some_of_regions_eq lpset (fun P => regions_congr P addr0 addr1 len) notDomain table]

end Sys2Proof.Machine
end
